-- ==== Sys2Proof/Word.lean ====
section
/-! DEFINITION. The widths of the spec's data (10_state.md section 2 to 4) and the plain-data form of its three memories. -/

namespace Sys2Proof

/-- A cell of B-space (R32). -/
abbrev Byte := BitVec 8

/-- A cell of E-space: 64 bits, of which codec-32 uses the low 32 (R31). -/
abbrev Elem := BitVec 64

/-- An entry of P-space (R33). -/
abbrev Entry := BitVec 17

/-- The command word (R29, R91). -/
abbrev CmdWord := BitVec 32

/-- A memory of `w`-bit cells: (index, cell) pairs. A cell that is not listed reads as zero (log entry 2).
The canonical form is `Machine.wfMem`. -/
abbrev Mem (w : Nat) := List (Nat × BitVec w)

end Sys2Proof
end

