-- ==== Sys2Proof/Syntax.lean ====
section
/-! DEFINITION. The instructions: one constructor for each row of spec/opcode_table.json.
CMD rows are 32-bit command words (30_encoding.md R91 to R93), CTRL rows are 8-bit control bytes (R94 to R97). -/

namespace Sys2Proof

/-- The two codec families (R2); the `CODEC` bit of the command word (R91). -/
inductive Codec where
  /-- codec-32, `CODEC = 0` -/
  | c32
  /-- codec-64, `CODEC = 1` -/
  | c64
deriving DecidableEq, Repr

/-- The instructions. A command carries the fields of its word. A reserved operation code carries the 28 bits above
`OP`, which the table leaves free. A control byte carries its length code `pidx` (the high nibble, R94). -/
inductive Instr where
  /-- PACK: `OP = 0x1`, `write_bits` (R138) -/
  | pack (c : Codec)
  /-- UNPACK: `OP = 0x2`, `unpack_w` with `w = W` (R150) -/
  | unpack (c : Codec)
  /-- PARTITION: `OP = 0x3`, `compute_partition` (R190) -/
  | partition (c : Codec)
  /-- ENCBLK: `OP = 0x4`, `compress_block`; `pext`: the partition is the host's (R210, R212) -/
  | encblk (c : Codec) (pext : Bool)
  /-- DECBLK: `OP = 0x5`, `uncompress_block` (R217) -/
  | decblk (c : Codec)
  /-- ENCFRM: `OP = 0x6`, `compress` (R240) -/
  | encfrm (c : Codec)
  /-- DECFRM: `OP = 0x7`, `uncompress` (R242) -/
  | decfrm (c : Codec)
  /-- BOUND: `OP = 0x8`, `compress_bound` (R244) -/
  | bound (c : Codec)
  /-- `OP = 0x0`, reserved (R93, R265) -/
  | reservedOp0 (rest : BitVec 28)
  /-- `OP = 0x9`, reserved (R93, R265) -/
  | reservedOp9 (rest : BitVec 28)
  /-- `OP = 0xA`, reserved (R93, R265) -/
  | reservedOpA (rest : BitVec 28)
  /-- `OP = 0xB`, reserved (R93, R265) -/
  | reservedOpB (rest : BitVec 28)
  /-- `OP = 0xC`, reserved (R93, R265) -/
  | reservedOpC (rest : BitVec 28)
  /-- `OP = 0xD`, reserved (R93, R265) -/
  | reservedOpD (rest : BitVec 28)
  /-- `OP = 0xE`, reserved (R93, R265) -/
  | reservedOpE (rest : BitVec 28)
  /-- `OP = 0xF`, reserved (R93, R265) -/
  | reservedOpF (rest : BitVec 28)
  /-- width nibble `0x0`: width 0 (R155) -/
  | unpack0 (pidx : BitVec 4)
  /-- width nibble `0x1`: width 1 (R156) -/
  | unpack1 (pidx : BitVec 4)
  /-- width nibble `0x2`: width 2 (R157) -/
  | unpack2 (pidx : BitVec 4)
  /-- width nibble `0x3`: width 3 (R158) -/
  | unpack3 (pidx : BitVec 4)
  /-- width nibble `0x4`: width 4 (R159) -/
  | unpack4 (pidx : BitVec 4)
  /-- width nibble `0x5`: width 5 (R160) -/
  | unpack5 (pidx : BitVec 4)
  /-- width nibble `0x6`: width 6 (R161) -/
  | unpack6 (pidx : BitVec 4)
  /-- width nibble `0x7`: width 7 (R162) -/
  | unpack7 (pidx : BitVec 4)
  /-- width nibble `0x8`: width 8 (R163) -/
  | unpack8 (pidx : BitVec 4)
  /-- width nibble `0x9`: width 9 (R164) -/
  | unpack9 (pidx : BitVec 4)
  /-- width nibble `0xA`: width 10 (R165) -/
  | unpack10 (pidx : BitVec 4)
  /-- width nibble `0xB`: width 11 (R166) -/
  | unpack11 (pidx : BitVec 4)
  /-- width nibble `0xC`: width 12 (R167) -/
  | unpack12 (pidx : BitVec 4)
  /-- width nibble `0xD`: width 16 (R168) -/
  | unpack16 (pidx : BitVec 4)
  /-- width nibble `0xE`: width 32 (R169) -/
  | unpack32 (pidx : BitVec 4)
  /-- width nibble `0xF` in codec-64: width 64 (R170) -/
  | unpack64 (pidx : BitVec 4)
  /-- width nibble `0xF` in codec-32: no unpacker (R97, R288) -/
  | ctrlInvalid (pidx : BitVec 4)
deriving DecidableEq, Repr

end Sys2Proof
end

