-- ==== Sys2Proof/WellFormed.lean ====
section
/-! DEFINITION. Which instructions exist in which family. A command word exists in both families whatever block is being
decoded; of the control bytes, UNPACK64 is "codec-64 only" (R170) and the invalid control byte is codec-32's (R97). -/

namespace Sys2Proof

/-- `i` is well-formed where the family in force is `c` (the family matters to control bytes only, R95, R97). -/
def Instr.wellFormed (c : Codec) (i : Instr) : Bool :=
  match i with
  | .unpack64 _ => c == .c64
  | .ctrlInvalid _ => c == .c32
  | .pack _ | .unpack _ | .partition _ | .encblk _ _ | .decblk _ | .encfrm _ | .decfrm _ | .bound _
  | .reservedOp0 _ | .reservedOp9 _ | .reservedOpA _ | .reservedOpB _ | .reservedOpC _ | .reservedOpD _
  | .reservedOpE _ | .reservedOpF _
  | .unpack0 _ | .unpack1 _ | .unpack2 _ | .unpack3 _ | .unpack4 _ | .unpack5 _ | .unpack6 _ | .unpack7 _
  | .unpack8 _ | .unpack9 _ | .unpack10 _ | .unpack11 _ | .unpack12 _ | .unpack16 _ | .unpack32 _ => true

end Sys2Proof
end

