-- ==== Sys2Proof/Decode.lean ====
section
/-! DEFINITION. Decoding and encoding of the two instruction formats: the command word (30_encoding.md R91 to R93) and the
control byte (R94 to R97). A command word is a 32-bit register value and a control byte one byte of B-space, so neither
has a byte order. -/

namespace Sys2Proof

/-- What the engine fetches: the latched command word, or a control byte together with the family of the block it
stands in (R95: the meaning of the width nibble `0xF` depends on the family). -/
inductive Fetched where
  | cmd (w : CmdWord)
  | ctrl (c : Codec) (b : Byte)
deriving DecidableEq, Repr

/-- Why a command word of an existing operation is illegal (R93); the engine reports both as `E_ILLCMD` (R265). -/
inductive DecodeError where
  /-- a bit of `CMD[31:6]` is set -/
  | reservedBits
  /-- `PEXT = 1` and the operation is not ENCBLK -/
  | pextNotEncblk
deriving DecidableEq, Repr

/-- The family a `CODEC` bit names (R91). -/
def codecOfBit (b : Bool) : Codec := if b then .c64 else .c32

/-- The `CODEC` bit of a family (R91). -/
def Codec.bit (c : Codec) : Bool := c == .c64

/-- `OP = CMD[3:0]` (R91). -/
def opField (w : CmdWord) : BitVec 4 := w.extractLsb' 0 4

/-- `CODEC = CMD[4]` (R91). -/
def codecField (w : CmdWord) : Codec := codecOfBit (w.getLsbD 4)

/-- `PEXT = CMD[5]` (R91). -/
def pextField (w : CmdWord) : Bool := w.getLsbD 5

/-- `CMD[31:6]`, which must be zero (R91). -/
def reservedField (w : CmdWord) : BitVec 26 := w.extractLsb' 6 26

/-- The 28 bits above `OP`. -/
def restField (w : CmdWord) : BitVec 28 := w.extractLsb' 4 28

/-- A command that has no `PEXT` bit (R93): `i` if the word has no reserved bit set and `PEXT = 0`. -/
def plainCommand (w : CmdWord) (i : Instr) : Except DecodeError Instr :=
  if reservedField w ≠ 0 then .error .reservedBits
  else if pextField w then .error .pextNotEncblk
  else .ok i

/-- The decoder of command words (R92, R93). -/
def decodeCmd (w : CmdWord) : Except DecodeError Instr :=
  let c := codecField w
  match (opField w).toNat with
  | 0 => .ok (.reservedOp0 (restField w))
  | 1 => plainCommand w (.pack c)
  | 2 => plainCommand w (.unpack c)
  | 3 => plainCommand w (.partition c)
  | 4 => if reservedField w ≠ 0 then .error .reservedBits else .ok (.encblk c (pextField w))
  | 5 => plainCommand w (.decblk c)
  | 6 => plainCommand w (.encfrm c)
  | 7 => plainCommand w (.decfrm c)
  | 8 => plainCommand w (.bound c)
  | 9 => .ok (.reservedOp9 (restField w))
  | 10 => .ok (.reservedOpA (restField w))
  | 11 => .ok (.reservedOpB (restField w))
  | 12 => .ok (.reservedOpC (restField w))
  | 13 => .ok (.reservedOpD (restField w))
  | 14 => .ok (.reservedOpE (restField w))
  | _ => .ok (.reservedOpF (restField w))

/-- `widx = ctrl[3:0]` (R94). -/
def widxField (b : Byte) : BitVec 4 := b.extractLsb' 0 4

/-- `pidx = ctrl[7:4]` (R94). -/
def pidxField (b : Byte) : BitVec 4 := b.extractLsb' 4 4

/-- The decoder of control bytes in a block of family `c` (R95, R97): every byte is an instruction. -/
def decodeCtrl (c : Codec) (b : Byte) : Instr :=
  let p := pidxField b
  match (widxField b).toNat with
  | 0 => .unpack0 p
  | 1 => .unpack1 p
  | 2 => .unpack2 p
  | 3 => .unpack3 p
  | 4 => .unpack4 p
  | 5 => .unpack5 p
  | 6 => .unpack6 p
  | 7 => .unpack7 p
  | 8 => .unpack8 p
  | 9 => .unpack9 p
  | 10 => .unpack10 p
  | 11 => .unpack11 p
  | 12 => .unpack12 p
  | 13 => .unpack16 p
  | 14 => .unpack32 p
  | _ => if c = .c64 then .unpack64 p else .ctrlInvalid p

/-- The decoder: total on everything the engine can fetch. -/
def decode (f : Fetched) : Except DecodeError Instr :=
  match f with
  | .cmd w => decodeCmd w
  | .ctrl c b => .ok (decodeCtrl c b)

/-- The legal command word with these fields (R91). -/
def commandWord (op : BitVec 4) (c : Codec) (pext : Bool) : CmdWord :=
  0#26 ++ BitVec.ofBool pext ++ BitVec.ofBool c.bit ++ op

/-- A word with a reserved operation code (R93). -/
def reservedWord (op : BitVec 4) (rest : BitVec 28) : CmdWord := rest ++ op

/-- The control byte `pppp wwww` (R94). -/
def ctrlByte (pidx widx : BitVec 4) : Byte := pidx ++ widx

/-- The encoder: the command word of a command, or the control byte in a block of family `c` (R91, R92, R94, R95). -/
def encode (c : Codec) (i : Instr) : Fetched :=
  match i with
  | .pack k => .cmd (commandWord 0x1#4 k false)
  | .unpack k => .cmd (commandWord 0x2#4 k false)
  | .partition k => .cmd (commandWord 0x3#4 k false)
  | .encblk k pext => .cmd (commandWord 0x4#4 k pext)
  | .decblk k => .cmd (commandWord 0x5#4 k false)
  | .encfrm k => .cmd (commandWord 0x6#4 k false)
  | .decfrm k => .cmd (commandWord 0x7#4 k false)
  | .bound k => .cmd (commandWord 0x8#4 k false)
  | .reservedOp0 r => .cmd (reservedWord 0x0#4 r)
  | .reservedOp9 r => .cmd (reservedWord 0x9#4 r)
  | .reservedOpA r => .cmd (reservedWord 0xA#4 r)
  | .reservedOpB r => .cmd (reservedWord 0xB#4 r)
  | .reservedOpC r => .cmd (reservedWord 0xC#4 r)
  | .reservedOpD r => .cmd (reservedWord 0xD#4 r)
  | .reservedOpE r => .cmd (reservedWord 0xE#4 r)
  | .reservedOpF r => .cmd (reservedWord 0xF#4 r)
  | .unpack0 p => .ctrl c (ctrlByte p 0x0#4)
  | .unpack1 p => .ctrl c (ctrlByte p 0x1#4)
  | .unpack2 p => .ctrl c (ctrlByte p 0x2#4)
  | .unpack3 p => .ctrl c (ctrlByte p 0x3#4)
  | .unpack4 p => .ctrl c (ctrlByte p 0x4#4)
  | .unpack5 p => .ctrl c (ctrlByte p 0x5#4)
  | .unpack6 p => .ctrl c (ctrlByte p 0x6#4)
  | .unpack7 p => .ctrl c (ctrlByte p 0x7#4)
  | .unpack8 p => .ctrl c (ctrlByte p 0x8#4)
  | .unpack9 p => .ctrl c (ctrlByte p 0x9#4)
  | .unpack10 p => .ctrl c (ctrlByte p 0xA#4)
  | .unpack11 p => .ctrl c (ctrlByte p 0xB#4)
  | .unpack12 p => .ctrl c (ctrlByte p 0xC#4)
  | .unpack16 p => .ctrl c (ctrlByte p 0xD#4)
  | .unpack32 p => .ctrl c (ctrlByte p 0xE#4)
  | .unpack64 p => .ctrl c (ctrlByte p 0xF#4)
  | .ctrlInvalid p => .ctrl c (ctrlByte p 0xF#4)

/-- The instruction the decoder reads from an opcode-table word: 32 bits are a command word, 8 bits a control byte.
A control byte is read as one of a codec-64 block, where all 256 are legal (R97); the table's codec-32 row
`CTRL_INVALID` has the same bits as UNPACK64 (log entry 8). -/
def decodeTableWord (nbits w : Nat) : Option Instr :=
  match nbits with
  | 32 => (decode (.cmd (BitVec.ofNat 32 w))).toOption
  | 8 => (decode (.ctrl .c64 (BitVec.ofNat 8 w))).toOption
  | _ => none

end Sys2Proof
end

