-- ==== Sys2Proof/Config.lean ====
section
/-! DEFINITION. What the spec leaves open (93_implementation_defined.md, treatment `any value`): free values.
Each is an opaque constant: nothing in Lean can evaluate it or prove a value of it. The first argument is the
value of `State.fresh` when the batch is drawn, the second the index of the cell, so that every cell of every
batch is independent of every other (log entry 4). -/

namespace Sys2Proof.Config

/-- The value of an E-space cell the spec calls unspecified (U1, U2, U14). -/
opaque freeElem : Nat → Nat → Elem

/-- The value of a B-space cell the spec calls unspecified (U2, U14). -/
opaque freeByte : Nat → Nat → Byte

/-- The value of a P-space entry the spec calls unspecified (U8, U14). -/
opaque freeEntry : Nat → Nat → Entry

/-- The value of `PCNT` where the spec calls the register unspecified (R26, U8). -/
opaque freePcnt : Nat → BitVec 17

/-- What a host read of `RESULT` or `PCNT` while BUSY returns, before the register's width is applied (R264, U13). -/
opaque freeRead : Nat → BitVec 64

end Sys2Proof.Config
end

