-- ==== Sys2Proof/Machine/State.lean ====
section
/-! DEFINITION. The state of the machine as plain data (10_state.md), its reset value (R43), and the reasons for which the
model stops. Every error of the hardware itself is a NEXT state (60_exceptions.md R290). -/

namespace Sys2Proof.Machine

/-- The error codes of `STATUS.ERR` (R281); codes 9 to 15 are never produced. -/
inductive Err where
  | ok
  | illcmd
  | arg
  | part
  | dstfull
  | srcshort
  | magic
  | ctrl
  | frame
deriving DecidableEq, Repr

/-- The engine's phase (R20). BUSY has two forms, which the host cannot tell apart (log entry 5). -/
inductive Phase where
  /-- IDLE: no command is running -/
  | idle
  /-- BUSY: a command word is latched (START) and is what the engine fetches next -/
  | command
  /-- BUSY: a framed block is being decoded; the engine fetches its next control byte, or finishes the block (R219) -/
  | control
deriving DecidableEq, Repr

/-- The copies of `CMD` and the operand registers that START takes (R38). -/
structure Latch where
  cmd : CmdWord
  eptr : BitVec 64
  elim : BitVec 64
  bptr : BitVec 64
  blim : BitVec 64
  n : BitVec 64
  w : BitVec 7
  pcnt : BitVec 17
deriving DecidableEq, Repr

/-- The cursors of a running decode (R41), with the names of R219: all are counts and positions on unbounded naturals (R10). -/
structure Cursor where
  /-- the family of the block -/
  codec : Codec
  /-- `a`: the first byte of the block -/
  blk : Nat
  /-- `slimit = a + block_size` -/
  slimit : Nat
  /-- `dlimit = e0 + n`, the end of the block's destination (R220) -/
  dlimit : Nat
  /-- `b`: the byte at which the next run begins -/
  byte : Nat
  /-- `e`: the next element to write -/
  elem : Nat
  /-- `i`: the index of the next partition -/
  idx : Nat
  /-- `p`: the number of partitions of the block -/
  parts : Nat
  /-- `rem` of R242: the elements of the stream that follow this block (0 in DECBLK) -/
  rem : Nat
deriving DecidableEq, Repr

/-- The engine's hidden working state: the packer's bit accumulator with its fill count (R39) and the partitioner's
arrays (R40). No host access can read them (log entry 3). -/
structure Work where
  acc : BitVec 32
  fill : Nat
  cost : List Nat
  refs : List Nat
deriving DecidableEq, Repr

/-- What the host may do in one step (R264, R63, R320). A register is named by its 8-byte slot, that is its byte offset
divided by 8 (R72, log entry 17). -/
inductive HostMove where
  /-- the host leaves the turn to the engine -/
  | wait
  /-- write a register slot; slot 0 (`CMD`) is START (R260) -/
  | writeReg (slot : Nat) (v : BitVec 64)
  /-- read a register slot into `hostData` -/
  | readReg (slot : Nat)
  /-- write a cell of E-space -/
  | writeE (i : Nat) (v : Elem)
  /-- write a cell of B-space -/
  | writeB (i : Nat) (v : Byte)
  /-- write an entry of P-space, which keeps the low 17 bits (R63) -/
  | writeP (i : Nat) (v : BitVec 64)
  /-- read a cell of E-space into `hostData` -/
  | readE (i : Nat)
  /-- read a cell of B-space into `hostData` -/
  | readB (i : Nat)
  /-- read an entry of P-space into `hostData` -/
  | readP (i : Nat)
  /-- apply the reset (R320) -/
  | reset
deriving DecidableEq, Repr

/-- The whole state. `STATUS` is computed from `phase`, `done` and `err` (Machine/Flags.lean, R30). -/
structure State where
  /-- the engine's phase; `STATUS.BUSY` is 1 unless it is `idle` (R20, R30) -/
  phase : Phase
  /-- `CMD` (R29) -/
  cmd : CmdWord
  /-- `STATUS.DONE` (R30) -/
  done : Bool
  /-- `STATUS.ERR` (R30, R281) -/
  err : Err
  /-- `EPTR` (R22) -/
  eptr : BitVec 64
  /-- `ELIM` (R22) -/
  elim : BitVec 64
  /-- `BPTR` (R23) -/
  bptr : BitVec 64
  /-- `BLIM` (R23) -/
  blim : BitVec 64
  /-- `N` (R24) -/
  n : BitVec 64
  /-- `W` (R25) -/
  w : BitVec 7
  /-- `PCNT` (R26) -/
  pcnt : BitVec 17
  /-- `RESULT` (R28) -/
  result : BitVec 64
  /-- E-space (R31) -/
  e : Mem 64
  /-- B-space (R32) -/
  b : Mem 8
  /-- P-space (R33) -/
  p : Mem 17
  /-- the latched command (R38) -/
  latch : Latch
  /-- the cursors of a running decode (R41) -/
  cur : Cursor
  /-- accumulator and working arrays (R39, R40) -/
  work : Work
  /-- the parameter `EMEM_SIZE` (R9, D30); no step writes it (log entry 1) -/
  ememSize : BitVec 64
  /-- the parameter `BMEM_SIZE` (R9, D30); no step writes it (log entry 1) -/
  bmemSize : BitVec 64
  /-- the model's own: how many batches of free values have been drawn (log entry 4) -/
  fresh : Nat
  /-- the model's own: the moves the host is still going to make (log entry 6) -/
  host : List HostMove
  /-- the model's own: what the last host read returned, zero-extended (log entry 6) -/
  hostData : BitVec 64
deriving DecidableEq, Repr

/-- Why the machine stops with a fault. -/
inductive Fault where
  /-- The host accessed an E-space or B-space index at or above the memory's size, or a P-space index above 65520:
  a cell that does not exist (R60). Raised by host moves only, never by an instruction. Safe: the model stops (log entry 10). -/
  | noSuchCell
deriving DecidableEq, Repr

/-- Why the model gives no next state. -/
inductive Refusal where
  /-- An instruction without a meaning; raised by exec's arms only. Safe. -/
  | notModelled (mnemonic : String)
  /-- The host accessed a data space while the engine is BUSY: "the host must not", "a model gives the host no such
  move" (R63, R327, U7). Raised by host moves only, never by an instruction. Safe: the model stops (log entry 9). -/
  | hostDataWhileBusy
deriving DecidableEq, Repr

/-- The latches, cursors and working state right after reset: unspecified and unobservable (R43); zero here (log entry 3). -/
def Latch.zero : Latch :=
  { cmd := 0, eptr := 0, elim := 0, bptr := 0, blim := 0, n := 0, w := 0, pcnt := 0 }

/-- See `Latch.zero`. -/
def Cursor.zero : Cursor :=
  { codec := .c32, blk := 0, slimit := 0, dlimit := 0, byte := 0, elem := 0, idx := 0, parts := 0, rem := 0 }

/-- See `Latch.zero`; START loads this as well (R268). -/
def Work.zero : Work := { acc := 0, fill := 0, cost := [], refs := [] }

/-- The machine right after reset (R43, R320): phase IDLE, every register 0. The memories are unspecified there; here
nothing is listed, and an unlisted cell reads zero (log entry 2). The sizes are the largest the spec allows (log entry 1). -/
def State.reset : State :=
  { phase := .idle
    cmd := 0
    done := false
    err := .ok
    eptr := 0
    elim := 0
    bptr := 0
    blim := 0
    n := 0
    w := 0
    pcnt := 0
    result := 0
    e := []
    b := []
    p := []
    latch := Latch.zero
    cur := Cursor.zero
    work := Work.zero
    ememSize := 0xFFFFFFFFFFFFFFFF#64
    bmemSize := 0xFFFFFFFFFFFFFFFF#64
    fresh := 0
    host := []
    hostData := 0 }

end Sys2Proof.Machine
end

