-- ==== Sys2Proof/Machine/Tables.lean ====
section
/-! DEFINITION. The constants and read-only tables of the spec (00_scope.md R6 to R8, 10_state.md R34 to R37). -/

namespace Sys2Proof.Machine

/-- `ELEM_W(c)` (R2). -/
def elemWidth (c : Codec) : Nat :=
  match c with
  | .c32 => 32
  | .c64 => 64

/-- `EB(c) = ELEM_W(c)/8` (R2). -/
def elemBytes (c : Codec) : Nat :=
  match c with
  | .c32 => 4
  | .c64 => 8

/-- `BLOCK_MAX` (R6). -/
def blockMax : Nat := 65536

/-- `OVERRUN` (R6). -/
def overrun : Nat := 16

/-- `max(Pset)`, `PMAXLEN` (R6). -/
def maxPartition : Nat := 128

/-- `RAW_THRESHOLD = max(Pset) + OVERRUN` (R6). -/
def rawThreshold : Nat := 144

/-- `PMEM_SIZE` (R9). -/
def pmemSize : Nat := 65521

/-- `PSET` (R34): the partition lengths, indexed by the high nibble of a control byte. -/
def pset : List Nat := [1, 2, 3, 4, 5, 6, 7, 8, 9, 10, 11, 12, 16, 32, 64, 128]

/-- `WSET(c)` (R35, R7): the packed widths, indexed by the low nibble of a control byte. -/
def wset (c : Codec) : List Nat :=
  match c with
  | .c32 => [0, 1, 2, 3, 4, 5, 6, 7, 8, 9, 10, 11, 12, 16, 32]
  | .c64 => [0, 1, 2, 3, 4, 5, 6, 7, 8, 9, 10, 11, 12, 16, 32, 64]

/-- `PSET[pidx]` (R96). -/
def partitionLength (pidx : BitVec 4) : Nat := pset.getD pidx.toNat 0

/-- `WSET(c)[widx]`, none for the invalid nibble (R95, R97). -/
def nibbleWidth (c : Codec) (widx : BitVec 4) : Option Nat := (wset c)[widx.toNat]?

/-- `CTRLP(l)` (R34): the index of `l` in `PSET`. -/
def ctrlP (l : Nat) : BitVec 4 := BitVec.ofNat 4 (pset.idxOf l)

/-- `CTRLW(c, w)` (R35): the index of `w` in `WSET(c)`. -/
def ctrlW (c : Codec) (w : Nat) : BitVec 4 := BitVec.ofNat 4 ((wset c).idxOf w)

/-- `GROUP(w) = (GB(w), GE(w))` (R36): bytes and elements of one group of the unpacker of width `w`. -/
def group (w : Nat) : Nat × Nat :=
  match w with
  | 0 => (0, 1)
  | 1 => (1, 8)
  | 2 => (1, 4)
  | 3 => (3, 8)
  | 4 => (1, 2)
  | 5 => (5, 8)
  | 6 => (3, 4)
  | 7 => (7, 8)
  | 8 => (1, 1)
  | 9 => (18, 16)
  | 10 => (10, 8)
  | 11 => (22, 16)
  | 12 => (6, 4)
  | 16 => (2, 1)
  | 32 => (4, 1)
  | 64 => (8, 1)
  | _ => (0, 1)

/-- `GE(w)` (R36, R152). -/
def groupElems (w : Nat) : Nat := (group w).2

/-- `MAGIC(c)` (R8). -/
def magicNumber (c : Codec) : Nat :=
  match c with
  | .c32 => 0xBC32AD239023940E
  | .c64 => 0x08B5A7033F4CBC3D

end Sys2Proof.Machine
end

