-- ==== Sys2Proof/Machine/Bits.lean ====
section
/-! DEFINITION. The pure functions of the codec: big-endian numbers (20_memory.md R64, R65), stream bits (00_scope.md R12),
the integer functions and the bit-packer (40_pack.md R130 to R139). Sizes are unbounded naturals (R10). -/

namespace Sys2Proof.Machine

/-- `⌈a/b⌉` (R10). -/
def cdiv (a b : Nat) : Nat := (a + (b - 1)) / b

/-- `RB(n, w) = ⌈n·w/8⌉` (R130): the bytes of a run of `n` fields of `w` bits. -/
def runBytes (n w : Nat) : Nat := cdiv (n * w) 8

/-- The number whose `w` bits, most significant first, are `f 0`, …, `f (w-1)` (R12). -/
def bitsToNat (f : Nat → Bool) : Nat → Nat
  | 0 => 0
  | w + 1 => 2 * bitsToNat f w + (f w).toNat

/-- Stream bit `k` of a byte sequence: bit `7 − (k mod 8)` of byte `⌊k/8⌋` (R12). -/
def streamBit (r : List Byte) (k : Nat) : Bool := (r.getD (k / 8) 0).getLsbD (7 - k % 8)

/-- `sbits(r, k, w)` (R12). -/
def sbits (r : List Byte) (k w : Nat) : Nat := bitsToNat (fun j => streamBit r (k + j)) w

/-- A byte sequence as one big-endian unsigned number (R64). -/
def bytesToNat (r : List Byte) : Nat := r.foldl (fun acc b => acc * 256 + b.toNat) 0

/-- `v` as `n` bytes, the most significant first (R65): byte `k` is `v[8(n−k)−1 : 8(n−k−1)]`. -/
def natToBytes (n v : Nat) : List Byte := (List.range n).map fun k => BitVec.ofNat 8 (v / 256 ^ (n - 1 - k))

/-- `bits_needed(x)` (R131). -/
def bitsNeeded (x : Elem) : Nat := if x = 0 then 0 else x.toNat.log2 + 1

/-- `maxbits(s)` (R133). -/
def maxBits (s : List Elem) : Nat := s.foldl (fun m x => max m (bitsNeeded x)) 0

/-- `round_up(c, b)`: the smallest width of `Wset(c)` that is at least `b` (R132). -/
def roundUp (c : Codec) (b : Nat) : Nat := ((wset c).find? fun w => b ≤ w).getD (elemWidth c)

/-- `runwidth(c, s)` (R133). -/
def runWidth (c : Codec) (s : List Elem) : Nat := roundUp c (maxBits s)

/-- Stream bit `k` of the run of `s` at width `w`: bit `w − 1 − j` of `s[i]` for `k = i·w + j`, and zero in the padding (R134). -/
def packBit (s : List Elem) (w k : Nat) : Bool :=
  if k < s.length * w then (s.getD (k / w) 0).getLsbD (w - 1 - k % w) else false

/-- `PackBits(s, w)` (R134), in the rule's second form: the `RB(n, w)` bytes whose stream bits are `packBit`. -/
def packBits (s : List Elem) (w : Nat) : List Byte :=
  (List.range (runBytes s.length w)).map fun m => BitVec.ofNat 8 (bitsToNat (fun j => packBit s w (8 * m + j)) 8)

/-- `Field(r, w, i)` (R135). -/
def field (r : List Byte) (w i : Nat) : Nat := sbits r (i * w) w

/-- `UnpackBits(r, w, n)` (R135), each field zero-extended to a cell. -/
def unpackBits (r : List Byte) (w n : Nat) : List Elem := (List.range n).map fun i => BitVec.ofNat 64 (field r w i)

/-- The source's bit writer (R39, R139): a 32-bit accumulator filled from its most significant bit, its fill count, and
the bytes flushed so far. -/
structure Writer where
  acc : BitVec 32
  fill : Nat
  out : List Byte
deriving DecidableEq, Repr

/-- The writer at the start of a run. -/
def writerStart : Writer := { acc := 0, fill := 0, out := [] }

/-- One bit enters the accumulator; the 32nd flushes it through `put_u32` (R139). -/
def pushBit (t : Writer) (x : Bool) : Writer :=
  let acc := t.acc ||| ((BitVec.ofBool x).setWidth 32 <<< (31 - t.fill))
  if t.fill + 1 = 32 then { acc := 0, fill := 0, out := t.out ++ natToBytes 4 acc.toNat }
  else { acc := acc, fill := t.fill + 1, out := t.out }

/-- The low `w` bits of `x` enter, most significant first (R139). -/
def pushElem (w : Nat) (t : Writer) (x : Elem) : Writer :=
  (List.range w).foldl (fun t j => pushBit t (x.getLsbD (w - 1 - j))) t

/-- The writer after a whole run, before its residual bits are written. -/
def writerRun (s : List Elem) (w : Nat) : Writer := s.foldl (pushElem w) writerStart

/-- The source's `write_bits` mechanism: the flushed words, then the residual bits "left-aligned in a final partial u32
and written byte-by-byte" (R139). It writes the same bytes as `packBits`. -/
def writeBits (s : List Elem) (w : Nat) : List Byte :=
  (writerRun s w).out ++ (natToBytes 4 (writerRun s w).acc.toNat).take (cdiv (writerRun s w).fill 8)

end Sys2Proof.Machine
end

