-- ==== Sys2Proof/Machine/Memory.lean ====
section
/-! DEFINITION. The three memories (20_memory.md). Every access of the engine and of the host goes through `readCell` and
`writeCells`; the engine's writes are contiguous runs of cells, so one operation writes them. -/

namespace Sys2Proof.Machine

/-- What cell `a` holds; a cell that is not listed reads as zero (R71, log entry 2). -/
def readCell {w : Nat} (m : Mem w) (a : Nat) : BitVec w :=
  match m with
  | [] => 0#w
  | x :: rest => if x.1 = a then x.2 else readCell rest a

/-- The listed form of the cells `a`, `a+1`, … that hold `vs`: a zero is not listed. -/
def cellsOf {w : Nat} (a : Nat) (vs : List (BitVec w)) : Mem w :=
  match vs with
  | [] => []
  | v :: rest => if v = 0#w then cellsOf (a + 1) rest else (a, v) :: cellsOf (a + 1) rest

/-- Writes `vs` to the cells from `a` up; every other cell keeps its value (R70, R74). -/
def writeCells {w : Nat} (m : Mem w) (a : Nat) (vs : List (BitVec w)) : Mem w :=
  m.filter (fun x => x.1 < a) ++ (cellsOf a vs ++ m.filter (fun x => a + vs.length ≤ x.1))

/-- The `n` cells from `a` up. -/
def readCells {w : Nat} (m : Mem w) (a n : Nat) : List (BitVec w) := (List.range n).map fun k => readCell m (a + k)

/-- The canonical form of a memory: indices strictly rising, no listed zero. -/
abbrev wfMem {w : Nat} (m : Mem w) : Prop := m.Pairwise (fun x y => x.1 < y.1) ∧ ∀ x ∈ m, x.2 ≠ 0#w

/-- `MemRead(a, n)` (R64): big-endian. -/
def memRead (m : Mem 8) (a n : Nat) : Nat := bytesToNat (readCells m a n)

/-- `MemWrite(a, n, v)` (R65): big-endian. -/
def memWrite (m : Mem 8) (a n v : Nat) : Mem 8 := writeCells m a (natToBytes n v)

/-- `ERead(c, i) = E[i][ELEM_W(c)−1:0]`, zero-extended (R13, R31). -/
def readElem (c : Codec) (m : Mem 64) (i : Nat) : Elem :=
  match c with
  | .c32 => (readCell m i).setWidth 32 |>.setWidth 64
  | .c64 => readCell m i

/-- The `n` elements of family `c` from cell `i` up. -/
def readElems (c : Codec) (m : Mem 64) (i n : Nat) : List Elem := (List.range n).map fun k => readElem c m (i + k)

/-- The `n` raw or tail elements of family `c` that stand big-endian at byte `b` (R103, R106), as cells. -/
def rawElems (c : Codec) (m : Mem 8) (b n : Nat) : List Elem :=
  (List.range n).map fun k => BitVec.ofNat 64 (memRead m (b + k * elemBytes c) (elemBytes c))

/-- Elements as `EB(c)` bytes each, big-endian (R103). -/
def rawBytes (c : Codec) (s : List Elem) : List Byte := s.flatMap fun x => natToBytes (elemBytes c) x.toNat

/-- The free values of `n` cells of E-space from index `a`, batch `t` (log entry 4). -/
def freeElems (t a n : Nat) : List Elem := (List.range n).map fun k => Config.freeElem t (a + k)

/-- The free values of `n` cells of B-space from index `a`, batch `t`. -/
def freeBytes (t a n : Nat) : List Byte := (List.range n).map fun k => Config.freeByte t (a + k)

/-- The free values of `n` entries of P-space from index `a`, batch `t`. -/
def freeEntries (t a n : Nat) : List Entry := (List.range n).map fun k => Config.freeEntry t (a + k)

end Sys2Proof.Machine
end

