-- ==== Sys2Proof/Machine/Flags.lean ====
section
/-! DEFINITION. The flags: `STATUS` (10_state.md R30) and the error codes (60_exceptions.md R281). They are set by START and
COMPLETE only; no command computes or reads any other flag (R30, R137). -/

namespace Sys2Proof.Machine

/-- The code of an error in `STATUS.ERR` (R281). -/
def errCode (e : Err) : BitVec 4 :=
  match e with
  | .ok => 0
  | .illcmd => 1
  | .arg => 2
  | .part => 3
  | .dstfull => 4
  | .srcshort => 5
  | .magic => 6
  | .ctrl => 7
  | .frame => 8

/-- `STATUS.BUSY`: 1 from START to COMPLETE (R30, R20). -/
def busy (s : State) : Bool :=
  match s.phase with
  | .idle => false
  | .command => true
  | .control => true

/-- The `STATUS` register: `BUSY` bit 0, `DONE` bit 1, `ERR` bits 7:4, the rest zero (R30). -/
def statusWord (s : State) : BitVec 32 :=
  0#24 ++ errCode s.err ++ 0#2 ++ BitVec.ofBool s.done ++ BitVec.ofBool (busy s)

/-- The errors after which no cell of any space has changed whichever command raised them: R290 case (a). -/
def leavesMemory (e : Err) : Bool :=
  match e with
  | .illcmd | .arg | .part => true
  | .ok | .dstfull | .srcshort | .magic | .ctrl | .frame => false

end Sys2Proof.Machine
end

