-- ==== Sys2Proof/Machine/Operands.lean ====
section
/-! DEFINITION. The operands of a command: the latched registers as unbounded naturals (10_state.md R38, 00_scope.md R10),
the windows and their checks (20_memory.md R62, 45_control.md R261), and the destination of each command
(60_exceptions.md R291). -/

namespace Sys2Proof.Machine

/-- The latched `EPTR`. -/
def opEptr (s : State) : Nat := s.latch.eptr.toNat

/-- The latched `ELIM`. -/
def opElim (s : State) : Nat := s.latch.elim.toNat

/-- The latched `BPTR`. -/
def opBptr (s : State) : Nat := s.latch.bptr.toNat

/-- The latched `BLIM`. -/
def opBlim (s : State) : Nat := s.latch.blim.toNat

/-- The latched `N`. -/
def opN (s : State) : Nat := s.latch.n.toNat

/-- The latched `W`. -/
def opW (s : State) : Nat := s.latch.w.toNat

/-- The latched `PCNT`. -/
def opPcnt (s : State) : Nat := s.latch.pcnt.toNat

/-- `EPTR ≤ ELIM ≤ EMEM_SIZE` (R261). -/
abbrev elemWindowOk (s : State) : Prop := opEptr s ≤ opElim s ∧ opElim s ≤ s.ememSize.toNat

/-- `BPTR ≤ BLIM ≤ BMEM_SIZE` (R261). -/
abbrev byteWindowOk (s : State) : Prop := opBptr s ≤ opBlim s ∧ opBlim s ≤ s.bmemSize.toNat

/-- The source elements of an encoding command: the `N` elements from `EPTR` (R138, R190, R210). -/
def sourceElems (c : Codec) (s : State) : List Elem := readElems c s.e (opEptr s) (opN s)

/-- The first `require` that fails, in order, or `ok` (R14, R292). -/
def firstError (checks : List (Bool × Err)) : Err :=
  match checks with
  | [] => .ok
  | (holds, e) :: rest => if holds then firstError rest else e

/-- Where a command may write, for the effect of an error (R290, R291). -/
inductive Dest where
  /-- PACK, UNPACK, PARTITION, BOUND and illegal words: no error of theirs changes any cell (R290 case a) -/
  | unchanged
  /-- ENCBLK, ENCFRM: `B[BPTR … BLIM − 1]`, and P-space with `PCNT` where the command could write them -/
  | bytes (parts : Bool)
  /-- DECBLK, DECFRM: `E[EPTR … min(EPTR + N, ELIM) − 1]` -/
  | elems
deriving DecidableEq, Repr

/-- The first cell past the element destination window: `min(EPTR + N, ELIM)` (R291). -/
def elemDestEnd (s : State) : Nat := min (opEptr s + opN s) (opElim s)

end Sys2Proof.Machine
end

