-- ==== Sys2Proof/Machine/Ops.lean ====
section
/-! DEFINITION. The operations every command shares: START (45_control.md R260), COMPLETE (R262), the drawing of free values,
and error entry (60_exceptions.md R290). There is no return from an error: the next START clears it (R295). -/

namespace Sys2Proof.Machine

/-- What a meaning answers. -/
abbrev Result := Host.Outcome State Fault Refusal

/-- The cursors that START loads (R41: they "start from the latched operands"; R268): the bytes from `BPTR` to `BLIM`, the
elements from `EPTR` to `ELIM`, no partition yet, all `N` elements to come (log entry 18). -/
def startCursor (v : CmdWord) (s : State) : Cursor :=
  { codec := codecField v
    blk := s.bptr.toNat
    slimit := s.blim.toNat
    dlimit := s.elim.toNat
    byte := s.bptr.toNat
    elem := s.eptr.toNat
    idx := 0
    parts := 0
    rem := s.n.toNat }

/-- START (R260): `CMD` takes the written value, the operands are latched (R38), `BUSY = 1`, `DONE = 0`, `ERR = 0`;
`RESULT` keeps its value. The hidden state is reloaded with the latches, so that nothing of an earlier command stays
(R268): the cursors from the operands, the accumulator and the working arrays empty. -/
def start (v : CmdWord) (s : State) : State :=
  { s with
    phase := .command
    cmd := v
    done := false
    err := .ok
    latch :=
      { cmd := v, eptr := s.eptr, elim := s.elim, bptr := s.bptr, blim := s.blim, n := s.n, w := s.w, pcnt := s.pcnt }
    cur := startCursor v s
    work := Work.zero }

/-- COMPLETE (R262): phase IDLE, `DONE = 1`, `ERR` and `RESULT` as given. -/
def finish (e : Err) (r : BitVec 64) (s : State) : State :=
  { s with phase := .idle, done := true, err := e, result := r }

/-- COMPLETE of a command that succeeded with the value `r` (R262). -/
def complete (r : Nat) (s : State) : State := finish .ok (BitVec.ofNat 64 r) s

/-- The `n` cells of E-space from `a` become unspecified (U1, U2). -/
def havocElems (a n : Nat) (s : State) : State :=
  { s with e := writeCells s.e a (freeElems s.fresh a n), fresh := s.fresh + 1 }

/-- The `n` cells of B-space from `a` become unspecified (U2). -/
def havocBytes (a n : Nat) (s : State) : State :=
  { s with b := writeCells s.b a (freeBytes s.fresh a n), fresh := s.fresh + 1 }

/-- P-space and `PCNT` become unspecified (U8). -/
def havocParts (s : State) : State :=
  { s with
    p := writeCells s.p 0 (freeEntries s.fresh 0 pmemSize)
    pcnt := Config.freePcnt s.fresh
    fresh := s.fresh + 1 }

/-- The destination of a command becomes unspecified (R290 case b, R291). -/
def havocDest (d : Dest) (s : State) : State :=
  match d with
  | .unchanged => s
  | .bytes false => havocBytes (opBptr s) (opBlim s - opBptr s) s
  | .bytes true => havocParts (havocBytes (opBptr s) (opBlim s - opBptr s) s)
  | .elems => havocElems (opEptr s) (elemDestEnd s - opEptr s) s

/-- Error entry (R290), the one exception operation of this hardware: `ERR` takes the code, `RESULT` becomes 0,
`DONE = 1`, `BUSY = 0`. After `E_ILLCMD`, `E_ARG` or `E_PART`, and where the command's checks precede its writes, no cell
and not `PCNT` has changed (case a); after any other error the destination is unspecified (case b). -/
def raise (d : Dest) (e : Err) (s : State) : State :=
  finish e 0 (if leavesMemory e then s else havocDest d s)

/-- What an illegal command word does (R265, R282). -/
def illegalCommand (s : State) : State := raise .unchanged .illcmd s

end Sys2Proof.Machine
end

