-- ==== Sys2Proof/Machine/Pack.lean ====
section
/-! DEFINITION. PACK (40_pack.md R138 to R140). -/

namespace Sys2Proof.Machine

/-- What a run leaves in the packer's accumulator (R39): nothing where the writer's special cases apply (`w = 0` writes
nothing, `w = elem_width` copies, R139), else the residue of the last partial word (log entry 18). -/
def workAfterRun (c : Codec) (s : List Elem) (w : Nat) (k : Work) : Work :=
  if w = 0 ∨ w = elemWidth c then k
  else { k with acc := (writerRun s w).acc, fill := (writerRun s w).fill }

/-- The checks of PACK in order (R138, after R261). -/
def packError (c : Codec) (s : State) : Err :=
  firstError
    [ (decide (elemWindowOk s), .arg),
      (decide (byteWindowOk s), .arg),
      (decide (1 ≤ opN s ∧ opN s ≤ maxPartition), .arg),
      (decide (opW s ≤ elemWidth c), .arg),
      (decide (opEptr s + opN s ≤ opElim s), .arg),
      (decide (opBptr s + runBytes (opN s) (opW s) ≤ opBlim s), .dstfull) ]

/-- PACK (R138). -/
def execPack (c : Codec) (s : State) : Result :=
  if packError c s = .ok then
    let run := sourceElems c s
    .next (complete (runBytes (opN s) (opW s))
      { s with
        b := writeCells s.b (opBptr s) (packBits run (opW s))
        work := workAfterRun c run (opW s) s.work })
  else .next (raise .unchanged (packError c s) s)

end Sys2Proof.Machine
end

