-- ==== Sys2Proof/Machine/Partition.lean ====
section
/-! DEFINITION. The partitioner (42_partition.md R190 to R198). -/

namespace Sys2Proof.Machine

/-- The elements `s[a .. b)` (R15). -/
def slice (s : List Elem) (a b : Nat) : List Elem := (s.drop a).take (b - a)

/-- The dynamic program's arrays, `cost[0..j]` and `refs[0..j]` after step `j` (R40, R193); `refs[0]` is never read. -/
structure Plan where
  cost : List Nat
  refs : List Nat
deriving DecidableEq, Repr

/-- The arrays before step 1: `cost[0] = 0` (R193). -/
def planStart : Plan := { cost := [0], refs := [0] }

/-- Step `j < 128`: only the singleton, at `⌈bits_needed/8⌉` bytes without `round_up` (R195). -/
def seedStep (s : List Elem) (t : Plan) (j : Nat) : Plan :=
  { cost := t.cost ++ [t.cost.getD (j - 1) 0 + cdiv (bitsNeeded (s.getD (j - 1) 0)) 8]
    refs := t.refs ++ [j - 1] }

/-- `cand` of R193: the cost of ending `s[0 .. j)` with a partition of length `l`. -/
def candidate (c : Codec) (s : List Elem) (cost : List Nat) (j l : Nat) : Nat :=
  cost.getD (j - l) 0 + cdiv (l * runWidth c (slice s (j - l) j)) 8

/-- One length tried at step `j`: it replaces the best so far when it costs no more (R194); `none` is `+∞` (D29). -/
def tryLength (c : Codec) (s : List Elem) (cost : List Nat) (j : Nat) (best : Option (Nat × Nat)) (l : Nat) :
    Option (Nat × Nat) :=
  if l ≤ j then
    match best with
    | none => some (candidate c s cost j l, j - l)
    | some x => if candidate c s cost j l ≤ x.1 then some (candidate c s cost j l, j - l) else some x
  else best

/-- Step `j ≥ 128`: all lengths of `Pset` in rising order (R193). -/
def searchStep (c : Codec) (s : List Elem) (t : Plan) (j : Nat) : Plan :=
  let best := (pset.foldl (tryLength c s t.cost j) none).getD (0, 0)
  { cost := t.cost ++ [best.1], refs := t.refs ++ [best.2] }

/-- Step `j` of the dynamic program (R193). -/
def planStep (c : Codec) (s : List Elem) (t : Plan) (j : Nat) : Plan :=
  if j < maxPartition then seedStep s t j else searchStep c s t j

/-- The dynamic program over `j = 1 … n` (R193). -/
def plan (c : Codec) (s : List Elem) : Plan :=
  (List.range s.length).foldl (fun t k => planStep c s t (k + 1)) planStart

/-- The backtrack (R196): from `j` back to 0 through `refs`, the boundaries ending up in rising order. At most `fuel`
steps, and `refs[j] < j` makes `fuel = n` enough. -/
def backtrack (refs : List Nat) (fuel j : Nat) (parts : List Nat) : List Nat :=
  match fuel with
  | 0 => parts
  | k + 1 => if j = 0 then parts else backtrack refs k (refs.getD j 0) (refs.getD j 0 :: parts)

/-- `ComputePartition(c, s)` (R193): the table `parts[0..p]`. -/
def computePartition (c : Codec) (s : List Elem) : List Nat :=
  backtrack (plan c s).refs s.length s.length [s.length]

/-- `ValidParts(t, p, m)` (R198) of a table with `p = |t| − 1`. -/
def validParts (t : List Nat) (m : Nat) : Bool :=
  decide (2 ≤ t.length ∧ t.length ≤ m + 1) && t.head? == some 0 && t.getLast? == some m &&
    (List.zip t t.tail).all fun x => decide (x.1 < x.2 ∧ x.2 - x.1 ∈ pset)

/-- The arrays the partitioner leaves behind (R40, log entry 18). -/
def workAfterPlan (c : Codec) (s : List Elem) (k : Work) : Work :=
  { k with cost := (plan c s).cost, refs := (plan c s).refs }

/-- The engine stores a computed table: `P[0 … p]` and `PCNT = p`; the entries above `p` are unspecified (R190, R212). -/
def storeParts (parts : List Nat) (s : State) : State :=
  { s with
    p := writeCells s.p 0
      (parts.map (BitVec.ofNat 17) ++ freeEntries s.fresh parts.length (pmemSize - parts.length))
    pcnt := BitVec.ofNat 17 (parts.length - 1)
    fresh := s.fresh + 1 }

/-- The checks of PARTITION in order (R190, after R261; the byte window is not checked). -/
def partitionError (s : State) : Err :=
  firstError
    [ (decide (elemWindowOk s), .arg),
      (decide (1 ≤ opN s ∧ opN s ≤ blockMax - overrun), .arg),
      (decide (opEptr s + opN s ≤ opElim s), .arg) ]

/-- PARTITION (R190). -/
def execPartition (c : Codec) (s : State) : Result :=
  if partitionError s = .ok then
    let elems := sourceElems c s
    let parts := computePartition c elems
    .next (complete (parts.length - 1) { storeParts parts s with work := workAfterPlan c elems s.work })
  else .next (raise .unchanged (partitionError s) s)

end Sys2Proof.Machine
end

