-- ==== Sys2Proof/Machine/Unpack.lean ====
section
/-! DEFINITION. UNPACK and the common contract of the sixteen unpackers (41_unpack.md R150 to R154). -/

namespace Sys2Proof.Machine

/-- The first cell past those an unpacker may clobber: `min(e + GE(w)·⌈n/GE(w)⌉, elim)` (R151, R152). -/
def specEnd (w n e elim : Nat) : Nat := min (e + groupElems w * cdiv n (groupElems w)) elim

/-- `Unpack(c, w, n, b, e, elim)` (R151): the `n` fields of the run at byte `b` go to the cells from `e`, and the
speculative cells up to `specEnd` become unspecified (R153). The family does not matter: a field of a width of `Wset(c)`
fits the element and is zero-extended to the cell (R31). -/
def unpackCells (w n b e elim : Nat) (s : State) : State :=
  { s with
    e := writeCells s.e e
      (unpackBits (readCells s.b b (runBytes n w)) w n ++ freeElems s.fresh (e + n) (specEnd w n e elim - (e + n)))
    fresh := s.fresh + 1 }

/-- The checks of UNPACK in order (R150, after R261). -/
def unpackError (c : Codec) (s : State) : Err :=
  firstError
    [ (decide (elemWindowOk s), .arg),
      (decide (byteWindowOk s), .arg),
      (decide (opW s ∈ wset c), .arg),
      (decide (1 ≤ opN s ∧ opN s ≤ maxPartition), .arg),
      (decide (opBptr s + runBytes (opN s) (opW s) ≤ opBlim s), .srcshort),
      (decide (opEptr s + opN s ≤ opElim s), .dstfull) ]

/-- UNPACK (R150). -/
def execUnpack (c : Codec) (s : State) : Result :=
  if unpackError c s = .ok then
    .next (complete (runBytes (opN s) (opW s)) (unpackCells (opW s) (opN s) (opBptr s) (opEptr s) (opElim s) s))
  else .next (raise .unchanged (unpackError c s) s)

end Sys2Proof.Machine
end

