-- ==== Sys2Proof/Machine/Block.lean ====
section
/-! DEFINITION. The block encoder and decoder (43_block.md R210 to R223). -/

namespace Sys2Proof.Machine

/-- The partitions of a block: the elements `s[parts[i] .. parts[i+1])` (R191). -/
def segments (s : List Elem) (parts : List Nat) : List (List Elem) :=
  List.zipWith (fun a b => slice s a b) parts parts.tail

/-- The control byte of a partition: `(CTRLP(l) << 4) | CTRLW(c, w)` with the width recomputed (R98, R214). -/
def segmentCtrl (c : Codec) (seg : List Elem) : Byte := ctrlByte (ctrlP seg.length) (ctrlW c (runWidth c seg))

/-- The packed run of a partition (R213). -/
def segmentRun (c : Codec) (seg : List Elem) : List Byte := packBits seg (runWidth c seg)

/-- `D`: the bytes of all packed runs (R213). -/
def dataBytes (c : Codec) (segs : List (List Elem)) : Nat :=
  (segs.map fun seg => runBytes seg.length (runWidth c seg)).sum

/-- `size = 8 + p + D + 16·EB(c)` (R213). -/
def framedSize (c : Codec) (segs : List (List Elem)) : Nat := 8 + segs.length + dataBytes c segs + 16 * elemBytes c

/-- The bytes of a framed block (R101, R213): header, control bytes, packed runs, tail. -/
def framedBytes (c : Codec) (s : List Elem) (parts : List Nat) : List Byte :=
  let segs := segments s parts
  natToBytes 4 (framedSize c segs) ++ natToBytes 4 (8 + segs.length) ++ segs.map (segmentCtrl c) ++
    segs.flatMap (segmentRun c) ++ rawBytes c (s.drop (s.length - overrun))

/-- What encoding one block gives: its bytes, its size, the table it was cut by where the block is framed, and what the
packer and the partitioner leave behind. -/
structure Encoded where
  bytes : List Byte
  size : Nat
  parts : Option (List Nat)
  work : Work
deriving DecidableEq, Repr

/-- `EncodeRaw` (R211). -/
def encodeRaw (c : Codec) (s : List Elem) (k : Work) : Encoded :=
  { bytes := rawBytes c s, size := s.length * elemBytes c, parts := none, work := k }

/-- `EncodeFramed` with the table `parts` (R213). -/
def encodeFramed (c : Codec) (s : List Elem) (parts : List Nat) (k : Work) : Encoded :=
  { bytes := framedBytes c s parts
    size := framedSize c (segments s parts)
    parts := some parts
    work := (segments s parts).foldl (fun k seg => workAfterRun c seg (runWidth c seg) k) k }

/-- One block with the engine's own partition (R212 with `PEXT = 0`, R241). -/
def encodeBlock (c : Codec) (s : List Elem) (k : Work) : Encoded :=
  if s.length < rawThreshold then encodeRaw c s k
  else
    let front := s.take (s.length - overrun)
    encodeFramed c s (computePartition c front) (workAfterPlan c front k)

/-- The host's table `P[0 … PCNT]` (R212 with `PEXT = 1`). -/
def hostParts (s : State) : List Nat := (readCells s.p 0 (opPcnt s + 1)).map BitVec.toNat

/-- The block ENCBLK encodes (R210 to R213). -/
def encblkBlock (c : Codec) (pext : Bool) (s : State) : Encoded :=
  let elems := sourceElems c s
  if pext = true ∧ rawThreshold ≤ opN s then encodeFramed c elems (hostParts s) s.work
  else encodeBlock c elems s.work

/-- The checks of ENCBLK in order (R210 to R213, after R261). -/
def encblkError (c : Codec) (pext : Bool) (s : State) : Err :=
  firstError
    [ (decide (elemWindowOk s), .arg),
      (decide (byteWindowOk s), .arg),
      (decide (1 ≤ opN s ∧ opN s ≤ blockMax), .arg),
      (decide (opEptr s + opN s ≤ opElim s), .arg),
      (!pext || decide (opN s < rawThreshold) || validParts (hostParts s) (opN s - overrun), .part),
      (decide (opBptr s + (encblkBlock c pext s).size ≤ opBlim s), .dstfull) ]

/-- The computed table of a framed block goes to P-space and `PCNT`; a host-supplied table and a raw block leave them (R211, R212). -/
def storeBlockParts (pext : Bool) (parts : Option (List Nat)) (s : State) : State :=
  match pext, parts with
  | false, some t => storeParts t s
  | _, _ => s

/-- ENCBLK (R210). -/
def execEncblk (c : Codec) (pext : Bool) (s : State) : Result :=
  if encblkError c pext s = .ok then
    let blk := encblkBlock c pext s
    .next (complete blk.size
      { storeBlockParts pext blk.parts s with
        b := writeCells s.b (opBptr s) blk.bytes
        work := blk.work })
  else .next (raise (.bytes !pext) (encblkError c pext s) s)

/-- `DecodeRaw(c, n, b, e)` (R218), after its check. -/
def decodeRaw (c : Codec) (n b e : Nat) (s : State) : State := { s with e := writeCells s.e e (rawElems c s.b b n) }

/-- The checks of a framed block's header at byte `a` (R219, R221). -/
def headerError (c : Codec) (a : Nat) (s : State) : Err :=
  firstError
    [ (decide (a + 8 ≤ opBlim s), .srcshort),
      (decide (8 ≤ memRead s.b (a + 4) 4 ∧ memRead s.b (a + 4) 4 + 16 * elemBytes c ≤ memRead s.b a 4), .frame),
      (decide (a + memRead s.b a 4 ≤ opBlim s), .srcshort) ]

/-- The cursors at the start of a framed block of `n` elements at byte `a`, destination `e0`, `rem` elements of the stream
to follow (R219, R106). -/
def blockCursor (c : Codec) (n a e0 rem : Nat) (s : State) : Cursor :=
  { codec := c
    blk := a
    slimit := a + memRead s.b a 4
    dlimit := e0 + n
    byte := a + memRead s.b (a + 4) 4
    elem := e0
    idx := 0
    parts := memRead s.b (a + 4) 4 - 8
    rem := rem }

/-- The next block of a decode at byte `a` and cell `e0`, with `rem` elements of the stream to come (R217, R242): none left,
COMPLETE with the bytes read; fewer than 144, a raw block, which is always the last; else a framed block of at most 65536,
whose control bytes the engine fetches from now on (log entry 5). -/
def beginBlock (c : Codec) (a e0 rem : Nat) (s : State) : State :=
  if rem = 0 then complete (a - opBptr s) s
  else if rem < rawThreshold then
    if a + rem * elemBytes c ≤ opBlim s then
      complete (a + rem * elemBytes c - opBptr s) (decodeRaw c rem a e0 s)
    else raise .elems .srcshort s
  else if headerError c a s = .ok then
    { s with phase := .control, cur := blockCursor c (min rem blockMax) a e0 (rem - min rem blockMax) s }
  else raise .elems (headerError c a s) s

/-- The checks after the last control byte (R219, R221). -/
def tailError (s : State) : Err :=
  firstError
    [ (decide (s.cur.elem + overrun = s.cur.dlimit), .frame),
      (decide (s.cur.byte + 16 * elemBytes s.cur.codec = s.cur.slimit), .frame) ]

/-- The end of a framed block (R219): the tail, then the next block of the stream, or COMPLETE. -/
def finishBlock (s : State) : State :=
  if tailError s = .ok then
    beginBlock s.cur.codec s.cur.slimit s.cur.dlimit s.cur.rem
      (decodeRaw s.cur.codec overrun s.cur.byte s.cur.elem s)
  else raise .elems (tailError s) s

/-- The checks of DECBLK in order (R217, after R261); those of its block come after them. -/
def decblkError (s : State) : Err :=
  firstError
    [ (decide (elemWindowOk s), .arg),
      (decide (byteWindowOk s), .arg),
      (decide (1 ≤ opN s ∧ opN s ≤ blockMax), .arg),
      (decide (opEptr s + opN s ≤ opElim s), .dstfull) ]

/-- DECBLK (R217). -/
def execDecblk (c : Codec) (s : State) : Result :=
  if decblkError s = .ok then .next (beginBlock c (opBptr s) (opEptr s) (opN s) s)
  else .next (raise .elems (decblkError s) s)

end Sys2Proof.Machine
end

