-- ==== Sys2Proof/Machine/Control.lean ====
section
/-! DEFINITION. The control bytes of a framed block as instructions (43_block.md R219, 41_unpack.md R155 to R170): each is one
turn of the decoder's loop, on the cursors of the running decode. -/

namespace Sys2Proof.Machine

/-- The checks of one control byte in order (R219, R292): the width has an unpacker in the family, the run ends below
`slimit`, the elements end below `dlimit`. -/
def ctrlError (w : Nat) (pidx : BitVec 4) (s : State) : Err :=
  firstError
    [ (decide (w ∈ wset s.cur.codec), .ctrl),
      (decide (s.cur.byte + runBytes (partitionLength pidx) w ≤ s.cur.slimit), .srcshort),
      (decide (s.cur.elem + partitionLength pidx ≤ s.cur.dlimit), .dstfull) ]

/-- The cursors past a run of `l` elements of width `w` (R219). -/
def nextPartition (w l : Nat) (t : Cursor) : Cursor :=
  { t with byte := t.byte + runBytes l w, elem := t.elem + l, idx := t.idx + 1 }

/-- One turn of the decoder's loop with the unpacker of width `w` (R219). -/
def unpackPartition (w : Nat) (pidx : BitVec 4) (s : State) : Result :=
  if ctrlError w pidx s = .ok then
    .next { unpackCells w (partitionLength pidx) s.cur.byte s.cur.elem s.cur.dlimit s with
      cur := nextPartition w (partitionLength pidx) s.cur }
  else .next (raise .elems (ctrlError w pidx s) s)

/-- UNPACK0 (R155). -/
def execUnpack0 (pidx : BitVec 4) (s : State) : Result := unpackPartition 0 pidx s

/-- UNPACK1 (R156). -/
def execUnpack1 (pidx : BitVec 4) (s : State) : Result := unpackPartition 1 pidx s

/-- UNPACK2 (R157). -/
def execUnpack2 (pidx : BitVec 4) (s : State) : Result := unpackPartition 2 pidx s

/-- UNPACK3 (R158). -/
def execUnpack3 (pidx : BitVec 4) (s : State) : Result := unpackPartition 3 pidx s

/-- UNPACK4 (R159). -/
def execUnpack4 (pidx : BitVec 4) (s : State) : Result := unpackPartition 4 pidx s

/-- UNPACK5 (R160). -/
def execUnpack5 (pidx : BitVec 4) (s : State) : Result := unpackPartition 5 pidx s

/-- UNPACK6 (R161). -/
def execUnpack6 (pidx : BitVec 4) (s : State) : Result := unpackPartition 6 pidx s

/-- UNPACK7 (R162). -/
def execUnpack7 (pidx : BitVec 4) (s : State) : Result := unpackPartition 7 pidx s

/-- UNPACK8 (R163). -/
def execUnpack8 (pidx : BitVec 4) (s : State) : Result := unpackPartition 8 pidx s

/-- UNPACK9 (R164). -/
def execUnpack9 (pidx : BitVec 4) (s : State) : Result := unpackPartition 9 pidx s

/-- UNPACK10 (R165). -/
def execUnpack10 (pidx : BitVec 4) (s : State) : Result := unpackPartition 10 pidx s

/-- UNPACK11 (R166). -/
def execUnpack11 (pidx : BitVec 4) (s : State) : Result := unpackPartition 11 pidx s

/-- UNPACK12 (R167). -/
def execUnpack12 (pidx : BitVec 4) (s : State) : Result := unpackPartition 12 pidx s

/-- UNPACK16 (R168). -/
def execUnpack16 (pidx : BitVec 4) (s : State) : Result := unpackPartition 16 pidx s

/-- UNPACK32 (R169). -/
def execUnpack32 (pidx : BitVec 4) (s : State) : Result := unpackPartition 32 pidx s

/-- UNPACK64 (R170). In codec-32 the nibble has no unpacker, `E_CTRL`. -/
def execUnpack64 (pidx : BitVec 4) (s : State) : Result := unpackPartition 64 pidx s

/-- The control byte without an unpacker: `E_CTRL` (R97, R288). -/
def execCtrlInvalid (_pidx : BitVec 4) (s : State) : Result := .next (raise .elems .ctrl s)

end Sys2Proof.Machine
end

