-- ==== Sys2Proof/Machine/Frame.lean ====
section
/-! DEFINITION. The frame driver and the bound (44_frame.md R240 to R245). -/

namespace Sys2Proof.Machine

/-- The blocks of a stream, `full` of 65536 elements and then a remainder (R240, R241), from cell `e` on, at byte `b`:
their bytes, whether one was framed, and what packer and partitioner leave; none where a block does not fit below `lim`. -/
def encodeBlocks (c : Codec) (m : Mem 64) (lim full e b rem : Nat) (k : Work) : Option (List Byte × Bool × Work) :=
  match full with
  | 0 =>
    if rem = 0 then some ([], false, k)
    else
      let blk := encodeBlock c (readElems c m e rem) k
      if b + blk.size ≤ lim then some (blk.bytes, blk.parts.isSome, blk.work) else none
  | full + 1 =>
    let blk := encodeBlock c (readElems c m e blockMax) k
    if b + blk.size ≤ lim then
      match encodeBlocks c m lim full (e + blockMax) (b + blk.size) (rem - blockMax) blk.work with
      | some (bytes, _, k') => some (blk.bytes ++ bytes, true, k')
      | none => none
    else none

/-- The blocks of ENCFRM, after the magic (R240). -/
def streamBlocks (c : Codec) (s : State) : Option (List Byte × Bool × Work) :=
  encodeBlocks c s.e (opBlim s) (opN s / blockMax) (opEptr s) (opBptr s + 8) (opN s) s.work

/-- The checks of ENCFRM in order (R240, after R261); the last stands for those of its blocks. -/
def encfrmError (c : Codec) (s : State) : Err :=
  firstError
    [ (decide (elemWindowOk s), .arg),
      (decide (byteWindowOk s), .arg),
      (decide (opEptr s + opN s ≤ opElim s), .arg),
      (decide (opBptr s + 8 ≤ opBlim s), .dstfull),
      ((streamBlocks c s).isSome, .dstfull) ]

/-- The stream ENCFRM writes: magic, then blocks (R105, R240); with whether a block was framed and the work left. -/
def streamOf (c : Codec) (s : State) : List Byte × Bool × Work :=
  let t := (streamBlocks c s).getD ([], false, s.work)
  (natToBytes 8 (magicNumber c) ++ t.1, t.2)

/-- ENCFRM (R240): P-space and `PCNT` become unspecified when a framed block was encoded. -/
def execEncfrm (c : Codec) (s : State) : Result :=
  if encfrmError c s = .ok then
    let t := streamOf c s
    .next (complete t.1.length
      { (if t.2.1 then havocParts s else s) with
        b := writeCells s.b (opBptr s) t.1
        work := t.2.2 })
  else .next (raise (.bytes true) (encfrmError c s) s)

/-- The checks of DECFRM in order (R242, after R261); those of its blocks come after them. -/
def decfrmError (c : Codec) (s : State) : Err :=
  firstError
    [ (decide (elemWindowOk s), .arg),
      (decide (byteWindowOk s), .arg),
      (decide (opEptr s + opN s ≤ opElim s), .dstfull),
      (decide (opBptr s + 8 ≤ opBlim s), .srcshort),
      (decide (memRead s.b (opBptr s) 8 = magicNumber c), .magic) ]

/-- DECFRM (R242). -/
def execDecfrm (c : Codec) (s : State) : Result :=
  if decfrmError c s = .ok then .next (beginBlock c (opBptr s + 8) (opEptr s) (opN s) s)
  else .next (raise .elems (decfrmError c s) s)

/-- `Bound(c, N)` (R244). -/
def boundOf (c : Codec) (n : Nat) : Nat := 8 + 8 * cdiv n blockMax + (elemBytes c + 1) * n

/-- BOUND (R244); the window checks do not apply to it. -/
def execBound (c : Codec) (s : State) : Result :=
  if boundOf c (opN s) < 2 ^ 64 then .next (complete (boundOf c (opN s)) s)
  else .next (raise .unchanged .arg s)

end Sys2Proof.Machine
end

