-- ==== Sys2Proof/Machine/Reserved.lean ====
section
/-! DEFINITION. The reserved operation codes (30_encoding.md R93, 45_control.md R265): each completes with `E_ILLCMD` and does
nothing else. -/

namespace Sys2Proof.Machine

/-- `OP = 0x0` (R265). -/
def execReservedOp0 (_rest : BitVec 28) (s : State) : Result := .next (illegalCommand s)

/-- `OP = 0x9` (R265). -/
def execReservedOp9 (_rest : BitVec 28) (s : State) : Result := .next (illegalCommand s)

/-- `OP = 0xA` (R265). -/
def execReservedOpA (_rest : BitVec 28) (s : State) : Result := .next (illegalCommand s)

/-- `OP = 0xB` (R265). -/
def execReservedOpB (_rest : BitVec 28) (s : State) : Result := .next (illegalCommand s)

/-- `OP = 0xC` (R265). -/
def execReservedOpC (_rest : BitVec 28) (s : State) : Result := .next (illegalCommand s)

/-- `OP = 0xD` (R265). -/
def execReservedOpD (_rest : BitVec 28) (s : State) : Result := .next (illegalCommand s)

/-- `OP = 0xE` (R265). -/
def execReservedOpE (_rest : BitVec 28) (s : State) : Result := .next (illegalCommand s)

/-- `OP = 0xF` (R265). -/
def execReservedOpF (_rest : BitVec 28) (s : State) : Result := .next (illegalCommand s)

end Sys2Proof.Machine
end

