-- ==== Sys2Proof/Machine/Dispatch.lean ====
section
/-! DEFINITION. What each instruction does: one arm per constructor, each one call of its meaning. -/

namespace Sys2Proof.Machine

def exec (i : Instr) (s : State) : Host.Outcome State Fault Refusal :=
  match i with
  -- commands (30_encoding.md R92)
  | .pack c => Sys2Proof.Machine.execPack c s
  | .unpack c => Sys2Proof.Machine.execUnpack c s
  | .partition c => Sys2Proof.Machine.execPartition c s
  | .encblk c pext => Sys2Proof.Machine.execEncblk c pext s
  | .decblk c => Sys2Proof.Machine.execDecblk c s
  | .encfrm c => Sys2Proof.Machine.execEncfrm c s
  | .decfrm c => Sys2Proof.Machine.execDecfrm c s
  | .bound c => Sys2Proof.Machine.execBound c s
  -- reserved operation codes (R93)
  | .reservedOp0 rest => Sys2Proof.Machine.execReservedOp0 rest s
  | .reservedOp9 rest => Sys2Proof.Machine.execReservedOp9 rest s
  | .reservedOpA rest => Sys2Proof.Machine.execReservedOpA rest s
  | .reservedOpB rest => Sys2Proof.Machine.execReservedOpB rest s
  | .reservedOpC rest => Sys2Proof.Machine.execReservedOpC rest s
  | .reservedOpD rest => Sys2Proof.Machine.execReservedOpD rest s
  | .reservedOpE rest => Sys2Proof.Machine.execReservedOpE rest s
  | .reservedOpF rest => Sys2Proof.Machine.execReservedOpF rest s
  -- control bytes (R95, R97)
  | .unpack0 pidx => Sys2Proof.Machine.execUnpack0 pidx s
  | .unpack1 pidx => Sys2Proof.Machine.execUnpack1 pidx s
  | .unpack2 pidx => Sys2Proof.Machine.execUnpack2 pidx s
  | .unpack3 pidx => Sys2Proof.Machine.execUnpack3 pidx s
  | .unpack4 pidx => Sys2Proof.Machine.execUnpack4 pidx s
  | .unpack5 pidx => Sys2Proof.Machine.execUnpack5 pidx s
  | .unpack6 pidx => Sys2Proof.Machine.execUnpack6 pidx s
  | .unpack7 pidx => Sys2Proof.Machine.execUnpack7 pidx s
  | .unpack8 pidx => Sys2Proof.Machine.execUnpack8 pidx s
  | .unpack9 pidx => Sys2Proof.Machine.execUnpack9 pidx s
  | .unpack10 pidx => Sys2Proof.Machine.execUnpack10 pidx s
  | .unpack11 pidx => Sys2Proof.Machine.execUnpack11 pidx s
  | .unpack12 pidx => Sys2Proof.Machine.execUnpack12 pidx s
  | .unpack16 pidx => Sys2Proof.Machine.execUnpack16 pidx s
  | .unpack32 pidx => Sys2Proof.Machine.execUnpack32 pidx s
  | .unpack64 pidx => Sys2Proof.Machine.execUnpack64 pidx s
  | .ctrlInvalid pidx => Sys2Proof.Machine.execCtrlInvalid pidx s

end Sys2Proof.Machine
end

