-- ==== Sys2Proof/Machine/HostPort.lean ====
section
/-! DEFINITION. What the host does to the machine: register access (45_control.md R264, 20_memory.md R72), data-space access
(R63), and reset (70_reset_and_hazards.md R320). -/

namespace Sys2Proof.Machine

/-- What a register slot reads as while IDLE; slots 10 and up are reserved and read as zero (R72, R264). -/
def regValue (slot : Nat) (s : State) : BitVec 64 :=
  match slot with
  | 0 => s.cmd.setWidth 64
  | 1 => (statusWord s).setWidth 64
  | 2 => s.eptr
  | 3 => s.elim
  | 4 => s.bptr
  | 5 => s.blim
  | 6 => s.n
  | 7 => s.w.setWidth 64
  | 8 => s.pcnt.setWidth 64
  | 9 => s.result
  | _ => 0

/-- A host read of a register (R264): while BUSY, `PCNT` (slot 8) and `RESULT` (slot 9) return an unspecified value of
their width, every other register its value. -/
def readRegister (slot : Nat) (s : State) : State :=
  if busy s ∧ slot = 8 then
    { s with hostData := ((Config.freeRead s.fresh).setWidth 17).setWidth 64, fresh := s.fresh + 1 }
  else if busy s ∧ slot = 9 then { s with hostData := Config.freeRead s.fresh, fresh := s.fresh + 1 }
  else { s with hostData := regValue slot s }

/-- A host write of a register while IDLE (R264): `CMD` is START, `STATUS`, `RESULT` and the reserved slots ignore it, a
register narrower than 64 bits keeps the low bits. -/
def writeIdleRegister (slot : Nat) (v : BitVec 64) (s : State) : State :=
  match slot with
  | 0 => start (v.setWidth 32) s
  | 2 => { s with eptr := v }
  | 3 => { s with elim := v }
  | 4 => { s with bptr := v }
  | 5 => { s with blim := v }
  | 6 => { s with n := v }
  | 7 => { s with w := v.setWidth 7 }
  | 8 => { s with pcnt := v.setWidth 17 }
  | _ => s

/-- A host write of a register (R264): all writes are ignored while BUSY. -/
def writeRegister (slot : Nat) (v : BitVec 64) (s : State) : State := if busy s then s else writeIdleRegister slot v s

/-- A host access to cell `i` of a data space of `size` cells (R63): not while BUSY, and only to a cell that exists (R60). -/
def dataAccess (i size : Nat) (s t : State) : Result :=
  if busy s then .refused .hostDataWhileBusy
  else if i < size then .next t
  else .fault .noSuchCell

/-- Reset (R320, R43): the registers take their reset values and every cell of the three memories is unspecified. The
parameters and the model's own fields stay; the hidden state is unobservable. -/
def hostReset (s : State) : State :=
  { State.reset with
    e := writeCells [] 0 (freeElems s.fresh 0 s.ememSize.toNat)
    b := writeCells [] 0 (freeBytes s.fresh 0 s.bmemSize.toNat)
    p := writeCells [] 0 (freeEntries s.fresh 0 pmemSize)
    ememSize := s.ememSize
    bmemSize := s.bmemSize
    fresh := s.fresh + 1
    host := s.host
    hostData := s.hostData }

/-- One move of the host other than `wait`. -/
def hostStep (m : HostMove) (s : State) : Result :=
  match m with
  | .wait => .next s
  | .writeReg slot v => .next (writeRegister slot v s)
  | .readReg slot => .next (readRegister slot s)
  | .writeE i v => dataAccess i s.ememSize.toNat s { s with e := writeCells s.e i [v] }
  | .writeB i v => dataAccess i s.bmemSize.toNat s { s with b := writeCells s.b i [v] }
  | .writeP i v => dataAccess i pmemSize s { s with p := writeCells s.p i [v.setWidth 17] }
  | .readE i => dataAccess i s.ememSize.toNat s { s with hostData := readCell s.e i }
  | .readB i => dataAccess i s.bmemSize.toNat s { s with hostData := (readCell s.b i).setWidth 64 }
  | .readP i => dataAccess i pmemSize s { s with hostData := (readCell s.p i).setWidth 64 }
  | .reset => .next (hostReset s)

end Sys2Proof.Machine
end

