-- ==== Sys2Proof/Machine/Fetch.lean ====
section
/-! DEFINITION. What the engine does next: it fetches the latched command word after START, or the next control byte of a
framed block (20_memory.md R77, 43_block.md R219); the placing of an instruction where it is fetched. -/

namespace Sys2Proof.Machine

/-- The engine's next piece of work. -/
inductive Turn where
  /-- nothing: the engine is IDLE (R321) -/
  | nothing
  /-- an instruction: a decoded command word or control byte -/
  | instr (i : Instr)
  /-- a command word that decodes to no instruction: `E_ILLCMD` (R265) -/
  | illegal
  /-- the end of a framed block: its control bytes are used up (R219) -/
  | blockEnd
deriving DecidableEq, Repr

/-- The control byte at the cursors: `B[a + 8 + i]` (R219). -/
def ctrlAddress (t : Cursor) : Nat := t.blk + 8 + t.idx

/-- What the engine fetches, if it is about to fetch. -/
def fetch (s : State) : Option Fetched :=
  match s.phase with
  | .idle => none
  | .command => some (.cmd s.latch.cmd)
  | .control =>
    if s.cur.idx < s.cur.parts then some (.ctrl s.cur.codec (readCell s.b (ctrlAddress s.cur))) else none

/-- The engine's next piece of work. -/
def engineTurn (s : State) : Turn :=
  match fetch s with
  | some f =>
    match decode f with
    | .ok i => .instr i
    | .error _ => .illegal
  | none =>
    match s.phase with
    | .control => .blockEnd
    | .idle | .command => .nothing

/-- The command word `w` started with the operands as they are, no host move pending: the next step fetches it. -/
def placeCommand (w : CmdWord) (s : State) : State := { start w s with host := [] }

/-- The control byte `b` placed at the cursors of a codec-64 block in progress, no host move pending: the next step
fetches it. -/
def placeCtrl (b : Byte) (s : State) : State :=
  { s with
    phase := .control
    b := writeCells s.b (ctrlAddress s.cur) [b]
    cur := { s.cur with codec := .c64, parts := max s.cur.parts (s.cur.idx + 1) }
    done := false
    err := .ok
    host := [] }

end Sys2Proof.Machine
end

