-- ==== Sys2Proof/Machine/Step.lean ====
section
/-! DEFINITION. One step: the host's next move, or the engine's turn (log entries 5 and 6). -/

namespace Sys2Proof.Machine

/-- The engine's turn: an instruction is executed, an illegal word reported, a framed block finished; an idle engine does
nothing (R321). -/
def engineStep (s : State) : Host.Outcome State Fault Refusal :=
  match engineTurn s with
  | .nothing => .next s
  | .instr i => exec i s
  | .illegal => .next (illegalCommand s)
  | .blockEnd => .next (finishBlock s)

/-- One step. The host's pending moves come first, one a step; at `wait`, and when no move is left, it is the engine's turn. -/
def step (s : State) : Host.Outcome State Fault Refusal :=
  match s.host with
  | [] => engineStep s
  | .wait :: rest => engineStep { s with host := rest }
  | m :: rest => hostStep m { s with host := rest }

/-- An instruction of the opcode table placed where `step` fetches next: a command word as START latches it, a control
byte in a codec-64 block in progress (log entry 7). -/
def State.withFetchWord (s : State) (nbits w : Nat) : State :=
  if nbits = 8 then placeCtrl (BitVec.ofNat 8 w) s else placeCommand (BitVec.ofNat 32 w) s

end Sys2Proof.Machine
end

