-- ==== Sys2Proof/Safety.lean ====
section
/-! DEFINITION. The terms in which claims about the machine are stated: what a step leaves unchanged, how a command ended,
the layout of a framed block in memory, and the invariant of every run. -/

namespace Sys2Proof.Machine

/-- A command word that names an operation (R93): no reserved bit, an operation code from 1 to 8, and `PEXT` only with
ENCBLK. -/
abbrev legalWord (w : CmdWord) : Prop :=
  reservedField w = 0 ∧ 1 ≤ (opField w).toNat ∧ (opField w).toNat ≤ 8 ∧
    (pextField w = true → (opField w).toNat = 4)

/-- `CMD`, the operand registers the engine never writes (R21), the latches, the implementation's parameters and the
host's side are as before. -/
abbrev registersKept (s t : State) : Prop :=
  t.cmd = s.cmd ∧ t.eptr = s.eptr ∧ t.elim = s.elim ∧ t.bptr = s.bptr ∧ t.blim = s.blim ∧ t.n = s.n ∧ t.w = s.w ∧
    t.latch = s.latch ∧ t.ememSize = s.ememSize ∧ t.bmemSize = s.bmemSize ∧ t.host = s.host ∧ t.hostData = s.hostData

/-- P-space and `PCNT` are as before. -/
abbrev partsKept (s t : State) : Prop := t.pcnt = s.pcnt ∧ ∀ i, readCell t.p i = readCell s.p i

/-- Every cell of E-space but the `n` from `a` reads as before. -/
abbrev elemsKeptOutside (s t : State) (a n : Nat) : Prop :=
  ∀ x, ¬(a ≤ x ∧ x < a + n) → readCell t.e x = readCell s.e x

/-- Every cell of B-space but the `n` from `a` reads as before. -/
abbrev bytesKeptOutside (s t : State) (a n : Nat) : Prop :=
  ∀ x, ¬(a ≤ x ∧ x < a + n) → readCell t.b x = readCell s.b x

/-- The command ended well with `RESULT = r` (R262). -/
abbrev succeededWith (t : State) (r : Nat) : Prop :=
  t.phase = .idle ∧ t.done = true ∧ t.err = .ok ∧ t.result.toNat = r

/-- The command ended with the error `e` (R290). -/
abbrev failedWith (t : State) (e : Err) : Prop :=
  t.phase = .idle ∧ t.done = true ∧ t.err = e ∧ t.result = 0

/-- The state after an error that changes nothing but `STATUS` and `RESULT` (R290 case a). -/
def errorReport (e : Err) (s : State) : State := { s with phase := .idle, done := true, err := e, result := 0 }

/-- What an error of an encoding command leaves as it was (R290 case b, R291): E-space, every byte outside
`[BPTR, BLIM)`, and P-space with `PCNT` unless the command could write them. -/
abbrev encodeFailed (s t : State) (e : Err) (writesParts : Bool) : Prop :=
  failedWith t e ∧ t.e = s.e ∧ bytesKeptOutside s t (opBptr s) (opBlim s - opBptr s) ∧
    (writesParts = false → partsKept s t) ∧ registersKept s t ∧ t.cur = s.cur ∧ t.work = s.work

/-- What an error of a decoding command leaves as it was (R290 case b, R291): B-space, P-space, and every element outside
`[EPTR, min(EPTR + N, ELIM))`. -/
abbrev decodeFailed (s t : State) (e : Err) : Prop :=
  failedWith t e ∧ t.b = s.b ∧ elemsKeptOutside s t (opEptr s) (elemDestEnd s - opEptr s) ∧
    partsKept s t ∧ registersKept s t ∧ t.cur = s.cur ∧ t.work = s.work

/-- The framed block of the elements `elems`, cut by the table `parts`, stands at byte `a` (R101): header, control bytes,
packed runs, tail. -/
def framedBlockAt (c : Codec) (elems : List Elem) (parts : List Nat) (m : Mem 8) (a : Nat) : Prop :=
  let segs := segments elems parts
  let p := segs.length
  memRead m a 4 = framedSize c segs ∧
  memRead m (a + 4) 4 = 8 + p ∧
  (∀ i, i < p → readCell m (a + 8 + i) =
    ctrlByte (ctrlP (segs.getD i []).length) (ctrlW c (runWidth c (segs.getD i [])))) ∧
  (∀ i, i < p →
    readCells m (a + 8 + p + dataBytes c (segs.take i))
        (runBytes (segs.getD i []).length (runWidth c (segs.getD i []))) =
      packBits (segs.getD i []) (runWidth c (segs.getD i []))) ∧
  (∀ k, k < 16 →
    memRead m (a + 8 + p + dataBytes c segs + k * elemBytes c) (elemBytes c) =
      (elems.getD (elems.length - 16 + k) 0).toNat)

/-- A memory in canonical form with no cell at or above `size` (R60). -/
abbrev memOk {w : Nat} (m : Mem w) (size : Nat) : Prop := wfMem m ∧ ∀ x ∈ m, x.1 < size

/-- The latches hold the registers (R38; the host cannot change them while BUSY, R264). -/
abbrev latchCurrent (s : State) : Prop :=
  s.latch =
    { cmd := s.cmd, eptr := s.eptr, elim := s.elim, bptr := s.bptr, blim := s.blim, n := s.n, w := s.w, pcnt := s.pcnt }

/-- The cursors of a block decode in progress lie inside the command's windows (R62, R219, R220). -/
abbrev cursorOk (s : State) : Prop :=
  elemWindowOk s ∧ byteWindowOk s ∧
  s.cur.codec = codecField s.latch.cmd ∧
  opBptr s ≤ s.cur.blk ∧ s.cur.blk + 8 + s.cur.parts ≤ s.cur.byte ∧ s.cur.byte ≤ s.cur.slimit ∧
  s.cur.slimit ≤ opBlim s ∧ s.cur.idx ≤ s.cur.parts ∧
  opEptr s ≤ s.cur.elem ∧ s.cur.elem ≤ s.cur.dlimit ∧
  s.cur.dlimit + s.cur.rem = opEptr s + opN s ∧ opEptr s + opN s ≤ opElim s

/-- The invariant of every run: the memories are in canonical form and hold only cells that exist; while a command runs
`DONE` and `ERR` are clear (R30) and the latches hold the registers (R38); the cursors of a decode lie in the windows; the
packer's fill count is below 32 (R39). -/
abbrev Inv (s : State) : Prop :=
  memOk s.e s.ememSize.toNat ∧ memOk s.b s.bmemSize.toNat ∧ memOk s.p pmemSize ∧
  (s.phase ≠ .idle → s.done = false ∧ s.err = .ok ∧ latchCurrent s) ∧
  (s.phase = .control → cursorOk s) ∧
  s.work.fill < 32

/-- Two states that differ at most in E-space cells outside `[EPTR, ELIM)` and B-space bytes outside `[BPTR, BLIM)` of the
latched command (R62). -/
def sameInsideWindows (s t : State) : Prop :=
  t = { s with e := t.e, b := t.b } ∧
  (∀ x, opEptr s ≤ x → x < opElim s → readCell t.e x = readCell s.e x) ∧
  (∀ x, opBptr s ≤ x → x < opBlim s → readCell t.b x = readCell s.b x)

end Sys2Proof.Machine
end

