-- ==== Sys2Proof/Certificates/Slice0/Obligations.lean ====
section
/-! DEFINITION. The statements for the provers. -/

open Sys2Proof Sys2Proof.Machine

/-! ## Encodings -/

/-- Decoding the encoding of a well-formed instruction gives it back, for every instruction and every operand
(30_encoding.md sections 2 and 3). -/
def Obligations.DecodeOfEncodeIsTheInstruction : Prop :=
  ∀ (c : Codec) (i : Instr), i.wellFormed c = true → decode (encode c i) = .ok i

/-- Each legal word and each control byte has one meaning: encoding what was decoded gives the word back
(30_encoding.md sections 2 and 3). -/
def Obligations.EncodeOfDecodeIsTheWord : Prop :=
  (∀ (c : Codec) (w : CmdWord) (i : Instr), decodeCmd w = .ok i → encode c i = .cmd w ∧ i.wellFormed c = true) ∧
  (∀ (c : Codec) (b : Byte), encode c (decodeCtrl c b) = .ctrl c b ∧ (decodeCtrl c b).wellFormed c = true)

/-- A few words written out from the spec decode to what they stand for (R108, R98, R97, U5). -/
def Obligations.SampleWordsDecode : Prop :=
  decodeCmd 0x00000001#32 = .ok (.pack .c32) ∧ decodeCmd 0x00000012#32 = .ok (.unpack .c64) ∧
  decodeCmd 0x00000034#32 = .ok (.encblk .c64 true) ∧ decodeCmd 0x00000018#32 = .ok (.bound .c64) ∧
  decodeCmd 0x00000009#32 = .ok (.reservedOp9 0) ∧ decodeCmd 0x00000021#32 = .error .pextNotEncblk ∧
  decodeCmd 0x80000004#32 = .error .reservedBits ∧
  decodeCtrl .c32 0xF0#8 = .unpack0 0xF#4 ∧ decodeCtrl .c32 0x71#8 = .unpack1 0x7#4 ∧
  decodeCtrl .c32 0x0E#8 = .unpack32 0x0#4 ∧ decodeCtrl .c64 0x0F#8 = .unpack64 0x0#4 ∧
  decodeCtrl .c32 0x0F#8 = .ctrlInvalid 0x0#4

/-- The constant tables (R34, R35, R36): `CTRLP` and `CTRLW` invert `PSET` and `WSET`, only codec-32's nibble `0xF` is
invalid, and a group's bytes hold its elements' bits. -/
def Obligations.ControlByteTablesAgree : Prop :=
  (∀ pidx : BitVec 4, ctrlP (partitionLength pidx) = pidx) ∧
  (∀ l ∈ pset, partitionLength (ctrlP l) = l) ∧
  (∀ c : Codec, ∀ w ∈ wset c, nibbleWidth c (ctrlW c w) = some w) ∧
  (∀ widx : BitVec 4, nibbleWidth .c32 widx = none ↔ widx = 0xF#4) ∧
  (∀ widx : BitVec 4, nibbleWidth .c64 widx ≠ none) ∧
  (∀ w ∈ wset .c64, (group w).1 * 8 = (group w).2 * w)

/-! ## Commands that are refused by the engine -/

/-- An illegal command word written to `CMD` (R265): the command starts, completes with `E_ILLCMD` and changes nothing else
(the hidden cursors and working state are those START loads, 45_control.md R268). -/
def Obligations.IllegalWordReportsOnly : Prop :=
  ∀ (s : State) (v : BitVec 64), s.phase = .idle → s.host = [.writeReg 0 v] → ¬ legalWord (v.setWidth 32) →
    ∃ t, Host.Core.run Sys2Proof.core 2 s = .next t ∧ t =
      { s with
        phase := .idle, cmd := v.setWidth 32, done := true, err := .illcmd, result := 0, host := []
        latch :=
          { cmd := v.setWidth 32, eptr := s.eptr, elim := s.elim, bptr := s.bptr, blim := s.blim, n := s.n, w := s.w,
            pcnt := s.pcnt }
        cur := t.cur, work := t.work }

/-- Each reserved operation code reports `E_ILLCMD` and changes nothing else, whatever the other 28 bits (R93, R265). -/
def Obligations.ReservedCodesReportOnly : Prop :=
  ∀ (r : BitVec 28) (s : State),
    ∀ i ∈ [Instr.reservedOp0 r, .reservedOp9 r, .reservedOpA r, .reservedOpB r, .reservedOpC r, .reservedOpD r,
      .reservedOpE r, .reservedOpF r],
      exec i s = .next (errorReport .illcmd s)

/-! ## Steps, host and reset -/

/-- A step in which no host move is pending, or the host waits, runs the instruction that the fetched word or control
byte decodes to (20_memory.md R77, 43_block.md R219); a word that decodes to none only reports `E_ILLCMD`; an idle engine
leaves the state as it is (70_reset_and_hazards.md R321). The turns of host and engine, and that an idle step answers the
same state, are the model's choice (log entries 5, 6, 21). -/
def Obligations.StepRunsTheDecodedInstruction : Prop :=
  (∀ (s : State) (i : Instr), s.host = [] → s.phase = .command → decodeCmd s.latch.cmd = .ok i → step s = exec i s) ∧
  (∀ s : State, s.host = [] → s.phase = .control → s.cur.idx < s.cur.parts →
    step s = exec (decodeCtrl s.cur.codec (readCell s.b (s.cur.blk + 8 + s.cur.idx))) s) ∧
  (∀ (s : State) (e : DecodeError), s.host = [] → s.phase = .command → decodeCmd s.latch.cmd = .error e →
    step s = .next (errorReport .illcmd s)) ∧
  (∀ s : State, s.host = [] → s.phase = .idle → step s = .next s) ∧
  (∀ (s : State) (rest : List HostMove), s.host = .wait :: rest →
    step s = engineStep { s with host := rest } ∧ (s.phase = .idle → step s = .next { s with host := rest }))

/-- START (R260): a write of `CMD` in phase IDLE stores the low 32 bits, latches the operands, sets `BUSY` and clears
`DONE` and `ERR`, and changes nothing else a host can see; in phase BUSY it is ignored. The hidden state is reloaded: what an
earlier command left in latches, cursors and working state makes no difference (45_control.md R268). -/
def Obligations.StartLatchesTheOperands : Prop :=
  ∀ (s : State) (v : BitVec 64) (rest : List HostMove), s.host = .writeReg 0 v :: rest →
    (s.phase = .idle →
      (∃ t, step s = .next t ∧ t =
        { s with
          phase := .command, cmd := v.setWidth 32, done := false, err := .ok, host := rest
          latch :=
            { cmd := v.setWidth 32, eptr := s.eptr, elim := s.elim, bptr := s.bptr, blim := s.blim, n := s.n, w := s.w,
              pcnt := s.pcnt }
          cur := t.cur, work := t.work }) ∧
      ∀ (l : Latch) (k : Cursor) (h : Work), step { s with latch := l, cur := k, work := h } = step s) ∧
    (s.phase ≠ .idle → step s = .next { s with host := rest })

/-- Register access by the host (45_control.md R264, 20_memory.md R72): what each write stores, what each read returns, and
that all writes are ignored while BUSY, when `RESULT` and `PCNT` return an unspecified value of their width. That a read
returns through `hostData` is the model's choice (log entry 6). -/
def Obligations.HostRegisterAccess : Prop :=
  ∀ (s : State) (rest : List HostMove) (slot : Nat) (v : BitVec 64),
    (s.phase = .idle → s.host = .writeReg slot v :: rest →
      (slot = 2 → step s = .next { s with host := rest, eptr := v }) ∧
      (slot = 3 → step s = .next { s with host := rest, elim := v }) ∧
      (slot = 4 → step s = .next { s with host := rest, bptr := v }) ∧
      (slot = 5 → step s = .next { s with host := rest, blim := v }) ∧
      (slot = 6 → step s = .next { s with host := rest, n := v }) ∧
      (slot = 7 → step s = .next { s with host := rest, w := v.setWidth 7 }) ∧
      (slot = 8 → step s = .next { s with host := rest, pcnt := v.setWidth 17 }) ∧
      (slot = 1 ∨ 9 ≤ slot → step s = .next { s with host := rest })) ∧
    (s.phase ≠ .idle → s.host = .writeReg slot v :: rest → step s = .next { s with host := rest }) ∧
    (s.host = .readReg slot :: rest → (s.phase = .idle ∨ (slot ≠ 8 ∧ slot ≠ 9)) →
      step s = .next
        { s with
          host := rest
          hostData := [s.cmd.setWidth 64, (statusWord s).setWidth 64, s.eptr, s.elim, s.bptr, s.blim, s.n,
            s.w.setWidth 64, s.pcnt.setWidth 64, s.result].getD slot 0 }) ∧
    (s.host = .readReg slot :: rest → s.phase ≠ .idle → slot = 8 ∨ slot = 9 →
      ∃ x : BitVec 64, (slot = 8 → x.toNat < 2 ^ 17) ∧
        step s = .next { s with host := rest, hostData := x, fresh := s.fresh + 1 })

/-- `STATUS` (R30): `BUSY` bit 0, `DONE` bit 1, bits 3:2 zero, `ERR` bits 7:4 with the codes of R281, bits 31:8 zero. -/
def Obligations.StatusWordFields : Prop :=
  ∀ s : State,
    ((statusWord s).getLsbD 0 = true ↔ s.phase ≠ .idle) ∧
    (statusWord s).getLsbD 1 = s.done ∧
    (statusWord s).extractLsb' 2 2 = 0 ∧
    ((statusWord s).extractLsb' 4 4).toNat =
      (match s.err with
        | .ok => 0 | .illcmd => 1 | .arg => 2 | .part => 3 | .dstfull => 4 | .srcshort => 5 | .magic => 6 | .ctrl => 7
        | .frame => 8) ∧
    (statusWord s).extractLsb' 8 24 = 0

/-- Data-space access by the host (20_memory.md R63): in phase IDLE a write replaces the cell (P-space keeps the low 17
bits) and no other, a read returns it; that a cell that does not exist faults and a BUSY engine refuses is the model's choice
(log entries 9, 10). -/
def Obligations.HostDataAccess : Prop :=
  ∀ (s : State) (rest : List HostMove) (i : Nat) (ve vp : BitVec 64) (vb : Byte),
    (s.phase = .idle → i < s.ememSize.toNat → s.host = .writeE i ve :: rest →
      ∃ t, step s = .next t ∧ t = { s with host := rest, e := t.e } ∧ readCell t.e i = ve ∧ elemsKeptOutside s t i 1) ∧
    (s.phase = .idle → i < s.bmemSize.toNat → s.host = .writeB i vb :: rest →
      ∃ t, step s = .next t ∧ t = { s with host := rest, b := t.b } ∧ readCell t.b i = vb ∧ bytesKeptOutside s t i 1) ∧
    (s.phase = .idle → i < 65521 → s.host = .writeP i vp :: rest →
      ∃ t, step s = .next t ∧ t = { s with host := rest, p := t.p } ∧ readCell t.p i = vp.setWidth 17 ∧
        ∀ x, x ≠ i → readCell t.p x = readCell s.p x) ∧
    (s.phase = .idle → i < s.ememSize.toNat → s.host = .readE i :: rest →
      step s = .next { s with host := rest, hostData := readCell s.e i }) ∧
    (s.phase = .idle → i < s.bmemSize.toNat → s.host = .readB i :: rest →
      step s = .next { s with host := rest, hostData := (readCell s.b i).setWidth 64 }) ∧
    (s.phase = .idle → i < 65521 → s.host = .readP i :: rest →
      step s = .next { s with host := rest, hostData := (readCell s.p i).setWidth 64 }) ∧
    (s.phase = .idle →
      (s.ememSize.toNat ≤ i ∧ (s.host = .writeE i ve :: rest ∨ s.host = .readE i :: rest)) ∨
      (s.bmemSize.toNat ≤ i ∧ (s.host = .writeB i vb :: rest ∨ s.host = .readB i :: rest)) ∨
      (65521 ≤ i ∧ (s.host = .writeP i vp :: rest ∨ s.host = .readP i :: rest)) →
      step s = .fault .noSuchCell) ∧
    (s.phase ≠ .idle →
      s.host = .writeE i ve :: rest ∨ s.host = .writeB i vb :: rest ∨ s.host = .writeP i vp :: rest ∨
        s.host = .readE i :: rest ∨ s.host = .readB i :: rest ∨ s.host = .readP i :: rest →
      step s = .refused .hostDataWhileBusy)

/-- Reset (R43, R320): every register is 0 and the engine IDLE, at `State.reset` and after a reset the host applies in any
phase, which abandons the command in flight. -/
def Obligations.ResetClearsTheRegisters : Prop :=
  (State.reset.phase = .idle ∧ State.reset.cmd = 0 ∧ statusWord State.reset = 0 ∧ State.reset.result = 0 ∧
    State.reset.eptr = 0 ∧ State.reset.elim = 0 ∧ State.reset.bptr = 0 ∧ State.reset.blim = 0 ∧ State.reset.n = 0 ∧
    State.reset.w = 0 ∧ State.reset.pcnt = 0) ∧
  (∀ (s : State) (rest : List HostMove), s.host = .reset :: rest →
    ∃ t, step s = .next t ∧ t.phase = .idle ∧ t.cmd = 0 ∧ statusWord t = 0 ∧ t.result = 0 ∧ t.eptr = 0 ∧ t.elim = 0 ∧
      t.bptr = 0 ∧ t.blim = 0 ∧ t.n = 0 ∧ t.w = 0 ∧ t.pcnt = 0 ∧ t.host = rest ∧ t.ememSize = s.ememSize ∧
      t.bmemSize = s.bmemSize)

/-- The invariant holds right after reset. That memory lists nothing there and the hidden state is zero is the model's
choice (log entries 2, 3). -/
def Obligations.ResetSatisfiesTheInvariant : Prop := Inv State.reset

/-- Every step keeps the invariant: canonical memories inside their sizes, `DONE` and `ERR` clear while a command runs, the
latches equal to the registers, the cursors of a decode inside the command's windows, the fill count below 32. -/
def Obligations.StepKeepsTheInvariant : Prop :=
  ∀ s t : State, Inv s → step s = .next t → Inv t

/-- Every command completes (45_control.md R262): from any state in which the host makes no move, a number of steps reaches
phase IDLE, with `DONE = 1` if a command was running. The steps of a framed decode, and that an empty list of host moves
leaves the turn to the engine, are the model's choice (log entries 5, 6). -/
def Obligations.EveryCommandCompletes : Prop :=
  ∀ s : State, s.host = [] →
    ∃ (k : Nat) (t : State), Host.Core.run Sys2Proof.core k s = .next t ∧ t.phase = .idle ∧
      (s.phase ≠ .idle → t.done = true)

/-! ## Rules for all instructions -/

/-- The engine never writes `CMD` or an operand register other than `PCNT` (10_state.md R21), in an instruction or in any other
turn: the report of an illegal word, the end of a framed block. -/
def Obligations.EngineNeverWritesOperands : Prop :=
  (∀ (i : Instr) (s t : State), exec i s = .next t → registersKept s t) ∧
  (∀ s t : State, engineStep s = .next t → registersKept s t)

/-- Nothing stops the engine: every instruction answers a next state in every state (R262, 93 U15). -/
def Obligations.NoInstructionStops : Prop := ∀ (i : Instr) (s : State), ∃ t, exec i s = .next t

/-- A command never writes its source space (60_exceptions.md R291): the encoders and BOUND leave E-space, the decoders,
their control bytes and the end of their blocks, PARTITION and BOUND leave B-space; a word that decodes to no instruction
leaves both. -/
def Obligations.SourceSpaceNeverWritten : Prop :=
  (∀ (i : Instr) (s t : State), exec i s = .next t →
    ((match i with
      | .pack _ | .partition _ | .encblk _ _ | .encfrm _ | .bound _ => true
      | _ => false) = true → t.e = s.e) ∧
    ((match i with
      | .pack _ | .encblk _ _ | .encfrm _ => false
      | _ => true) = true → t.b = s.b)) ∧
  (∀ s t : State, s.phase = .control → engineStep s = .next t → t.b = s.b) ∧
  (∀ (s t : State) (e : DecodeError), s.phase = .command → decodeCmd s.latch.cmd = .error e → engineStep s = .next t →
    t.e = s.e ∧ t.b = s.b)

/-- Only PARTITION, ENCBLK with `PEXT = 0` and ENCFRM write P-space or `PCNT` (10_state.md R21, R26): no other instruction, no
turn of a framed decode, no word that decodes to no instruction. -/
def Obligations.OnlyPartitionersWriteTheTable : Prop :=
  (∀ (i : Instr) (s t : State), exec i s = .next t →
    (match i with
      | .partition _ | .encfrm _ => true
      | .encblk _ pext => !pext
      | _ => false) = false → t.p = s.p ∧ t.pcnt = s.pcnt) ∧
  (∀ s t : State, s.phase = .control → engineStep s = .next t → t.p = s.p ∧ t.pcnt = s.pcnt) ∧
  (∀ (s t : State) (e : DecodeError), s.phase = .command → decodeCmd s.latch.cmd = .error e → engineStep s = .next t →
    t.p = s.p ∧ t.pcnt = s.pcnt)

/-- Error entry (60_exceptions.md R290, R291), for every instruction that ends with an error: `RESULT` is 0, `DONE` is 1, the
registers stay; after `E_ILLCMD`, `E_ARG`, `E_PART`, and after any error of PACK or UNPACK, no cell changes; after any other,
no cell outside the destination window: an encoder keeps E-space, every other instruction B-space, and all but ENCBLK with
`PEXT = 0` and ENCFRM keep P-space and `PCNT`. -/
def Obligations.ErrorEntryHavocsAtMostTheDestination : Prop :=
  ∀ (i : Instr) (s t : State), s.phase ≠ .idle → exec i s = .next t → t.phase = .idle → t.err ≠ .ok →
    t.done = true ∧ t.result = 0 ∧ registersKept s t ∧
    ((t.err = .illcmd ∨ t.err = .arg ∨ t.err = .part ∨ (∃ c, i = .pack c ∨ i = .unpack c)) →
      t = errorReport t.err s) ∧
    bytesKeptOutside s t (opBptr s) (opBlim s - opBptr s) ∧
    elemsKeptOutside s t (opEptr s) (min (opEptr s + opN s) (opElim s) - opEptr s) ∧
    ((match i with
      | .pack _ | .encblk _ _ | .encfrm _ => true
      | _ => false) = true → t.e = s.e) ∧
    ((match i with
      | .encblk _ _ | .encfrm _ => true
      | _ => false) = false → t.b = s.b) ∧
    ((match i with
      | .encblk _ pext => !pext
      | .encfrm _ => true
      | _ => false) = false → partsKept s t)

/-- Every write of the engine lies in the command's windows (20_memory.md R62, 60_exceptions.md R291). -/
def Obligations.WritesStayInsideTheWindows : Prop :=
  ∀ s t : State, Inv s → s.host = [] → step s = .next t →
    bytesKeptOutside s t (opBptr s) (opBlim s - opBptr s) ∧ elemsKeptOutside s t (opEptr s) (opElim s - opEptr s)

/-- Nothing outside the command's windows influences what the engine does (20_memory.md R62). -/
def Obligations.OutcomeDependsOnTheWindowsOnly : Prop :=
  ∀ s s' : State, Inv s → s.host = [] → sameInsideWindows s s' →
    ∃ t t', step s = .next t ∧ step s' = .next t' ∧ sameInsideWindows t t'

/-- A codec-32 encoder ignores bits 63:32 of the cells it reads (10_state.md R31, 40_pack.md R131). -/
def Obligations.CodecThirtyTwoIgnoresUpperHalves : Prop :=
  ∀ (s : State) (m : Mem 64) (pext : Bool), (∀ a, readElem .c32 m a = readElem .c32 s.e a) →
    ∀ i ∈ [Instr.pack .c32, .partition .c32, .encblk .c32 pext, .encfrm .c32],
      ∃ t, exec i s = .next t ∧ exec i { s with e := m } = .next { t with e := m }

/-! ## Integer functions, byte access and the packer -/

/-- `bits_needed` and `round_up` (R131, R132). -/
def Obligations.IntegerFunctions : Prop :=
  (∀ x : Elem, (x = 0 → bitsNeeded x = 0) ∧
    (x ≠ 0 → 2 ^ (bitsNeeded x - 1) ≤ x.toNat ∧ x.toNat < 2 ^ bitsNeeded x ∧ 1 ≤ bitsNeeded x ∧ bitsNeeded x ≤ 64)) ∧
  (∀ (m : Mem 64) (i : Nat), bitsNeeded (readElem .c32 m i) ≤ 32) ∧
  (∀ (c : Codec) (b : Nat), b ≤ elemWidth c →
    roundUp c b ∈ wset c ∧ b ≤ roundUp c b ∧ (∀ w ∈ wset c, b ≤ w → roundUp c b ≤ w) ∧
    (∀ b', b' ≤ b → roundUp c b' ≤ roundUp c b) ∧ (∀ w ∈ wset c, roundUp c w = w))

/-- A run's width holds each of its elements, so packing it loses nothing (R133). -/
def Obligations.RunWidthLosesNothing : Prop :=
  ∀ (c : Codec) (s : List Elem), (∀ x ∈ s, x.toNat < 2 ^ elemWidth c) →
    runWidth c s ∈ wset c ∧ (∀ x ∈ s, x.toNat < 2 ^ runWidth c s) ∧
    ((∀ x ∈ s, x = 0) → runWidth c s = 0 ∧ packBits s (runWidth c s) = [])

/-- `MemRead` and `MemWrite` (R64, R65, R67): big-endian, no other byte touched, and a value read as it was written. -/
def Obligations.ByteAccessIsBigEndian : Prop :=
  (∀ (m : Mem 8) (a : Nat), ∀ n ∈ [1, 2, 4, 8],
    memRead m a n = ((List.range n).map fun k => (readCell m (a + k)).toNat * 256 ^ (n - 1 - k)).sum) ∧
  (∀ (m : Mem 8) (a v : Nat), ∀ n ∈ [1, 4, 8], v < 256 ^ n →
    (∀ k, k < n → (readCell (memWrite m a n v) (a + k)).toNat = v / 256 ^ (n - 1 - k) % 256) ∧
    (∀ x, ¬(a ≤ x ∧ x < a + n) → readCell (memWrite m a n v) x = readCell m x) ∧
    memRead (memWrite m a n v) a n = v) ∧
  (∀ (m : Mem 8) (a v : Nat), v < 2 ^ 32 →
    memRead (memWrite m a 4 v) a 2 = v / 65536 ∧ memRead (memWrite m a 4 v) (a + 2) 2 = v % 65536)

/-- `PackBits` (R134): the low `w` bits of the elements concatenated, zero padded to bytes, the most significant byte first;
equivalently stream bit `i·w + j` is bit `w − 1 − j` of `s[i]` and the remaining stream bits are 0. -/
def Obligations.PackBitsIsTheConcatenation : Prop :=
  ∀ (s : List Elem) (w : Nat), w ≤ 64 →
    (packBits s w).length = cdiv (s.length * w) 8 ∧
    bytesToNat (packBits s w) =
      s.foldl (fun t x => t * 2 ^ w + x.toNat % 2 ^ w) 0 * 2 ^ (8 * cdiv (s.length * w) 8 - s.length * w) ∧
    (∀ i j, i < s.length → j < w →
      streamBit (packBits s w) (i * w + j) = (s.getD i 0).getLsbD (w - 1 - j)) ∧
    (∀ k, s.length * w ≤ k → k < 8 * cdiv (s.length * w) 8 → streamBit (packBits s w) k = false)

/-- The inversion law (R136): unpacking a packed run gives the low `w` bits of each element. -/
def Obligations.UnpackBitsInvertsPackBits : Prop :=
  ∀ (s : List Elem) (w i : Nat), w ≤ 64 → i < s.length →
    ((unpackBits (packBits s w) w s.length).getD i 0).toNat = (s.getD i 0).toNat % 2 ^ w ∧
    ((s.getD i 0).toNat < 2 ^ w → (unpackBits (packBits s w) w s.length).getD i 0 = s.getD i 0)

/-- The source's writer, 32 bits at a time with a left-aligned residue, and its two special cases write the bytes of
`PackBits` (R139): the three cases are one function. -/
def Obligations.WriterMechanismEqualsPackBits : Prop :=
  ∀ (c : Codec) (s : List Elem) (w : Nat), w ≤ elemWidth c → (∀ x ∈ s, x.toNat < 2 ^ elemWidth c) →
    writeBits s w = packBits s w ∧ packBits s 0 = [] ∧ packBits s (elemWidth c) = rawBytes c s

/-- Where the fields of the unpackers lie in the bytes: for every width, counted from the most significant end of the run
taken as one number (R155 to R170), and byte by byte for the widths whose rule says so (R155 to R159, R161, R163, R167 to
R170). -/
def Obligations.FieldLayoutPerUnpacker : Prop :=
  ∀ (r : List Byte) (i : Nat),
    (∀ w, (i + 1) * w ≤ 8 * r.length → field r w i = bytesToNat r / 2 ^ (8 * r.length - (i + 1) * w) % 2 ^ w) ∧
    field r 0 i = 0 ∧
    field r 1 i = ((r.getD (i / 8) 0).getLsbD (7 - i % 8)).toNat ∧
    field r 2 i = (r.getD (i / 4) 0).toNat / 4 ^ (3 - i % 4) % 4 ∧
    field r 4 i = (if i % 2 = 0 then (r.getD (i / 2) 0).toNat / 16 else (r.getD (i / 2) 0).toNat % 16) ∧
    field r 8 i = (r.getD i 0).toNat ∧
    field r 16 i = 256 * (r.getD (2 * i) 0).toNat + (r.getD (2 * i + 1) 0).toNat ∧
    field r 32 i = bytesToNat ((List.range 4).map fun k => r.getD (4 * i + k) 0) ∧
    field r 64 i = bytesToNat ((List.range 8).map fun k => r.getD (8 * i + k) 0) ∧
    field r 3 (8 * i) = (r.getD (3 * i) 0).toNat / 32 ∧
    field r 3 (8 * i + 1) = (r.getD (3 * i) 0).toNat / 4 % 8 ∧
    field r 3 (8 * i + 2) = (r.getD (3 * i) 0).toNat % 4 * 2 + (r.getD (3 * i + 1) 0).toNat / 128 ∧
    field r 3 (8 * i + 3) = (r.getD (3 * i + 1) 0).toNat / 16 % 8 ∧
    field r 3 (8 * i + 4) = (r.getD (3 * i + 1) 0).toNat / 2 % 8 ∧
    field r 3 (8 * i + 5) = (r.getD (3 * i + 1) 0).toNat % 2 * 4 + (r.getD (3 * i + 2) 0).toNat / 64 ∧
    field r 3 (8 * i + 6) = (r.getD (3 * i + 2) 0).toNat / 8 % 8 ∧
    field r 3 (8 * i + 7) = (r.getD (3 * i + 2) 0).toNat % 8 ∧
    field r 6 (4 * i) = (r.getD (3 * i) 0).toNat / 4 ∧
    field r 6 (4 * i + 1) = (r.getD (3 * i) 0).toNat % 4 * 16 + (r.getD (3 * i + 1) 0).toNat / 16 ∧
    field r 6 (4 * i + 2) = (r.getD (3 * i + 1) 0).toNat % 16 * 4 + (r.getD (3 * i + 2) 0).toNat / 64 ∧
    field r 6 (4 * i + 3) = (r.getD (3 * i + 2) 0).toNat % 64 ∧
    field r 12 (2 * i) = (r.getD (3 * i) 0).toNat * 16 + (r.getD (3 * i + 1) 0).toNat / 16 ∧
    field r 12 (2 * i + 1) = (r.getD (3 * i + 1) 0).toNat % 16 * 256 + (r.getD (3 * i + 2) 0).toNat

/-! ## PACK and UNPACK -/

/-- PACK (40_pack.md R138): where its checks hold it writes exactly the run of the `N` elements at width `W`, zero padded,
returns its length, and changes nothing else but the packer's accumulator (what stays in the hidden state is the model's
choice, log entry 18). -/
def Obligations.PackWritesTheRun : Prop :=
  ∀ (c : Codec) (s : State), elemWindowOk s → byteWindowOk s → 1 ≤ opN s → opN s ≤ 128 → opW s ≤ elemWidth c →
    opEptr s + opN s ≤ opElim s → opBptr s + cdiv (opN s * opW s) 8 ≤ opBlim s →
    ∃ t, exec (.pack c) s = .next t ∧ succeededWith t (cdiv (opN s * opW s) 8) ∧
      (∀ i j, i < opN s → j < opW s →
        streamBit (readCells t.b (opBptr s) (cdiv (opN s * opW s) 8)) (i * opW s + j) =
          (readElem c s.e (opEptr s + i)).getLsbD (opW s - 1 - j)) ∧
      (∀ k, opN s * opW s ≤ k → k < 8 * cdiv (opN s * opW s) 8 →
        streamBit (readCells t.b (opBptr s) (cdiv (opN s * opW s) 8)) k = false) ∧
      bytesKeptOutside s t (opBptr s) (cdiv (opN s * opW s) 8) ∧ t.e = s.e ∧ partsKept s t ∧ registersKept s t ∧
      t.cur = s.cur ∧ t.work.cost = s.work.cost ∧ t.work.refs = s.work.refs

/-- PACK reports the first check that fails, and then changes nothing else (40_pack.md R138, 60_exceptions.md R290, R292). -/
def Obligations.PackFirstFailedCheck : Prop :=
  ∀ (c : Codec) (s : State),
    (¬(elemWindowOk s ∧ byteWindowOk s ∧ 1 ≤ opN s ∧ opN s ≤ 128 ∧ opW s ≤ elemWidth c ∧
        opEptr s + opN s ≤ opElim s) → exec (.pack c) s = .next (errorReport .arg s)) ∧
    ((elemWindowOk s ∧ byteWindowOk s ∧ 1 ≤ opN s ∧ opN s ≤ 128 ∧ opW s ≤ elemWidth c ∧
        opEptr s + opN s ≤ opElim s) → opBlim s < opBptr s + cdiv (opN s * opW s) 8 →
      exec (.pack c) s = .next (errorReport .dstfull s))

/-- UNPACK (41_unpack.md R150 to R153): where its checks hold it writes the `N` fields of the run, zero-extended, returns
the bytes read, and touches no other cell than the speculative ones. -/
def Obligations.UnpackWritesTheFields : Prop :=
  ∀ (c : Codec) (s : State), elemWindowOk s → byteWindowOk s → opW s ∈ wset c → 1 ≤ opN s → opN s ≤ 128 →
    opBptr s + cdiv (opN s * opW s) 8 ≤ opBlim s → opEptr s + opN s ≤ opElim s →
    ∃ t, exec (.unpack c) s = .next t ∧ succeededWith t (cdiv (opN s * opW s) 8) ∧
      (∀ i, i < opN s → (readCell t.e (opEptr s + i)).toNat =
        sbits (readCells s.b (opBptr s) (cdiv (opN s * opW s) 8)) (i * opW s) (opW s)) ∧
      (c = .c32 → ∀ i, i < opN s → (readCell t.e (opEptr s + i)).toNat < 2 ^ 32) ∧
      elemsKeptOutside s t (opEptr s)
        (min (opEptr s + (group (opW s)).2 * cdiv (opN s) (group (opW s)).2) (opElim s) - opEptr s) ∧
      t.b = s.b ∧ partsKept s t ∧ registersKept s t ∧ t.cur = s.cur ∧ t.work = s.work

/-- UNPACK reports the first check that fails, and then changes nothing else (41_unpack.md R150, 60_exceptions.md R290, R292). -/
def Obligations.UnpackFirstFailedCheck : Prop :=
  ∀ (c : Codec) (s : State),
    (¬(elemWindowOk s ∧ byteWindowOk s ∧ opW s ∈ wset c ∧ 1 ≤ opN s ∧ opN s ≤ 128) →
      exec (.unpack c) s = .next (errorReport .arg s)) ∧
    ((elemWindowOk s ∧ byteWindowOk s ∧ opW s ∈ wset c ∧ 1 ≤ opN s ∧ opN s ≤ 128) →
      opBlim s < opBptr s + cdiv (opN s * opW s) 8 → exec (.unpack c) s = .next (errorReport .srcshort s)) ∧
    ((elemWindowOk s ∧ byteWindowOk s ∧ opW s ∈ wset c ∧ 1 ≤ opN s ∧ opN s ≤ 128) →
      opBptr s + cdiv (opN s * opW s) 8 ≤ opBlim s → opElim s < opEptr s + opN s →
      exec (.unpack c) s = .next (errorReport .dstfull s))

/-- PACK and then UNPACK of the same bytes at the same width and count gives back the low `W` bits of each element and the
same `RESULT` (40_pack.md R140, 41_unpack.md R172). -/
def Obligations.UnpackAfterPackRestoresTheElements : Prop :=
  ∀ (c : Codec) (s t u : State), exec (.pack c) s = .next t → t.err = .ok → opW s ∈ wset c →
    u.latch.n = s.latch.n → u.latch.w = s.latch.w → elemWindowOk u → byteWindowOk u →
    opEptr u + opN u ≤ opElim u → opBptr u + t.result.toNat ≤ opBlim u →
    (∀ k, k < t.result.toNat → readCell u.b (opBptr u + k) = readCell t.b (opBptr s + k)) →
    ∃ v, exec (.unpack c) u = .next v ∧ succeededWith v t.result.toNat ∧
      ∀ i, i < opN s →
        (readCell v.e (opEptr u + i)).toNat = (readElem c s.e (opEptr s + i)).toNat % 2 ^ opW s

/-! ## PARTITION -/

/-- PARTITION (42_partition.md R190): where its checks hold it stores the computed table in `P[0 … p]` and `p` in `PCNT` and
`RESULT`, and touches neither E-space nor B-space; where one fails it reports `E_ARG` and changes nothing else. -/
def Obligations.PartitionStoresTheTable : Prop :=
  ∀ (c : Codec) (s : State),
    ((elemWindowOk s ∧ 1 ≤ opN s ∧ opN s ≤ 65520 ∧ opEptr s + opN s ≤ opElim s) →
      ∃ t, exec (.partition c) s = .next t ∧
        succeededWith t ((computePartition c (readElems c s.e (opEptr s) (opN s))).length - 1) ∧
        (∀ i, i < (computePartition c (readElems c s.e (opEptr s) (opN s))).length →
          (readCell t.p i).toNat = (computePartition c (readElems c s.e (opEptr s) (opN s))).getD i 0) ∧
        t.pcnt.toNat = (computePartition c (readElems c s.e (opEptr s) (opN s))).length - 1 ∧
        t.e = s.e ∧ t.b = s.b ∧ registersKept s t ∧ t.cur = s.cur ∧ t.work.acc = s.work.acc ∧
        t.work.fill = s.work.fill) ∧
    (¬(elemWindowOk s ∧ 1 ≤ opN s ∧ opN s ≤ 65520 ∧ opEptr s + opN s ≤ opElim s) →
      exec (.partition c) s = .next (errorReport .arg s))

/-- Every computed table is a valid partition (R191, R198): it starts at 0, ends at the number of elements, and every
length is in `Pset`. -/
def Obligations.ComputedTableIsValid : Prop :=
  ∀ (c : Codec) (s : List Elem), s ≠ [] →
    validParts (computePartition c s) s.length = true ∧
    (computePartition c s).head? = some 0 ∧ (computePartition c s).getLast? = some s.length ∧
    2 ≤ (computePartition c s).length ∧ (computePartition c s).length ≤ s.length + 1 ∧
    ∀ i, i + 1 < (computePartition c s).length →
      (computePartition c s).getD i 0 < (computePartition c s).getD (i + 1) 0 ∧
      (computePartition c s).getD (i + 1) 0 - (computePartition c s).getD i 0 ∈ pset

/-- The dynamic program (R193, R194): at every `j ≥ 128` the cost is the least over all lengths of `Pset`, and among the
lengths of least cost the largest wins. -/
def Obligations.LongestLeastCostLengthWins : Prop :=
  ∀ (c : Codec) (s : List Elem) (j : Nat), 128 ≤ j → j ≤ s.length →
    ∃ l ∈ pset, (plan c s).refs.getD j 0 = j - l ∧
      (plan c s).cost.getD j 0 =
        (plan c s).cost.getD (j - l) 0 + cdiv (l * runWidth c ((s.drop (j - l)).take l)) 8 ∧
      ∀ l' ∈ pset,
        (plan c s).cost.getD j 0 ≤
          (plan c s).cost.getD (j - l') 0 + cdiv (l' * runWidth c ((s.drop (j - l')).take l')) 8 ∧
        (l < l' →
          (plan c s).cost.getD j 0 <
            (plan c s).cost.getD (j - l') 0 + cdiv (l' * runWidth c ((s.drop (j - l')).take l')) 8)

/-- Seeding (R195, R190): fewer than 128 elements are cut into singletons, at `⌈bits_needed/8⌉` bytes each in the arrays. -/
def Obligations.ShortInputsAreSingletons : Prop :=
  ∀ (c : Codec) (s : List Elem),
    (s.length < 128 → computePartition c s = List.range (s.length + 1)) ∧
    (∀ j, 1 ≤ j → j < 128 → j ≤ s.length →
      (plan c s).refs.getD j 0 = j - 1 ∧
      (plan c s).cost.getD j 0 = (plan c s).cost.getD (j - 1) 0 + cdiv (bitsNeeded (s.getD (j - 1) 0)) 8)

/-- The source's example (R199). -/
def Obligations.SourcePartitionExample : Prop :=
  let input := fun (x : Elem) =>
    List.replicate 128 (0 : Elem) ++ [x] ++ List.replicate 8 1 ++ [x] ++ List.replicate 4 1 ++ [x] ++
      List.replicate 6 1 ++ [x] ++ List.replicate 7 1 ++ [x] ++ List.replicate 2 1
  computePartition .c32 (input 0xFFFFFFFF) = [0, 128, 129, 137, 138, 142, 143, 149, 150, 157, 158, 160] ∧
  computePartition .c64 (input 0xFFFFFFFFFFFFFFFF) = [0, 128, 129, 137, 138, 142, 143, 149, 150, 157, 158, 160] ∧
  computePartition .c32 ((input 0xFFFFFFFF).take 128) = [0, 128] ∧
  (plan .c64 ((input 0xFFFFFFFFFFFFFFFF).take 129)).cost.getD 129 0 = 8 ∧
  (∀ j, 1 ≤ j → j < 128 → (plan .c32 (input 0xFFFFFFFF)).cost.getD j 0 = 0) ∧
  [128, 129, 137, 138, 142, 143, 149, 150, 157, 158, 160].map ((plan .c32 (input 0xFFFFFFFF)).cost.getD · 0) =
    [0, 4, 5, 9, 10, 14, 15, 19, 20, 24, 25]

/-! ## ENCBLK -/

/-- ENCBLK of fewer than 144 elements (43_block.md R211): the elements big-endian, whatever `PEXT`; P-space, `PCNT` and the
hidden state stay. -/
def Obligations.EncblkWritesARawBlock : Prop :=
  ∀ (c : Codec) (pext : Bool) (s : State), elemWindowOk s → byteWindowOk s → 1 ≤ opN s → opN s < 144 →
    opEptr s + opN s ≤ opElim s → opBptr s + opN s * elemBytes c ≤ opBlim s →
    ∃ t, exec (.encblk c pext) s = .next t ∧ succeededWith t (opN s * elemBytes c) ∧
      (∀ k, k < opN s →
        memRead t.b (opBptr s + k * elemBytes c) (elemBytes c) = (readElem c s.e (opEptr s + k)).toNat) ∧
      bytesKeptOutside s t (opBptr s) (opN s * elemBytes c) ∧ t.e = s.e ∧ partsKept s t ∧ registersKept s t ∧
      t.cur = s.cur ∧ t.work = s.work

/-- ENCBLK with `PEXT = 0` of 144 elements or more (43_block.md R212, R213, 30_encoding.md R101): the framed block cut by
the computed table, which goes to P-space and `PCNT`. -/
def Obligations.EncblkWritesAFramedBlock : Prop :=
  ∀ (c : Codec) (s : State) (elems : List Elem) (parts : List Nat), elemWindowOk s → byteWindowOk s →
    144 ≤ opN s → opN s ≤ 65536 → opEptr s + opN s ≤ opElim s →
    elems = readElems c s.e (opEptr s) (opN s) → parts = computePartition c (elems.take (opN s - 16)) →
    opBptr s + framedSize c (segments elems parts) ≤ opBlim s →
    ∃ t, exec (.encblk c false) s = .next t ∧ succeededWith t (framedSize c (segments elems parts)) ∧
      framedBlockAt c elems parts t.b (opBptr s) ∧
      bytesKeptOutside s t (opBptr s) (framedSize c (segments elems parts)) ∧
      (∀ i, i < parts.length → (readCell t.p i).toNat = parts.getD i 0) ∧ t.pcnt.toNat = parts.length - 1 ∧
      t.e = s.e ∧ registersKept s t ∧ t.cur = s.cur

/-- ENCBLK with `PEXT = 1` of 144 elements or more (43_block.md R212, R213): the framed block cut by the host's valid table;
P-space and `PCNT` stay. -/
def Obligations.EncblkUsesTheHostsTable : Prop :=
  ∀ (c : Codec) (s : State) (elems : List Elem) (parts : List Nat), elemWindowOk s → byteWindowOk s →
    144 ≤ opN s → opN s ≤ 65536 → opEptr s + opN s ≤ opElim s →
    elems = readElems c s.e (opEptr s) (opN s) →
    parts = (List.range (opPcnt s + 1)).map (fun i => (readCell s.p i).toNat) →
    validParts parts (opN s - 16) = true →
    opBptr s + framedSize c (segments elems parts) ≤ opBlim s →
    ∃ t, exec (.encblk c true) s = .next t ∧ succeededWith t (framedSize c (segments elems parts)) ∧
      framedBlockAt c elems parts t.b (opBptr s) ∧
      bytesKeptOutside s t (opBptr s) (framedSize c (segments elems parts)) ∧
      t.e = s.e ∧ partsKept s t ∧ registersKept s t ∧ t.cur = s.cur ∧ t.work.cost = s.work.cost ∧
      t.work.refs = s.work.refs

/-- ENCBLK reports the first check that fails (43_block.md R210 to R213, 60_exceptions.md R284, R290, R292). -/
def Obligations.EncblkFirstFailedCheck : Prop :=
  ∀ (c : Codec) (pext : Bool) (s : State) (elems : List Elem) (parts host : List Nat),
    elems = readElems c s.e (opEptr s) (opN s) → parts = computePartition c (elems.take (opN s - 16)) →
    host = (List.range (opPcnt s + 1)).map (fun i => (readCell s.p i).toNat) →
    (¬(elemWindowOk s ∧ byteWindowOk s ∧ 1 ≤ opN s ∧ opN s ≤ 65536 ∧ opEptr s + opN s ≤ opElim s) →
      exec (.encblk c pext) s = .next (errorReport .arg s)) ∧
    ((elemWindowOk s ∧ byteWindowOk s ∧ 1 ≤ opN s ∧ opN s ≤ 65536 ∧ opEptr s + opN s ≤ opElim s) →
      (pext = true → 144 ≤ opN s → validParts host (opN s - 16) = false →
        exec (.encblk c pext) s = .next (errorReport .part s)) ∧
      (opN s < 144 → opBlim s < opBptr s + opN s * elemBytes c →
        ∃ t, exec (.encblk c pext) s = .next t ∧ encodeFailed s t .dstfull !pext) ∧
      (pext = false → 144 ≤ opN s → opBlim s < opBptr s + framedSize c (segments elems parts) →
        ∃ t, exec (.encblk c pext) s = .next t ∧ encodeFailed s t .dstfull true) ∧
      (pext = true → 144 ≤ opN s → validParts host (opN s - 16) = true →
        opBlim s < opBptr s + framedSize c (segments elems host) →
        ∃ t, exec (.encblk c pext) s = .next t ∧ encodeFailed s t .dstfull false))

/-- Every block ENCBLK writes is at most `Bound(c, N)` bytes, and a destination window of that many bytes never gives
`E_DSTFULL` (R216). -/
def Obligations.BlockSizeIsBounded : Prop :=
  ∀ (c : Codec) (pext : Bool) (s t : State), exec (.encblk c pext) s = .next t →
    (t.err = .ok → t.result.toNat ≤ 8 + 8 * cdiv (opN s) 65536 + (elemBytes c + 1) * opN s) ∧
    (opBptr s + (8 + 8 * cdiv (opN s) 65536 + (elemBytes c + 1) * opN s) ≤ opBlim s → t.err ≠ .dstfull)

/-! ## DECBLK and the control bytes -/

/-- DECBLK of fewer than 144 elements (43_block.md R218): the elements read big-endian. -/
def Obligations.DecblkReadsARawBlock : Prop :=
  ∀ (c : Codec) (s : State), elemWindowOk s → byteWindowOk s → 1 ≤ opN s → opN s < 144 →
    opEptr s + opN s ≤ opElim s → opBptr s + opN s * elemBytes c ≤ opBlim s →
    ∃ t, exec (.decblk c) s = .next t ∧ succeededWith t (opN s * elemBytes c) ∧
      (∀ k, k < opN s →
        (readCell t.e (opEptr s + k)).toNat = memRead s.b (opBptr s + k * elemBytes c) (elemBytes c)) ∧
      elemsKeptOutside s t (opEptr s) (opN s) ∧ t.b = s.b ∧ partsKept s t ∧ registersKept s t ∧ t.cur = s.cur ∧
      t.work = s.work

/-- DECBLK of 144 elements or more (43_block.md R219): with a header that passes its checks the decoder goes on to the
control bytes, with its cursors at the first of each. That the loop then runs one control byte a step is the model's
choice (log entry 5). -/
def Obligations.DecblkEntersAFramedBlock : Prop :=
  ∀ (c : Codec) (s : State), elemWindowOk s → byteWindowOk s → 144 ≤ opN s → opN s ≤ 65536 →
    opEptr s + opN s ≤ opElim s → opBptr s + 8 ≤ opBlim s →
    8 ≤ memRead s.b (opBptr s + 4) 4 →
    memRead s.b (opBptr s + 4) 4 + 16 * elemBytes c ≤ memRead s.b (opBptr s) 4 →
    opBptr s + memRead s.b (opBptr s) 4 ≤ opBlim s →
    exec (.decblk c) s = .next
      { s with
        phase := .control
        cur :=
          { codec := c, blk := opBptr s, slimit := opBptr s + memRead s.b (opBptr s) 4, dlimit := opEptr s + opN s,
            byte := opBptr s + memRead s.b (opBptr s + 4) 4, elem := opEptr s, idx := 0,
            parts := memRead s.b (opBptr s + 4) 4 - 8, rem := 0 } }

/-- DECBLK reports the first check that fails before its control bytes (43_block.md R217 to R219, R221, 60_exceptions.md R290,
R292): `E_ARG` changes nothing else, the others leave everything outside the destination window. -/
def Obligations.DecblkFirstFailedCheck : Prop :=
  ∀ (c : Codec) (s : State),
    (¬(elemWindowOk s ∧ byteWindowOk s ∧ 1 ≤ opN s ∧ opN s ≤ 65536) →
      exec (.decblk c) s = .next (errorReport .arg s)) ∧
    ((elemWindowOk s ∧ byteWindowOk s ∧ 1 ≤ opN s ∧ opN s ≤ 65536) →
      (opElim s < opEptr s + opN s → ∃ t, exec (.decblk c) s = .next t ∧ decodeFailed s t .dstfull) ∧
      (opEptr s + opN s ≤ opElim s →
        (opN s < 144 → opBlim s < opBptr s + opN s * elemBytes c →
          ∃ t, exec (.decblk c) s = .next t ∧ decodeFailed s t .srcshort) ∧
        (144 ≤ opN s → opBlim s < opBptr s + 8 →
          ∃ t, exec (.decblk c) s = .next t ∧ decodeFailed s t .srcshort) ∧
        (144 ≤ opN s → opBptr s + 8 ≤ opBlim s →
          ¬(8 ≤ memRead s.b (opBptr s + 4) 4 ∧
            memRead s.b (opBptr s + 4) 4 + 16 * elemBytes c ≤ memRead s.b (opBptr s) 4) →
          ∃ t, exec (.decblk c) s = .next t ∧ decodeFailed s t .frame) ∧
        (144 ≤ opN s → opBptr s + 8 ≤ opBlim s →
          (8 ≤ memRead s.b (opBptr s + 4) 4 ∧
            memRead s.b (opBptr s + 4) 4 + 16 * elemBytes c ≤ memRead s.b (opBptr s) 4) →
          opBlim s < opBptr s + memRead s.b (opBptr s) 4 →
          ∃ t, exec (.decblk c) s = .next t ∧ decodeFailed s t .srcshort)))

/-- Each of the sixteen unpackers, as a control byte of a framed block (43_block.md R219, 41_unpack.md R151): it writes the
fields of the partition's run, may clobber only the speculative cells below `dlimit`, and moves the cursors past the
run. One control byte a step is the model's choice (log entry 5). -/
def Obligations.ControlBytesDecodeTheirPartition : Prop :=
  ∀ (p : BitVec 4) (s : State) (l : Nat), l = partitionLength p →
    ∀ x ∈ [(Instr.unpack0 p, 0), (.unpack1 p, 1), (.unpack2 p, 2), (.unpack3 p, 3), (.unpack4 p, 4), (.unpack5 p, 5),
      (.unpack6 p, 6), (.unpack7 p, 7), (.unpack8 p, 8), (.unpack9 p, 9), (.unpack10 p, 10), (.unpack11 p, 11),
      (.unpack12 p, 12), (.unpack16 p, 16), (.unpack32 p, 32), (.unpack64 p, 64)],
      x.2 ∈ wset s.cur.codec → s.cur.byte + cdiv (l * x.2) 8 ≤ s.cur.slimit → s.cur.elem + l ≤ s.cur.dlimit →
      ∃ t, exec x.1 s = .next t ∧
        (∀ i, i < l → (readCell t.e (s.cur.elem + i)).toNat =
          sbits (readCells s.b s.cur.byte (cdiv (l * x.2) 8)) (i * x.2) x.2) ∧
        elemsKeptOutside s t s.cur.elem
          (min (s.cur.elem + (group x.2).2 * cdiv l (group x.2).2) s.cur.dlimit - s.cur.elem) ∧
        t.cur = { s.cur with byte := s.cur.byte + cdiv (l * x.2) 8, elem := s.cur.elem + l, idx := s.cur.idx + 1 } ∧
        t.phase = s.phase ∧ t.done = s.done ∧ t.err = s.err ∧ t.result = s.result ∧ t.b = s.b ∧ partsKept s t ∧
        registersKept s t ∧ t.work = s.work

/-- The checks of one control byte in order (43_block.md R219, 60_exceptions.md R288, R292): `E_CTRL`, `E_SRCSHORT`,
`E_DSTFULL`; the invalid nibble of codec-32 is `E_CTRL`. -/
def Obligations.ControlByteErrorsInOrder : Prop :=
  ∀ (p : BitVec 4) (s : State) (l : Nat), l = partitionLength p →
    (∃ t, exec (.ctrlInvalid p) s = .next t ∧ decodeFailed s t .ctrl) ∧
    ∀ x ∈ [(Instr.unpack0 p, 0), (.unpack1 p, 1), (.unpack2 p, 2), (.unpack3 p, 3), (.unpack4 p, 4), (.unpack5 p, 5),
      (.unpack6 p, 6), (.unpack7 p, 7), (.unpack8 p, 8), (.unpack9 p, 9), (.unpack10 p, 10), (.unpack11 p, 11),
      (.unpack12 p, 12), (.unpack16 p, 16), (.unpack32 p, 32), (.unpack64 p, 64)],
      (x.2 ∉ wset s.cur.codec → ∃ t, exec x.1 s = .next t ∧ decodeFailed s t .ctrl) ∧
      (x.2 ∈ wset s.cur.codec → s.cur.slimit < s.cur.byte + cdiv (l * x.2) 8 →
        ∃ t, exec x.1 s = .next t ∧ decodeFailed s t .srcshort) ∧
      (x.2 ∈ wset s.cur.codec → s.cur.byte + cdiv (l * x.2) 8 ≤ s.cur.slimit → s.cur.dlimit < s.cur.elem + l →
        ∃ t, exec x.1 s = .next t ∧ decodeFailed s t .dstfull)

/-- The end of a framed block (43_block.md R219, 44_frame.md R242): with the cursors where the tail must begin, the sixteen
tail elements, and then: where fewer than 144 elements of the stream follow, those as a raw block and COMPLETE with the
bytes read; where more follow, a framed block of at most 65536, entered when its header passes the checks; with the cursors
elsewhere, `E_FRAME`. That this is a step of its own is the model's choice (log entry 5). -/
def Obligations.TailEndsTheBlock : Prop :=
  ∀ s : State, s.host = [] → s.phase = .control → s.cur.parts ≤ s.cur.idx →
    ((s.cur.elem + 16 = s.cur.dlimit ∧ s.cur.byte + 16 * elemBytes s.cur.codec = s.cur.slimit) →
      s.cur.rem < 144 → s.cur.slimit + s.cur.rem * elemBytes s.cur.codec ≤ opBlim s →
      ∃ t, step s = .next t ∧
        succeededWith t (s.cur.slimit + s.cur.rem * elemBytes s.cur.codec - opBptr s) ∧
        (∀ k, k < 16 → (readCell t.e (s.cur.elem + k)).toNat =
          memRead s.b (s.cur.byte + k * elemBytes s.cur.codec) (elemBytes s.cur.codec)) ∧
        (∀ k, k < s.cur.rem → (readCell t.e (s.cur.dlimit + k)).toNat =
          memRead s.b (s.cur.slimit + k * elemBytes s.cur.codec) (elemBytes s.cur.codec)) ∧
        elemsKeptOutside s t s.cur.elem (16 + s.cur.rem) ∧ t.b = s.b ∧ partsKept s t ∧ registersKept s t ∧
        t.work = s.work) ∧
    ((s.cur.elem + 16 = s.cur.dlimit ∧ s.cur.byte + 16 * elemBytes s.cur.codec = s.cur.slimit) →
      144 ≤ s.cur.rem → s.cur.slimit + 8 ≤ opBlim s → 8 ≤ memRead s.b (s.cur.slimit + 4) 4 →
      memRead s.b (s.cur.slimit + 4) 4 + 16 * elemBytes s.cur.codec ≤ memRead s.b s.cur.slimit 4 →
      s.cur.slimit + memRead s.b s.cur.slimit 4 ≤ opBlim s →
      ∃ t, step s = .next t ∧
        t.cur =
          { codec := s.cur.codec, blk := s.cur.slimit, slimit := s.cur.slimit + memRead s.b s.cur.slimit 4,
            dlimit := s.cur.dlimit + min s.cur.rem 65536, byte := s.cur.slimit + memRead s.b (s.cur.slimit + 4) 4,
            elem := s.cur.dlimit, idx := 0, parts := memRead s.b (s.cur.slimit + 4) 4 - 8,
            rem := s.cur.rem - min s.cur.rem 65536 } ∧
        (∀ k, k < 16 → (readCell t.e (s.cur.elem + k)).toNat =
          memRead s.b (s.cur.byte + k * elemBytes s.cur.codec) (elemBytes s.cur.codec)) ∧
        elemsKeptOutside s t s.cur.elem 16 ∧ t.phase = .control ∧ t.done = s.done ∧ t.err = s.err ∧
        t.result = s.result ∧ t.b = s.b ∧ partsKept s t ∧ registersKept s t ∧ t.work = s.work) ∧
    (¬(s.cur.elem + 16 = s.cur.dlimit ∧ s.cur.byte + 16 * elemBytes s.cur.codec = s.cur.slimit) →
      ∃ t, step s = .next t ∧ decodeFailed s t .frame)

/-- The first check that fails where a further block of the stream begins, after a framed block with its tail in place
(44_frame.md R242, 43_block.md R218, R219, R221): an error ends the whole command, and nothing outside the destination
window changes. That this is a step of its own is the model's choice (log entry 5). -/
def Obligations.NextBlockFirstFailedCheck : Prop :=
  ∀ s : State, s.host = [] → s.phase = .control → cursorOk s → s.cur.parts ≤ s.cur.idx →
    (s.cur.elem + 16 = s.cur.dlimit ∧ s.cur.byte + 16 * elemBytes s.cur.codec = s.cur.slimit) →
    (s.cur.rem < 144 → opBlim s < s.cur.slimit + s.cur.rem * elemBytes s.cur.codec →
      ∃ t, step s = .next t ∧ decodeFailed s t .srcshort) ∧
    (144 ≤ s.cur.rem → opBlim s < s.cur.slimit + 8 → ∃ t, step s = .next t ∧ decodeFailed s t .srcshort) ∧
    (144 ≤ s.cur.rem → s.cur.slimit + 8 ≤ opBlim s →
      ¬(8 ≤ memRead s.b (s.cur.slimit + 4) 4 ∧
        memRead s.b (s.cur.slimit + 4) 4 + 16 * elemBytes s.cur.codec ≤ memRead s.b s.cur.slimit 4) →
      ∃ t, step s = .next t ∧ decodeFailed s t .frame) ∧
    (144 ≤ s.cur.rem → s.cur.slimit + 8 ≤ opBlim s →
      (8 ≤ memRead s.b (s.cur.slimit + 4) 4 ∧
        memRead s.b (s.cur.slimit + 4) 4 + 16 * elemBytes s.cur.codec ≤ memRead s.b s.cur.slimit 4) →
      opBlim s < s.cur.slimit + memRead s.b s.cur.slimit 4 →
      ∃ t, step s = .next t ∧ decodeFailed s t .srcshort)

/-- The block round trip (R222): DECBLK over the bytes of a block ENCBLK wrote, with the same family and count, succeeds with
the same `RESULT` and writes the same elements, and no other cell. -/
def Obligations.DecblkRestoresWhatEncblkWrote : Prop :=
  ∀ (c : Codec) (pext : Bool) (s t u : State), exec (.encblk c pext) s = .next t → t.err = .ok →
    u.phase = .command → u.host = [] → u.latch.cmd = commandWord 0x5#4 c false → u.latch.n = s.latch.n →
    elemWindowOk u → byteWindowOk u → opEptr u + opN u ≤ opElim u → opBptr u + t.result.toNat ≤ opBlim u →
    (∀ k, k < t.result.toNat → readCell u.b (opBptr u + k) = readCell t.b (opBptr s + k)) →
    ∃ (k : Nat) (v : State), Host.Core.run Sys2Proof.core k u = .next v ∧ succeededWith v t.result.toNat ∧
      (∀ i, i < opN s → readCell v.e (opEptr u + i) = readElem c s.e (opEptr s + i)) ∧
      elemsKeptOutside u v (opEptr u) (opN u) ∧ v.b = u.b ∧ partsKept u v ∧ registersKept u v

/-- After a successful block or frame decode no cell is unspecified (R217, R220, R242): the outcome is the same whatever free
values the unpackers drew. -/
def Obligations.DecodedCellsAreDetermined : Prop :=
  ∀ (c : Codec) (s t : State) (k f : Nat), s.host = [] → s.phase = .command →
    (s.latch.cmd = commandWord 0x5#4 c false ∨ s.latch.cmd = commandWord 0x7#4 c false) →
    Host.Core.run Sys2Proof.core k s = .next t → t.phase = .idle → t.err = .ok →
    ∃ v, Host.Core.run Sys2Proof.core k { s with fresh := f } = .next v ∧ v.phase = .idle ∧ v.err = .ok ∧
      v.result = t.result ∧ ∀ x, readCell v.e x = readCell t.e x

/-! ## ENCFRM, DECFRM, BOUND -/

/-- ENCFRM (44_frame.md R240, R241, 30_encoding.md R105): the magic, then the blocks of 65536 elements and the remainder, one
after another; where that does not fit, `E_DSTFULL`; where the source window is too short, `E_ARG`. That P-space and `PCNT`
stay where no framed block was encoded is the reading of log entry 20. -/
def Obligations.EncfrmWritesTheStream : Prop :=
  ∀ (c : Codec) (s : State) (bytes : List Byte),
    bytes = natToBytes 8 (magicNumber c) ++ (List.range (cdiv (opN s) 65536)).flatMap (fun k =>
      (encodeBlock c (readElems c s.e (opEptr s + 65536 * k) (min 65536 (opN s - 65536 * k))) s.work).bytes) →
    ((elemWindowOk s ∧ byteWindowOk s ∧ opEptr s + opN s ≤ opElim s) → opBptr s + bytes.length ≤ opBlim s →
      ∃ t, exec (.encfrm c) s = .next t ∧ succeededWith t bytes.length ∧
        readCells t.b (opBptr s) bytes.length = bytes ∧ bytesKeptOutside s t (opBptr s) bytes.length ∧
        (opN s < 144 → partsKept s t) ∧ t.e = s.e ∧ registersKept s t ∧ t.cur = s.cur) ∧
    ((elemWindowOk s ∧ byteWindowOk s ∧ opEptr s + opN s ≤ opElim s) → opBlim s < opBptr s + bytes.length →
      ∃ t, exec (.encfrm c) s = .next t ∧ encodeFailed s t .dstfull true) ∧
    (¬(elemWindowOk s ∧ byteWindowOk s ∧ opEptr s + opN s ≤ opElim s) →
      exec (.encfrm c) s = .next (errorReport .arg s))

/-- ENCFRM with a window of `Bound(c, N)` bytes never reports `E_DSTFULL`, and its `RESULT` is at most `Bound(c, N)` (R245). -/
def Obligations.StreamSizeIsBounded : Prop :=
  ∀ (c : Codec) (s t : State), exec (.encfrm c) s = .next t →
    opBptr s + (8 + 8 * cdiv (opN s) 65536 + (elemBytes c + 1) * opN s) ≤ opBlim s →
    t.err ≠ .dstfull ∧ t.result.toNat ≤ 8 + 8 * cdiv (opN s) 65536 + (elemBytes c + 1) * opN s

/-- DECFRM over a stream with the family's magic (44_frame.md R242): no element, `RESULT = 8`; fewer than 144, the raw block;
more, a framed block of at most 65536 elements is entered when its header passes the checks (one control byte a step is the
model's choice, log entry 5). -/
def Obligations.DecfrmReadsTheStream : Prop :=
  ∀ (c : Codec) (s : State), elemWindowOk s → byteWindowOk s → opEptr s + opN s ≤ opElim s →
    opBptr s + 8 ≤ opBlim s → memRead s.b (opBptr s) 8 = magicNumber c →
    (opN s < 144 → opBptr s + 8 + opN s * elemBytes c ≤ opBlim s →
      ∃ t, exec (.decfrm c) s = .next t ∧ succeededWith t (8 + opN s * elemBytes c) ∧
        (∀ k, k < opN s →
          (readCell t.e (opEptr s + k)).toNat = memRead s.b (opBptr s + 8 + k * elemBytes c) (elemBytes c)) ∧
        elemsKeptOutside s t (opEptr s) (opN s) ∧ t.b = s.b ∧ partsKept s t ∧ registersKept s t ∧ t.cur = s.cur ∧
        t.work = s.work) ∧
    (144 ≤ opN s → opBptr s + 16 ≤ opBlim s → 8 ≤ memRead s.b (opBptr s + 12) 4 →
      memRead s.b (opBptr s + 12) 4 + 16 * elemBytes c ≤ memRead s.b (opBptr s + 8) 4 →
      opBptr s + 8 + memRead s.b (opBptr s + 8) 4 ≤ opBlim s →
      exec (.decfrm c) s = .next
        { s with
          phase := .control
          cur :=
            { codec := c, blk := opBptr s + 8, slimit := opBptr s + 8 + memRead s.b (opBptr s + 8) 4,
              dlimit := opEptr s + min (opN s) 65536, byte := opBptr s + 8 + memRead s.b (opBptr s + 12) 4,
              elem := opEptr s, idx := 0, parts := memRead s.b (opBptr s + 12) 4 - 8,
              rem := opN s - min (opN s) 65536 } })

/-- DECFRM reports the first check that fails, up to the control bytes of its first block (44_frame.md R242, R247, 43_block.md
R218, R219, R221, 60_exceptions.md R286, R287, R289, R290, R292): a stream without the family's magic gives `E_MAGIC` and
`RESULT = 0`; after a good magic the first block, at byte `BPTR + 8`, is checked as DECBLK checks its block. -/
def Obligations.DecfrmFirstFailedCheck : Prop :=
  ∀ (c : Codec) (s : State),
    (¬(elemWindowOk s ∧ byteWindowOk s) → exec (.decfrm c) s = .next (errorReport .arg s)) ∧
    ((elemWindowOk s ∧ byteWindowOk s) → opElim s < opEptr s + opN s →
      ∃ t, exec (.decfrm c) s = .next t ∧ decodeFailed s t .dstfull) ∧
    ((elemWindowOk s ∧ byteWindowOk s ∧ opEptr s + opN s ≤ opElim s) → opBlim s < opBptr s + 8 →
      ∃ t, exec (.decfrm c) s = .next t ∧ decodeFailed s t .srcshort) ∧
    ((elemWindowOk s ∧ byteWindowOk s ∧ opEptr s + opN s ≤ opElim s ∧ opBptr s + 8 ≤ opBlim s) →
      memRead s.b (opBptr s) 8 ≠ magicNumber c →
      ∃ t, exec (.decfrm c) s = .next t ∧ decodeFailed s t .magic) ∧
    ((elemWindowOk s ∧ byteWindowOk s ∧ opEptr s + opN s ≤ opElim s ∧ opBptr s + 8 ≤ opBlim s ∧
        memRead s.b (opBptr s) 8 = magicNumber c) →
      (opN s < 144 → opBlim s < opBptr s + 8 + opN s * elemBytes c →
        ∃ t, exec (.decfrm c) s = .next t ∧ decodeFailed s t .srcshort) ∧
      (144 ≤ opN s → opBlim s < opBptr s + 16 →
        ∃ t, exec (.decfrm c) s = .next t ∧ decodeFailed s t .srcshort) ∧
      (144 ≤ opN s → opBptr s + 16 ≤ opBlim s →
        ¬(8 ≤ memRead s.b (opBptr s + 12) 4 ∧
          memRead s.b (opBptr s + 12) 4 + 16 * elemBytes c ≤ memRead s.b (opBptr s + 8) 4) →
        ∃ t, exec (.decfrm c) s = .next t ∧ decodeFailed s t .frame) ∧
      (144 ≤ opN s → opBptr s + 16 ≤ opBlim s →
        (8 ≤ memRead s.b (opBptr s + 12) 4 ∧
          memRead s.b (opBptr s + 12) 4 + 16 * elemBytes c ≤ memRead s.b (opBptr s + 8) 4) →
        opBlim s < opBptr s + 8 + memRead s.b (opBptr s + 8) 4 →
        ∃ t, exec (.decfrm c) s = .next t ∧ decodeFailed s t .srcshort))

/-- The frame round trip (R246): DECFRM over the bytes ENCFRM wrote, with the same family and count, succeeds with the same
`RESULT` and reproduces the elements. -/
def Obligations.DecfrmRestoresWhatEncfrmWrote : Prop :=
  ∀ (c : Codec) (s t u : State), exec (.encfrm c) s = .next t → t.err = .ok →
    u.phase = .command → u.host = [] → u.latch.cmd = commandWord 0x7#4 c false → u.latch.n = s.latch.n →
    elemWindowOk u → byteWindowOk u → opEptr u + opN u ≤ opElim u → opBptr u + t.result.toNat ≤ opBlim u →
    (∀ k, k < t.result.toNat → readCell u.b (opBptr u + k) = readCell t.b (opBptr s + k)) →
    ∃ (k : Nat) (v : State), Host.Core.run Sys2Proof.core k u = .next v ∧ succeededWith v t.result.toNat ∧
      (∀ i, i < opN s → readCell v.e (opEptr u + i) = readElem c s.e (opEptr s + i)) ∧
      elemsKeptOutside u v (opEptr u) (opN u) ∧ v.b = u.b ∧ partsKept u v ∧ registersKept u v

/-- BOUND (44_frame.md R244): the bound, or `E_ARG` where it does not fit 64 bits; no window is checked and nothing else
changes. -/
def Obligations.BoundIsTheFormula : Prop :=
  ∀ (c : Codec) (s : State) (v : Nat), v = 8 + 8 * cdiv (opN s) 65536 + (elemBytes c + 1) * opN s →
    (v < 2 ^ 64 →
      exec (.bound c) s = .next
        { s with phase := .idle, done := true, err := .ok, result := BitVec.ofNat 64 v }) ∧
    (2 ^ 64 ≤ v → exec (.bound c) s = .next (errorReport .arg s))
end

