-- ==== Sys2Proof/Laws/Bits.lean ====
section
/-! SUPPORT. Lengths and bounds of the codec's pure functions. -/

namespace Sys2Proof.Machine

@[simp] theorem length_natToBytes (n v : Nat) : (natToBytes n v).length = n := by simp [natToBytes]

@[simp] theorem length_packBits (s : List Elem) (w : Nat) : (packBits s w).length = runBytes s.length w := by
  simp [packBits]

@[simp] theorem length_unpackBits (r : List Byte) (w n : Nat) : (unpackBits r w n).length = n := by simp [unpackBits]

theorem length_rawBytes (c : Codec) (s : List Elem) : (rawBytes c s).length = s.length * elemBytes c := by
  induction s with
  | nil => simp [rawBytes]
  | cons x s ih =>
    have : (rawBytes c (x :: s)).length = elemBytes c + (rawBytes c s).length := by simp [rawBytes]
    rw [this, ih, List.length_cons, Nat.succ_mul, Nat.add_comm]

theorem bitsToNat_lt (f : Nat → Bool) (w : Nat) : bitsToNat f w < 2 ^ w := by
  induction w with
  | zero => simp [bitsToNat]
  | succ w ih =>
    simp only [bitsToNat, Nat.pow_succ]
    cases f w
    · simp; omega
    · simp; omega

/-- Bit `j` from the top of the number that `f` spells. -/
theorem testBit_bitsToNat (f : Nat → Bool) (w k : Nat) (h : k < w) : (bitsToNat f w).testBit k = f (w - 1 - k) := by
  induction w generalizing k with
  | zero => omega
  | succ w ih =>
    simp only [bitsToNat]
    cases k with
    | zero => cases hf : f w <;> simp [Nat.testBit_zero, hf]
    | succ k =>
      have e : (2 * bitsToNat f w + (f w).toNat) / 2 = bitsToNat f w := by
        have := Bool.toNat_lt (f w)
        omega
      rw [Nat.testBit_succ, e, ih k (by omega)]
      congr 1; omega

theorem elemBytes_pos (c : Codec) : 0 < elemBytes c := by cases c <;> decide

theorem elemWidth_eq (c : Codec) : elemWidth c = 8 * elemBytes c := by cases c <;> rfl

/-- What a list of checks that all hold means (R14). -/
theorem firstError_eq_ok (checks : List (Bool × Err)) (h : ∀ x ∈ checks, x.2 ≠ .ok) :
    firstError checks = .ok ↔ ∀ x ∈ checks, x.1 = true := by
  induction checks with
  | nil => simp [firstError]
  | cons x rest ih =>
    have ih := ih fun y hy => h y (by simp [hy])
    have hx := h x (by simp)
    obtain ⟨b, e⟩ := x
    cases b with
    | false => simpa [firstError] using hx
    | true => simpa [firstError] using ih

/-- The first check that fails decides, whatever follows it (R292). -/
theorem firstError_cons_false (e : Err) (rest : List (Bool × Err)) : firstError ((false, e) :: rest) = e := rfl

/-- A check that holds is passed over. -/
theorem firstError_cons_true (e : Err) (rest : List (Bool × Err)) :
    firstError ((true, e) :: rest) = firstError rest := rfl

/-- An error that the checks report is one of theirs. -/
theorem firstError_mem (checks : List (Bool × Err)) (h : firstError checks ≠ .ok) :
    ∃ x ∈ checks, x.1 = false ∧ x.2 = firstError checks := by
  induction checks with
  | nil => exact absurd rfl h
  | cons x rest ih =>
    obtain ⟨b, e⟩ := x
    cases b with
    | false => exact ⟨(false, e), by simp, rfl, rfl⟩
    | true =>
      rw [firstError_cons_true] at h ⊢
      obtain ⟨y, hy, h1, h2⟩ := ih h
      exact ⟨y, by simp [hy], h1, h2⟩

theorem length_slice (s : List Elem) (a b : Nat) : (slice s a b).length = min (b - a) (s.length - a) := by
  simp [slice]

@[simp] theorem length_segments (s : List Elem) (parts : List Nat) : (segments s parts).length = parts.length - 1 := by
  simp [segments]

/-- A step of the backtrack adds at most one boundary. -/
theorem length_backtrack_le (refs : List Nat) (fuel j : Nat) (parts : List Nat) :
    (backtrack refs fuel j parts).length ≤ fuel + parts.length := by
  induction fuel generalizing j parts with
  | zero => simp [backtrack]
  | succ k ih =>
    simp only [backtrack]
    split
    · omega
    · have := ih (refs.getD j 0) (refs.getD j 0 :: parts)
      simp only [List.length_cons] at this
      omega

/-- A computed table has at most one entry more than the block has elements (R191). -/
theorem length_computePartition_le (c : Codec) (s : List Elem) : (computePartition c s).length ≤ s.length + 1 := by
  have := length_backtrack_le (plan c s).refs s.length s.length [s.length]
  simpa [computePartition] using this

/-- The bytes of a framed block number `framedSize` where the block has its tail (R101). -/
theorem length_framedBytes (c : Codec) (s : List Elem) (parts : List Nat) (h : overrun ≤ s.length) :
    (framedBytes c s parts).length = framedSize c (segments s parts) := by
  have hsum : ∀ segs : List (List Elem), (segs.flatMap (segmentRun c)).length = dataBytes c segs := by
    intro segs
    induction segs with
    | nil => rfl
    | cons x xs ih => simp_all [dataBytes, segmentRun]
  have ht : (s.drop (s.length - overrun)).length = overrun := by simp; omega
  unfold framedBytes
  simp only [List.length_append, length_natToBytes, List.length_map, hsum, length_rawBytes, ht, framedSize]
  unfold overrun
  omega

/-- What the engine's own encoding of a block writes is as long as it says (R211, R213). -/
theorem length_encodeBlock (c : Codec) (s : List Elem) (k : Work) :
    (encodeBlock c s k).bytes.length = (encodeBlock c s k).size := by
  unfold encodeBlock
  split
  · exact length_rawBytes c s
  · rename_i h
    exact length_framedBytes c s _ (by unfold overrun; unfold rawThreshold at h; omega)

end Sys2Proof.Machine
end

