-- ==== Sys2Proof/Laws/Memory.lean ====
section
/-! SUPPORT. The laws of the three memories: a read after a write, and the canonical form. -/

namespace Sys2Proof.Machine

variable {w : Nat}

@[simp] theorem readCell_nil (a : Nat) : readCell ([] : Mem w) a = 0#w := rfl

theorem readCell_cons (x : Nat × BitVec w) (m : Mem w) (a : Nat) :
    readCell (x :: m) a = if x.1 = a then x.2 else readCell m a := rfl

theorem readCell_eq_zero_of_not_mem (m : Mem w) (a : Nat) (h : ∀ x ∈ m, x.1 ≠ a) : readCell m a = 0#w := by
  induction m with
  | nil => rfl
  | cons x m ih =>
    rw [readCell_cons, if_neg (h x (by simp)), ih fun y hy => h y (by simp [hy])]

theorem readCell_append_left (m m' : Mem w) (a : Nat) (h : ∀ x ∈ m', x.1 ≠ a) :
    readCell (m ++ m') a = readCell m a := by
  induction m with
  | nil => simpa using readCell_eq_zero_of_not_mem m' a h
  | cons x m ih => simp only [List.cons_append, readCell_cons, ih]

theorem readCell_append_right (m m' : Mem w) (a : Nat) (h : ∀ x ∈ m, x.1 ≠ a) :
    readCell (m ++ m') a = readCell m' a := by
  induction m with
  | nil => rfl
  | cons x m ih =>
    rw [List.cons_append, readCell_cons, if_neg (h x (by simp)), ih fun y hy => h y (by simp [hy])]

/-- Dropping entries of other indices does not change what a cell reads as. -/
theorem readCell_filter (m : Mem w) (p : Nat × BitVec w → Bool) (a : Nat) (h : ∀ v, p (a, v) = true) :
    readCell (m.filter p) a = readCell m a := by
  induction m with
  | nil => rfl
  | cons x m ih =>
    by_cases hx : p x = true
    · rw [List.filter_cons_of_pos hx, readCell_cons, readCell_cons, ih]
    · have : x.1 ≠ a := fun e => hx (by rw [← h x.2, ← e])
      rw [List.filter_cons_of_neg hx, readCell_cons, if_neg this, ih]

/-- The indices of listed cells lie in the range written. -/
theorem mem_cellsOf (vs : List (BitVec w)) (a : Nat) (x : Nat × BitVec w) (h : x ∈ cellsOf a vs) :
    a ≤ x.1 ∧ x.1 < a + vs.length ∧ x.2 ≠ 0#w := by
  induction vs generalizing a with
  | nil => simp [cellsOf] at h
  | cons v vs ih =>
    simp only [cellsOf] at h
    split at h
    · have := ih (a + 1) h
      simp only [List.length_cons]
      exact ⟨by omega, by omega, this.2.2⟩
    · rcases List.mem_cons.1 h with rfl | h
      · simp_all
      · have := ih (a + 1) h
        simp only [List.length_cons]
        exact ⟨by omega, by omega, this.2.2⟩

theorem readCell_cellsOf (vs : List (BitVec w)) (a i : Nat) :
    readCell (cellsOf a vs) i = if a ≤ i then vs.getD (i - a) 0 else 0 := by
  induction vs generalizing a with
  | nil => simp [cellsOf]
  | cons v vs ih =>
    rcases Nat.lt_trichotomy i a with h | rfl | h
    · rw [if_neg (by omega), readCell_eq_zero_of_not_mem]
      · rfl
      · intro x hx
        have := (mem_cellsOf _ _ _ hx).1
        omega
    · simp only [cellsOf, Nat.le_refl, if_true, Nat.sub_self, List.getD_cons_zero]
      split
      · rename_i hv
        rw [ih, if_neg (by omega), hv]; rfl
      · rw [readCell_cons, if_pos rfl]
    · obtain ⟨d, rfl⟩ : ∃ d, i = a + 1 + d := ⟨i - (a + 1), by omega⟩
      have e : a + 1 + d - a = d + 1 := by omega
      rw [if_pos (by omega), e, List.getD_cons_succ]
      simp only [cellsOf]
      split
      · rw [ih, if_pos (by omega)]; congr 1; omega
      · rw [readCell_cons, if_neg (by simp only; omega), ih, if_pos (by omega)]; congr 1; omega

/-- A read after a write: the written cells read as written, every other cell as before. -/
theorem readCell_writeCells (m : Mem w) (a : Nat) (vs : List (BitVec w)) (i : Nat) :
    readCell (writeCells m a vs) i = if a ≤ i ∧ i < a + vs.length then vs.getD (i - a) 0 else readCell m i := by
  unfold writeCells
  by_cases h1 : i < a
  · rw [if_neg (by omega), readCell_append_left, readCell_filter]
    · intro v; simpa using h1
    · intro x hx
      rcases List.mem_append.1 hx with hx | hx
      · have := (mem_cellsOf _ _ _ hx).1; omega
      · have := (List.mem_filter.1 hx).2; simp only [decide_eq_true_eq] at this; omega
  · rw [readCell_append_right]
    · by_cases h2 : i < a + vs.length
      · rw [if_pos ⟨by omega, h2⟩, readCell_append_left, readCell_cellsOf, if_pos (by omega)]
        intro x hx
        have := (List.mem_filter.1 hx).2; simp only [decide_eq_true_eq] at this; omega
      · rw [if_neg (by omega), readCell_append_right, readCell_filter]
        · intro v; simp only [decide_eq_true_eq]; omega
        · intro x hx
          have := (mem_cellsOf _ _ _ hx).2.1; omega
    · intro x hx
      have := (List.mem_filter.1 hx).2; simp only [decide_eq_true_eq] at this; omega

theorem readCell_writeCells_inside (m : Mem w) (a : Nat) (vs : List (BitVec w)) (k : Nat) (h : k < vs.length) :
    readCell (writeCells m a vs) (a + k) = vs.getD k 0 := by
  rw [readCell_writeCells, if_pos ⟨by omega, by omega⟩, Nat.add_sub_cancel_left]

theorem readCell_writeCells_outside (m : Mem w) (a : Nat) (vs : List (BitVec w)) (i : Nat)
    (h : ¬(a ≤ i ∧ i < a + vs.length)) : readCell (writeCells m a vs) i = readCell m i := by
  rw [readCell_writeCells, if_neg h]

theorem wfMem_nil : wfMem ([] : Mem w) := ⟨List.Pairwise.nil, by simp⟩

theorem wfMem_cellsOf (vs : List (BitVec w)) (a : Nat) : wfMem (cellsOf a vs) := by
  refine ⟨?_, fun x hx => (mem_cellsOf vs a x hx).2.2⟩
  induction vs generalizing a with
  | nil => exact List.Pairwise.nil
  | cons v vs ih =>
    simp only [cellsOf]
    split
    · exact ih _
    · refine List.Pairwise.cons (fun x hx => ?_) (ih _)
      have := (mem_cellsOf _ _ _ hx).1
      exact this

/-- A write keeps the canonical form. -/
theorem wfMem_writeCells (m : Mem w) (a : Nat) (vs : List (BitVec w)) (h : wfMem m) : wfMem (writeCells m a vs) := by
  have hc := wfMem_cellsOf vs a
  refine ⟨List.pairwise_append.2 ⟨h.1.filter _, List.pairwise_append.2 ⟨hc.1, h.1.filter _, ?_⟩, ?_⟩, ?_⟩
  · intro x hx y hy
    have h1 := (mem_cellsOf _ _ _ hx).2.1
    have h2 := (List.mem_filter.1 hy).2
    simp only [decide_eq_true_eq] at h2
    omega
  · intro x hx y hy
    have h1 := (List.mem_filter.1 hx).2
    simp only [decide_eq_true_eq] at h1
    rcases List.mem_append.1 hy with hy | hy
    · have := (mem_cellsOf _ _ _ hy).1; omega
    · have h2 := (List.mem_filter.1 hy).2
      simp only [decide_eq_true_eq] at h2
      omega
  · intro x hx
    rcases List.mem_append.1 hx with hx | hx
    · exact h.2 x (List.mem_of_mem_filter hx)
    · rcases List.mem_append.1 hx with hx | hx
      · exact hc.2 x hx
      · exact h.2 x (List.mem_of_mem_filter hx)

/-- `MemWrite` keeps the canonical form. -/
theorem wfMem_memWrite (m : Mem 8) (a n v : Nat) (h : wfMem m) : wfMem (memWrite m a n v) := wfMem_writeCells m a _ h

/-- A write below `size` adds no cell at or above it. -/
theorem writeCells_below (m : Mem w) (a size : Nat) (vs : List (BitVec w)) (h : ∀ x ∈ m, x.1 < size)
    (hs : a + vs.length ≤ size) : ∀ x ∈ writeCells m a vs, x.1 < size := by
  intro x hx
  rcases List.mem_append.1 hx with hx | hx
  · exact h x (List.mem_of_mem_filter hx)
  · rcases List.mem_append.1 hx with hx | hx
    · have := (mem_cellsOf _ _ _ hx).2.1; omega
    · exact h x (List.mem_of_mem_filter hx)

/-- Memories in canonical form are equal when every cell reads the same. -/
theorem eq_of_readCell_eq (m m' : Mem w) (h : wfMem m) (h' : wfMem m') (hr : ∀ a, readCell m a = readCell m' a) :
    m = m' := by
  induction m generalizing m' with
  | nil =>
    cases m' with
    | nil => rfl
    | cons y m' =>
      have := hr y.1
      rw [readCell_cons, if_pos rfl, readCell_nil] at this
      exact absurd this.symm (h'.2 y (by simp))
  | cons x m ih =>
    cases m' with
    | nil =>
      have := hr x.1
      rw [readCell_cons, if_pos rfl, readCell_nil] at this
      exact absurd this (h.2 x (by simp))
    | cons y m' =>
      obtain ⟨hx1, hx2⟩ := List.pairwise_cons.1 h.1
      obtain ⟨hy1, hy2⟩ := List.pairwise_cons.1 h'.1
      have e1 : x.1 = y.1 := by
        rcases Nat.lt_trichotomy x.1 y.1 with l | l | l
        · have := hr x.1
          rw [readCell_cons, if_pos rfl, readCell_cons, if_neg (by omega), readCell_eq_zero_of_not_mem] at this
          · exact absurd this (h.2 x (by simp))
          · intro z hz; have := hy1 z hz; omega
        · exact l
        · have := hr y.1
          rw [readCell_cons, if_neg (by omega), readCell_cons, if_pos rfl, readCell_eq_zero_of_not_mem] at this
          · exact absurd this.symm (h'.2 y (by simp))
          · intro z hz; have := hx1 z hz; omega
      have e2 : x.2 = y.2 := by
        have := hr x.1
        rwa [readCell_cons, if_pos rfl, readCell_cons, if_pos e1.symm] at this
      have e : x = y := Prod.ext e1 e2
      subst e
      congr 1
      refine ih m' ⟨hx2, fun z hz => h.2 z (by simp [hz])⟩ ⟨hy2, fun z hz => h'.2 z (by simp [hz])⟩ fun a => ?_
      by_cases ha : x.1 = a
      · rw [readCell_eq_zero_of_not_mem, readCell_eq_zero_of_not_mem]
        · intro z hz; have := hy1 z hz; omega
        · intro z hz; have := hx1 z hz; omega
      · have := hr a
        rwa [readCell_cons, if_neg ha, readCell_cons, if_neg ha] at this

@[simp] theorem length_readCells (m : Mem w) (a n : Nat) : (readCells m a n).length = n := by simp [readCells]

theorem getD_readCells (m : Mem w) (a n k : Nat) (h : k < n) : (readCells m a n).getD k 0 = readCell m (a + k) := by
  simp [readCells, List.getD, h]

/-- A block of cells read after it was written. -/
theorem readCells_writeCells (m : Mem w) (a : Nat) (vs : List (BitVec w)) :
    readCells (writeCells m a vs) a vs.length = vs := by
  apply List.ext_getElem
  · simp
  · intro k h1 h2
    simp only [readCells, List.getElem_map, List.getElem_range]
    rw [readCell_writeCells_inside m a vs k h2]
    simp [List.getD, h2]

/-- A block of cells that a write does not meet. -/
theorem readCells_writeCells_outside (m : Mem w) (a : Nat) (vs : List (BitVec w)) (i n : Nat)
    (h : i + n ≤ a ∨ a + vs.length ≤ i) : readCells (writeCells m a vs) i n = readCells m i n := by
  simp only [readCells]
  refine List.map_congr_left fun k hk => readCell_writeCells_outside m a vs (i + k) ?_
  have := List.mem_range.1 hk
  omega

@[simp] theorem length_freeElems (t a n : Nat) : (freeElems t a n).length = n := by simp [freeElems]
@[simp] theorem length_freeBytes (t a n : Nat) : (freeBytes t a n).length = n := by simp [freeBytes]
@[simp] theorem length_freeEntries (t a n : Nat) : (freeEntries t a n).length = n := by simp [freeEntries]
@[simp] theorem length_readElems (c : Codec) (m : Mem 64) (a n : Nat) : (readElems c m a n).length = n := by
  simp [readElems]
@[simp] theorem length_rawElems (c : Codec) (m : Mem 8) (a n : Nat) : (rawElems c m a n).length = n := by
  simp [rawElems]

end Sys2Proof.Machine
end

