-- ==== Sys2Proof/Laws/State.lean ====
section
/-! SUPPORT. What each field is after each of the shared updates: one lemma per field per update. -/

namespace Sys2Proof.Machine

@[simp] theorem start_phase (v : CmdWord) (s : State) : (start v s).phase = .command := rfl
@[simp] theorem start_cmd (v : CmdWord) (s : State) : (start v s).cmd = v := rfl
@[simp] theorem start_done (v : CmdWord) (s : State) : (start v s).done = false := rfl
@[simp] theorem start_err (v : CmdWord) (s : State) : (start v s).err = .ok := rfl
@[simp] theorem start_eptr (v : CmdWord) (s : State) : (start v s).eptr = s.eptr := rfl
@[simp] theorem start_elim (v : CmdWord) (s : State) : (start v s).elim = s.elim := rfl
@[simp] theorem start_bptr (v : CmdWord) (s : State) : (start v s).bptr = s.bptr := rfl
@[simp] theorem start_blim (v : CmdWord) (s : State) : (start v s).blim = s.blim := rfl
@[simp] theorem start_n (v : CmdWord) (s : State) : (start v s).n = s.n := rfl
@[simp] theorem start_w (v : CmdWord) (s : State) : (start v s).w = s.w := rfl
@[simp] theorem start_pcnt (v : CmdWord) (s : State) : (start v s).pcnt = s.pcnt := rfl
@[simp] theorem start_result (v : CmdWord) (s : State) : (start v s).result = s.result := rfl
@[simp] theorem start_e (v : CmdWord) (s : State) : (start v s).e = s.e := rfl
@[simp] theorem start_b (v : CmdWord) (s : State) : (start v s).b = s.b := rfl
@[simp] theorem start_p (v : CmdWord) (s : State) : (start v s).p = s.p := rfl
@[simp] theorem start_latch (v : CmdWord) (s : State) : (start v s).latch = { cmd := v, eptr := s.eptr, elim := s.elim, bptr := s.bptr, blim := s.blim, n := s.n, w := s.w, pcnt := s.pcnt } := rfl
@[simp] theorem start_cur (v : CmdWord) (s : State) : (start v s).cur = startCursor v s := rfl
@[simp] theorem start_work (v : CmdWord) (s : State) : (start v s).work = Work.zero := rfl
/-- START keeps nothing of an earlier command (R268). -/
theorem start_forgets_hidden (v : CmdWord) (s : State) (l : Latch) (k : Cursor) (h : Work) :
    start v { s with latch := l, cur := k, work := h } = start v s := rfl
@[simp] theorem start_ememSize (v : CmdWord) (s : State) : (start v s).ememSize = s.ememSize := rfl
@[simp] theorem start_bmemSize (v : CmdWord) (s : State) : (start v s).bmemSize = s.bmemSize := rfl
@[simp] theorem start_fresh (v : CmdWord) (s : State) : (start v s).fresh = s.fresh := rfl
@[simp] theorem start_host (v : CmdWord) (s : State) : (start v s).host = s.host := rfl
@[simp] theorem start_hostData (v : CmdWord) (s : State) : (start v s).hostData = s.hostData := rfl

@[simp] theorem finish_phase (e : Err) (r : BitVec 64) (s : State) : (finish e r s).phase = .idle := rfl
@[simp] theorem finish_cmd (e : Err) (r : BitVec 64) (s : State) : (finish e r s).cmd = s.cmd := rfl
@[simp] theorem finish_done (e : Err) (r : BitVec 64) (s : State) : (finish e r s).done = true := rfl
@[simp] theorem finish_err (e : Err) (r : BitVec 64) (s : State) : (finish e r s).err = e := rfl
@[simp] theorem finish_eptr (e : Err) (r : BitVec 64) (s : State) : (finish e r s).eptr = s.eptr := rfl
@[simp] theorem finish_elim (e : Err) (r : BitVec 64) (s : State) : (finish e r s).elim = s.elim := rfl
@[simp] theorem finish_bptr (e : Err) (r : BitVec 64) (s : State) : (finish e r s).bptr = s.bptr := rfl
@[simp] theorem finish_blim (e : Err) (r : BitVec 64) (s : State) : (finish e r s).blim = s.blim := rfl
@[simp] theorem finish_n (e : Err) (r : BitVec 64) (s : State) : (finish e r s).n = s.n := rfl
@[simp] theorem finish_w (e : Err) (r : BitVec 64) (s : State) : (finish e r s).w = s.w := rfl
@[simp] theorem finish_pcnt (e : Err) (r : BitVec 64) (s : State) : (finish e r s).pcnt = s.pcnt := rfl
@[simp] theorem finish_result (e : Err) (r : BitVec 64) (s : State) : (finish e r s).result = r := rfl
@[simp] theorem finish_e (e : Err) (r : BitVec 64) (s : State) : (finish e r s).e = s.e := rfl
@[simp] theorem finish_b (e : Err) (r : BitVec 64) (s : State) : (finish e r s).b = s.b := rfl
@[simp] theorem finish_p (e : Err) (r : BitVec 64) (s : State) : (finish e r s).p = s.p := rfl
@[simp] theorem finish_latch (e : Err) (r : BitVec 64) (s : State) : (finish e r s).latch = s.latch := rfl
@[simp] theorem finish_cur (e : Err) (r : BitVec 64) (s : State) : (finish e r s).cur = s.cur := rfl
@[simp] theorem finish_work (e : Err) (r : BitVec 64) (s : State) : (finish e r s).work = s.work := rfl
@[simp] theorem finish_ememSize (e : Err) (r : BitVec 64) (s : State) : (finish e r s).ememSize = s.ememSize := rfl
@[simp] theorem finish_bmemSize (e : Err) (r : BitVec 64) (s : State) : (finish e r s).bmemSize = s.bmemSize := rfl
@[simp] theorem finish_fresh (e : Err) (r : BitVec 64) (s : State) : (finish e r s).fresh = s.fresh := rfl
@[simp] theorem finish_host (e : Err) (r : BitVec 64) (s : State) : (finish e r s).host = s.host := rfl
@[simp] theorem finish_hostData (e : Err) (r : BitVec 64) (s : State) : (finish e r s).hostData = s.hostData := rfl

@[simp] theorem complete_phase (r : Nat) (s : State) : (complete r s).phase = .idle := rfl
@[simp] theorem complete_cmd (r : Nat) (s : State) : (complete r s).cmd = s.cmd := rfl
@[simp] theorem complete_done (r : Nat) (s : State) : (complete r s).done = true := rfl
@[simp] theorem complete_err (r : Nat) (s : State) : (complete r s).err = .ok := rfl
@[simp] theorem complete_eptr (r : Nat) (s : State) : (complete r s).eptr = s.eptr := rfl
@[simp] theorem complete_elim (r : Nat) (s : State) : (complete r s).elim = s.elim := rfl
@[simp] theorem complete_bptr (r : Nat) (s : State) : (complete r s).bptr = s.bptr := rfl
@[simp] theorem complete_blim (r : Nat) (s : State) : (complete r s).blim = s.blim := rfl
@[simp] theorem complete_n (r : Nat) (s : State) : (complete r s).n = s.n := rfl
@[simp] theorem complete_w (r : Nat) (s : State) : (complete r s).w = s.w := rfl
@[simp] theorem complete_pcnt (r : Nat) (s : State) : (complete r s).pcnt = s.pcnt := rfl
@[simp] theorem complete_result (r : Nat) (s : State) : (complete r s).result = BitVec.ofNat 64 r := rfl
@[simp] theorem complete_e (r : Nat) (s : State) : (complete r s).e = s.e := rfl
@[simp] theorem complete_b (r : Nat) (s : State) : (complete r s).b = s.b := rfl
@[simp] theorem complete_p (r : Nat) (s : State) : (complete r s).p = s.p := rfl
@[simp] theorem complete_latch (r : Nat) (s : State) : (complete r s).latch = s.latch := rfl
@[simp] theorem complete_cur (r : Nat) (s : State) : (complete r s).cur = s.cur := rfl
@[simp] theorem complete_work (r : Nat) (s : State) : (complete r s).work = s.work := rfl
@[simp] theorem complete_ememSize (r : Nat) (s : State) : (complete r s).ememSize = s.ememSize := rfl
@[simp] theorem complete_bmemSize (r : Nat) (s : State) : (complete r s).bmemSize = s.bmemSize := rfl
@[simp] theorem complete_fresh (r : Nat) (s : State) : (complete r s).fresh = s.fresh := rfl
@[simp] theorem complete_host (r : Nat) (s : State) : (complete r s).host = s.host := rfl
@[simp] theorem complete_hostData (r : Nat) (s : State) : (complete r s).hostData = s.hostData := rfl

@[simp] theorem havocElems_phase (a k : Nat) (s : State) : (havocElems a k s).phase = s.phase := rfl
@[simp] theorem havocElems_cmd (a k : Nat) (s : State) : (havocElems a k s).cmd = s.cmd := rfl
@[simp] theorem havocElems_done (a k : Nat) (s : State) : (havocElems a k s).done = s.done := rfl
@[simp] theorem havocElems_err (a k : Nat) (s : State) : (havocElems a k s).err = s.err := rfl
@[simp] theorem havocElems_eptr (a k : Nat) (s : State) : (havocElems a k s).eptr = s.eptr := rfl
@[simp] theorem havocElems_elim (a k : Nat) (s : State) : (havocElems a k s).elim = s.elim := rfl
@[simp] theorem havocElems_bptr (a k : Nat) (s : State) : (havocElems a k s).bptr = s.bptr := rfl
@[simp] theorem havocElems_blim (a k : Nat) (s : State) : (havocElems a k s).blim = s.blim := rfl
@[simp] theorem havocElems_n (a k : Nat) (s : State) : (havocElems a k s).n = s.n := rfl
@[simp] theorem havocElems_w (a k : Nat) (s : State) : (havocElems a k s).w = s.w := rfl
@[simp] theorem havocElems_pcnt (a k : Nat) (s : State) : (havocElems a k s).pcnt = s.pcnt := rfl
@[simp] theorem havocElems_result (a k : Nat) (s : State) : (havocElems a k s).result = s.result := rfl
@[simp] theorem havocElems_e (a k : Nat) (s : State) : (havocElems a k s).e = writeCells s.e a (freeElems s.fresh a k) := rfl
@[simp] theorem havocElems_b (a k : Nat) (s : State) : (havocElems a k s).b = s.b := rfl
@[simp] theorem havocElems_p (a k : Nat) (s : State) : (havocElems a k s).p = s.p := rfl
@[simp] theorem havocElems_latch (a k : Nat) (s : State) : (havocElems a k s).latch = s.latch := rfl
@[simp] theorem havocElems_cur (a k : Nat) (s : State) : (havocElems a k s).cur = s.cur := rfl
@[simp] theorem havocElems_work (a k : Nat) (s : State) : (havocElems a k s).work = s.work := rfl
@[simp] theorem havocElems_ememSize (a k : Nat) (s : State) : (havocElems a k s).ememSize = s.ememSize := rfl
@[simp] theorem havocElems_bmemSize (a k : Nat) (s : State) : (havocElems a k s).bmemSize = s.bmemSize := rfl
@[simp] theorem havocElems_fresh (a k : Nat) (s : State) : (havocElems a k s).fresh = s.fresh + 1 := rfl
@[simp] theorem havocElems_host (a k : Nat) (s : State) : (havocElems a k s).host = s.host := rfl
@[simp] theorem havocElems_hostData (a k : Nat) (s : State) : (havocElems a k s).hostData = s.hostData := rfl

@[simp] theorem havocBytes_phase (a k : Nat) (s : State) : (havocBytes a k s).phase = s.phase := rfl
@[simp] theorem havocBytes_cmd (a k : Nat) (s : State) : (havocBytes a k s).cmd = s.cmd := rfl
@[simp] theorem havocBytes_done (a k : Nat) (s : State) : (havocBytes a k s).done = s.done := rfl
@[simp] theorem havocBytes_err (a k : Nat) (s : State) : (havocBytes a k s).err = s.err := rfl
@[simp] theorem havocBytes_eptr (a k : Nat) (s : State) : (havocBytes a k s).eptr = s.eptr := rfl
@[simp] theorem havocBytes_elim (a k : Nat) (s : State) : (havocBytes a k s).elim = s.elim := rfl
@[simp] theorem havocBytes_bptr (a k : Nat) (s : State) : (havocBytes a k s).bptr = s.bptr := rfl
@[simp] theorem havocBytes_blim (a k : Nat) (s : State) : (havocBytes a k s).blim = s.blim := rfl
@[simp] theorem havocBytes_n (a k : Nat) (s : State) : (havocBytes a k s).n = s.n := rfl
@[simp] theorem havocBytes_w (a k : Nat) (s : State) : (havocBytes a k s).w = s.w := rfl
@[simp] theorem havocBytes_pcnt (a k : Nat) (s : State) : (havocBytes a k s).pcnt = s.pcnt := rfl
@[simp] theorem havocBytes_result (a k : Nat) (s : State) : (havocBytes a k s).result = s.result := rfl
@[simp] theorem havocBytes_e (a k : Nat) (s : State) : (havocBytes a k s).e = s.e := rfl
@[simp] theorem havocBytes_b (a k : Nat) (s : State) : (havocBytes a k s).b = writeCells s.b a (freeBytes s.fresh a k) := rfl
@[simp] theorem havocBytes_p (a k : Nat) (s : State) : (havocBytes a k s).p = s.p := rfl
@[simp] theorem havocBytes_latch (a k : Nat) (s : State) : (havocBytes a k s).latch = s.latch := rfl
@[simp] theorem havocBytes_cur (a k : Nat) (s : State) : (havocBytes a k s).cur = s.cur := rfl
@[simp] theorem havocBytes_work (a k : Nat) (s : State) : (havocBytes a k s).work = s.work := rfl
@[simp] theorem havocBytes_ememSize (a k : Nat) (s : State) : (havocBytes a k s).ememSize = s.ememSize := rfl
@[simp] theorem havocBytes_bmemSize (a k : Nat) (s : State) : (havocBytes a k s).bmemSize = s.bmemSize := rfl
@[simp] theorem havocBytes_fresh (a k : Nat) (s : State) : (havocBytes a k s).fresh = s.fresh + 1 := rfl
@[simp] theorem havocBytes_host (a k : Nat) (s : State) : (havocBytes a k s).host = s.host := rfl
@[simp] theorem havocBytes_hostData (a k : Nat) (s : State) : (havocBytes a k s).hostData = s.hostData := rfl

@[simp] theorem havocParts_phase (s : State) : (havocParts s).phase = s.phase := rfl
@[simp] theorem havocParts_cmd (s : State) : (havocParts s).cmd = s.cmd := rfl
@[simp] theorem havocParts_done (s : State) : (havocParts s).done = s.done := rfl
@[simp] theorem havocParts_err (s : State) : (havocParts s).err = s.err := rfl
@[simp] theorem havocParts_eptr (s : State) : (havocParts s).eptr = s.eptr := rfl
@[simp] theorem havocParts_elim (s : State) : (havocParts s).elim = s.elim := rfl
@[simp] theorem havocParts_bptr (s : State) : (havocParts s).bptr = s.bptr := rfl
@[simp] theorem havocParts_blim (s : State) : (havocParts s).blim = s.blim := rfl
@[simp] theorem havocParts_n (s : State) : (havocParts s).n = s.n := rfl
@[simp] theorem havocParts_w (s : State) : (havocParts s).w = s.w := rfl
@[simp] theorem havocParts_pcnt (s : State) : (havocParts s).pcnt = Config.freePcnt s.fresh := rfl
@[simp] theorem havocParts_result (s : State) : (havocParts s).result = s.result := rfl
@[simp] theorem havocParts_e (s : State) : (havocParts s).e = s.e := rfl
@[simp] theorem havocParts_b (s : State) : (havocParts s).b = s.b := rfl
@[simp] theorem havocParts_p (s : State) : (havocParts s).p = writeCells s.p 0 (freeEntries s.fresh 0 pmemSize) := rfl
@[simp] theorem havocParts_latch (s : State) : (havocParts s).latch = s.latch := rfl
@[simp] theorem havocParts_cur (s : State) : (havocParts s).cur = s.cur := rfl
@[simp] theorem havocParts_work (s : State) : (havocParts s).work = s.work := rfl
@[simp] theorem havocParts_ememSize (s : State) : (havocParts s).ememSize = s.ememSize := rfl
@[simp] theorem havocParts_bmemSize (s : State) : (havocParts s).bmemSize = s.bmemSize := rfl
@[simp] theorem havocParts_fresh (s : State) : (havocParts s).fresh = s.fresh + 1 := rfl
@[simp] theorem havocParts_host (s : State) : (havocParts s).host = s.host := rfl
@[simp] theorem havocParts_hostData (s : State) : (havocParts s).hostData = s.hostData := rfl

@[simp] theorem unpackCells_phase (v k b0 e0 lim : Nat) (s : State) : (unpackCells v k b0 e0 lim s).phase = s.phase := rfl
@[simp] theorem unpackCells_cmd (v k b0 e0 lim : Nat) (s : State) : (unpackCells v k b0 e0 lim s).cmd = s.cmd := rfl
@[simp] theorem unpackCells_done (v k b0 e0 lim : Nat) (s : State) : (unpackCells v k b0 e0 lim s).done = s.done := rfl
@[simp] theorem unpackCells_err (v k b0 e0 lim : Nat) (s : State) : (unpackCells v k b0 e0 lim s).err = s.err := rfl
@[simp] theorem unpackCells_eptr (v k b0 e0 lim : Nat) (s : State) : (unpackCells v k b0 e0 lim s).eptr = s.eptr := rfl
@[simp] theorem unpackCells_elim (v k b0 e0 lim : Nat) (s : State) : (unpackCells v k b0 e0 lim s).elim = s.elim := rfl
@[simp] theorem unpackCells_bptr (v k b0 e0 lim : Nat) (s : State) : (unpackCells v k b0 e0 lim s).bptr = s.bptr := rfl
@[simp] theorem unpackCells_blim (v k b0 e0 lim : Nat) (s : State) : (unpackCells v k b0 e0 lim s).blim = s.blim := rfl
@[simp] theorem unpackCells_n (v k b0 e0 lim : Nat) (s : State) : (unpackCells v k b0 e0 lim s).n = s.n := rfl
@[simp] theorem unpackCells_w (v k b0 e0 lim : Nat) (s : State) : (unpackCells v k b0 e0 lim s).w = s.w := rfl
@[simp] theorem unpackCells_pcnt (v k b0 e0 lim : Nat) (s : State) : (unpackCells v k b0 e0 lim s).pcnt = s.pcnt := rfl
@[simp] theorem unpackCells_result (v k b0 e0 lim : Nat) (s : State) : (unpackCells v k b0 e0 lim s).result = s.result := rfl
@[simp] theorem unpackCells_e (v k b0 e0 lim : Nat) (s : State) : (unpackCells v k b0 e0 lim s).e = writeCells s.e e0 (unpackBits (readCells s.b b0 (runBytes k v)) v k ++ freeElems s.fresh (e0 + k) (specEnd v k e0 lim - (e0 + k))) := rfl
@[simp] theorem unpackCells_b (v k b0 e0 lim : Nat) (s : State) : (unpackCells v k b0 e0 lim s).b = s.b := rfl
@[simp] theorem unpackCells_p (v k b0 e0 lim : Nat) (s : State) : (unpackCells v k b0 e0 lim s).p = s.p := rfl
@[simp] theorem unpackCells_latch (v k b0 e0 lim : Nat) (s : State) : (unpackCells v k b0 e0 lim s).latch = s.latch := rfl
@[simp] theorem unpackCells_cur (v k b0 e0 lim : Nat) (s : State) : (unpackCells v k b0 e0 lim s).cur = s.cur := rfl
@[simp] theorem unpackCells_work (v k b0 e0 lim : Nat) (s : State) : (unpackCells v k b0 e0 lim s).work = s.work := rfl
@[simp] theorem unpackCells_ememSize (v k b0 e0 lim : Nat) (s : State) : (unpackCells v k b0 e0 lim s).ememSize = s.ememSize := rfl
@[simp] theorem unpackCells_bmemSize (v k b0 e0 lim : Nat) (s : State) : (unpackCells v k b0 e0 lim s).bmemSize = s.bmemSize := rfl
@[simp] theorem unpackCells_fresh (v k b0 e0 lim : Nat) (s : State) : (unpackCells v k b0 e0 lim s).fresh = s.fresh + 1 := rfl
@[simp] theorem unpackCells_host (v k b0 e0 lim : Nat) (s : State) : (unpackCells v k b0 e0 lim s).host = s.host := rfl
@[simp] theorem unpackCells_hostData (v k b0 e0 lim : Nat) (s : State) : (unpackCells v k b0 e0 lim s).hostData = s.hostData := rfl

@[simp] theorem storeParts_phase (t : List Nat) (s : State) : (storeParts t s).phase = s.phase := rfl
@[simp] theorem storeParts_cmd (t : List Nat) (s : State) : (storeParts t s).cmd = s.cmd := rfl
@[simp] theorem storeParts_done (t : List Nat) (s : State) : (storeParts t s).done = s.done := rfl
@[simp] theorem storeParts_err (t : List Nat) (s : State) : (storeParts t s).err = s.err := rfl
@[simp] theorem storeParts_eptr (t : List Nat) (s : State) : (storeParts t s).eptr = s.eptr := rfl
@[simp] theorem storeParts_elim (t : List Nat) (s : State) : (storeParts t s).elim = s.elim := rfl
@[simp] theorem storeParts_bptr (t : List Nat) (s : State) : (storeParts t s).bptr = s.bptr := rfl
@[simp] theorem storeParts_blim (t : List Nat) (s : State) : (storeParts t s).blim = s.blim := rfl
@[simp] theorem storeParts_n (t : List Nat) (s : State) : (storeParts t s).n = s.n := rfl
@[simp] theorem storeParts_w (t : List Nat) (s : State) : (storeParts t s).w = s.w := rfl
@[simp] theorem storeParts_pcnt (t : List Nat) (s : State) : (storeParts t s).pcnt = BitVec.ofNat 17 (t.length - 1) := rfl
@[simp] theorem storeParts_result (t : List Nat) (s : State) : (storeParts t s).result = s.result := rfl
@[simp] theorem storeParts_e (t : List Nat) (s : State) : (storeParts t s).e = s.e := rfl
@[simp] theorem storeParts_b (t : List Nat) (s : State) : (storeParts t s).b = s.b := rfl
@[simp] theorem storeParts_p (t : List Nat) (s : State) : (storeParts t s).p = writeCells s.p 0 (t.map (BitVec.ofNat 17) ++ freeEntries s.fresh t.length (pmemSize - t.length)) := rfl
@[simp] theorem storeParts_latch (t : List Nat) (s : State) : (storeParts t s).latch = s.latch := rfl
@[simp] theorem storeParts_cur (t : List Nat) (s : State) : (storeParts t s).cur = s.cur := rfl
@[simp] theorem storeParts_work (t : List Nat) (s : State) : (storeParts t s).work = s.work := rfl
@[simp] theorem storeParts_ememSize (t : List Nat) (s : State) : (storeParts t s).ememSize = s.ememSize := rfl
@[simp] theorem storeParts_bmemSize (t : List Nat) (s : State) : (storeParts t s).bmemSize = s.bmemSize := rfl
@[simp] theorem storeParts_fresh (t : List Nat) (s : State) : (storeParts t s).fresh = s.fresh + 1 := rfl
@[simp] theorem storeParts_host (t : List Nat) (s : State) : (storeParts t s).host = s.host := rfl
@[simp] theorem storeParts_hostData (t : List Nat) (s : State) : (storeParts t s).hostData = s.hostData := rfl

@[simp] theorem decodeRaw_phase (c : Codec) (k b0 e0 : Nat) (s : State) : (decodeRaw c k b0 e0 s).phase = s.phase := rfl
@[simp] theorem decodeRaw_cmd (c : Codec) (k b0 e0 : Nat) (s : State) : (decodeRaw c k b0 e0 s).cmd = s.cmd := rfl
@[simp] theorem decodeRaw_done (c : Codec) (k b0 e0 : Nat) (s : State) : (decodeRaw c k b0 e0 s).done = s.done := rfl
@[simp] theorem decodeRaw_err (c : Codec) (k b0 e0 : Nat) (s : State) : (decodeRaw c k b0 e0 s).err = s.err := rfl
@[simp] theorem decodeRaw_eptr (c : Codec) (k b0 e0 : Nat) (s : State) : (decodeRaw c k b0 e0 s).eptr = s.eptr := rfl
@[simp] theorem decodeRaw_elim (c : Codec) (k b0 e0 : Nat) (s : State) : (decodeRaw c k b0 e0 s).elim = s.elim := rfl
@[simp] theorem decodeRaw_bptr (c : Codec) (k b0 e0 : Nat) (s : State) : (decodeRaw c k b0 e0 s).bptr = s.bptr := rfl
@[simp] theorem decodeRaw_blim (c : Codec) (k b0 e0 : Nat) (s : State) : (decodeRaw c k b0 e0 s).blim = s.blim := rfl
@[simp] theorem decodeRaw_n (c : Codec) (k b0 e0 : Nat) (s : State) : (decodeRaw c k b0 e0 s).n = s.n := rfl
@[simp] theorem decodeRaw_w (c : Codec) (k b0 e0 : Nat) (s : State) : (decodeRaw c k b0 e0 s).w = s.w := rfl
@[simp] theorem decodeRaw_pcnt (c : Codec) (k b0 e0 : Nat) (s : State) : (decodeRaw c k b0 e0 s).pcnt = s.pcnt := rfl
@[simp] theorem decodeRaw_result (c : Codec) (k b0 e0 : Nat) (s : State) : (decodeRaw c k b0 e0 s).result = s.result := rfl
@[simp] theorem decodeRaw_e (c : Codec) (k b0 e0 : Nat) (s : State) : (decodeRaw c k b0 e0 s).e = writeCells s.e e0 (rawElems c s.b b0 k) := rfl
@[simp] theorem decodeRaw_b (c : Codec) (k b0 e0 : Nat) (s : State) : (decodeRaw c k b0 e0 s).b = s.b := rfl
@[simp] theorem decodeRaw_p (c : Codec) (k b0 e0 : Nat) (s : State) : (decodeRaw c k b0 e0 s).p = s.p := rfl
@[simp] theorem decodeRaw_latch (c : Codec) (k b0 e0 : Nat) (s : State) : (decodeRaw c k b0 e0 s).latch = s.latch := rfl
@[simp] theorem decodeRaw_cur (c : Codec) (k b0 e0 : Nat) (s : State) : (decodeRaw c k b0 e0 s).cur = s.cur := rfl
@[simp] theorem decodeRaw_work (c : Codec) (k b0 e0 : Nat) (s : State) : (decodeRaw c k b0 e0 s).work = s.work := rfl
@[simp] theorem decodeRaw_ememSize (c : Codec) (k b0 e0 : Nat) (s : State) : (decodeRaw c k b0 e0 s).ememSize = s.ememSize := rfl
@[simp] theorem decodeRaw_bmemSize (c : Codec) (k b0 e0 : Nat) (s : State) : (decodeRaw c k b0 e0 s).bmemSize = s.bmemSize := rfl
@[simp] theorem decodeRaw_fresh (c : Codec) (k b0 e0 : Nat) (s : State) : (decodeRaw c k b0 e0 s).fresh = s.fresh := rfl
@[simp] theorem decodeRaw_host (c : Codec) (k b0 e0 : Nat) (s : State) : (decodeRaw c k b0 e0 s).host = s.host := rfl
@[simp] theorem decodeRaw_hostData (c : Codec) (k b0 e0 : Nat) (s : State) : (decodeRaw c k b0 e0 s).hostData = s.hostData := rfl

/-! The destination of a failed command (R290, R291): what becoming unspecified leaves alone. -/

@[simp] theorem havocDest_cmd (d : Dest) (s : State) : (havocDest d s).cmd = s.cmd := by
  cases d with
  | unchanged => rfl
  | bytes x => cases x <;> rfl
  | elems => rfl
@[simp] theorem havocDest_eptr (d : Dest) (s : State) : (havocDest d s).eptr = s.eptr := by
  cases d with
  | unchanged => rfl
  | bytes x => cases x <;> rfl
  | elems => rfl
@[simp] theorem havocDest_elim (d : Dest) (s : State) : (havocDest d s).elim = s.elim := by
  cases d with
  | unchanged => rfl
  | bytes x => cases x <;> rfl
  | elems => rfl
@[simp] theorem havocDest_bptr (d : Dest) (s : State) : (havocDest d s).bptr = s.bptr := by
  cases d with
  | unchanged => rfl
  | bytes x => cases x <;> rfl
  | elems => rfl
@[simp] theorem havocDest_blim (d : Dest) (s : State) : (havocDest d s).blim = s.blim := by
  cases d with
  | unchanged => rfl
  | bytes x => cases x <;> rfl
  | elems => rfl
@[simp] theorem havocDest_n (d : Dest) (s : State) : (havocDest d s).n = s.n := by
  cases d with
  | unchanged => rfl
  | bytes x => cases x <;> rfl
  | elems => rfl
@[simp] theorem havocDest_w (d : Dest) (s : State) : (havocDest d s).w = s.w := by
  cases d with
  | unchanged => rfl
  | bytes x => cases x <;> rfl
  | elems => rfl
@[simp] theorem havocDest_latch (d : Dest) (s : State) : (havocDest d s).latch = s.latch := by
  cases d with
  | unchanged => rfl
  | bytes x => cases x <;> rfl
  | elems => rfl
@[simp] theorem havocDest_cur (d : Dest) (s : State) : (havocDest d s).cur = s.cur := by
  cases d with
  | unchanged => rfl
  | bytes x => cases x <;> rfl
  | elems => rfl
@[simp] theorem havocDest_work (d : Dest) (s : State) : (havocDest d s).work = s.work := by
  cases d with
  | unchanged => rfl
  | bytes x => cases x <;> rfl
  | elems => rfl
@[simp] theorem havocDest_ememSize (d : Dest) (s : State) : (havocDest d s).ememSize = s.ememSize := by
  cases d with
  | unchanged => rfl
  | bytes x => cases x <;> rfl
  | elems => rfl
@[simp] theorem havocDest_bmemSize (d : Dest) (s : State) : (havocDest d s).bmemSize = s.bmemSize := by
  cases d with
  | unchanged => rfl
  | bytes x => cases x <;> rfl
  | elems => rfl
@[simp] theorem havocDest_host (d : Dest) (s : State) : (havocDest d s).host = s.host := by
  cases d with
  | unchanged => rfl
  | bytes x => cases x <;> rfl
  | elems => rfl
@[simp] theorem havocDest_hostData (d : Dest) (s : State) : (havocDest d s).hostData = s.hostData := by
  cases d with
  | unchanged => rfl
  | bytes x => cases x <;> rfl
  | elems => rfl
@[simp] theorem havocDest_phase (d : Dest) (s : State) : (havocDest d s).phase = s.phase := by
  cases d with
  | unchanged => rfl
  | bytes x => cases x <;> rfl
  | elems => rfl
@[simp] theorem havocDest_done (d : Dest) (s : State) : (havocDest d s).done = s.done := by
  cases d with
  | unchanged => rfl
  | bytes x => cases x <;> rfl
  | elems => rfl
@[simp] theorem havocDest_err (d : Dest) (s : State) : (havocDest d s).err = s.err := by
  cases d with
  | unchanged => rfl
  | bytes x => cases x <;> rfl
  | elems => rfl
@[simp] theorem havocDest_result (d : Dest) (s : State) : (havocDest d s).result = s.result := by
  cases d with
  | unchanged => rfl
  | bytes x => cases x <;> rfl
  | elems => rfl

/-! Error entry (R290). -/

@[simp] theorem raise_phase (d : Dest) (e : Err) (s : State) : (raise d e s).phase = .idle := rfl
@[simp] theorem raise_done (d : Dest) (e : Err) (s : State) : (raise d e s).done = true := rfl
@[simp] theorem raise_err (d : Dest) (e : Err) (s : State) : (raise d e s).err = e := rfl
@[simp] theorem raise_result (d : Dest) (e : Err) (s : State) : (raise d e s).result = 0 := rfl
@[simp] theorem raise_cmd (d : Dest) (e : Err) (s : State) : (raise d e s).cmd = s.cmd := by
  unfold raise; split <;> simp
@[simp] theorem raise_eptr (d : Dest) (e : Err) (s : State) : (raise d e s).eptr = s.eptr := by
  unfold raise; split <;> simp
@[simp] theorem raise_elim (d : Dest) (e : Err) (s : State) : (raise d e s).elim = s.elim := by
  unfold raise; split <;> simp
@[simp] theorem raise_bptr (d : Dest) (e : Err) (s : State) : (raise d e s).bptr = s.bptr := by
  unfold raise; split <;> simp
@[simp] theorem raise_blim (d : Dest) (e : Err) (s : State) : (raise d e s).blim = s.blim := by
  unfold raise; split <;> simp
@[simp] theorem raise_n (d : Dest) (e : Err) (s : State) : (raise d e s).n = s.n := by
  unfold raise; split <;> simp
@[simp] theorem raise_w (d : Dest) (e : Err) (s : State) : (raise d e s).w = s.w := by
  unfold raise; split <;> simp
@[simp] theorem raise_latch (d : Dest) (e : Err) (s : State) : (raise d e s).latch = s.latch := by
  unfold raise; split <;> simp
@[simp] theorem raise_cur (d : Dest) (e : Err) (s : State) : (raise d e s).cur = s.cur := by
  unfold raise; split <;> simp
@[simp] theorem raise_work (d : Dest) (e : Err) (s : State) : (raise d e s).work = s.work := by
  unfold raise; split <;> simp
@[simp] theorem raise_ememSize (d : Dest) (e : Err) (s : State) : (raise d e s).ememSize = s.ememSize := by
  unfold raise; split <;> simp
@[simp] theorem raise_bmemSize (d : Dest) (e : Err) (s : State) : (raise d e s).bmemSize = s.bmemSize := by
  unfold raise; split <;> simp
@[simp] theorem raise_host (d : Dest) (e : Err) (s : State) : (raise d e s).host = s.host := by
  unfold raise; split <;> simp
@[simp] theorem raise_hostData (d : Dest) (e : Err) (s : State) : (raise d e s).hostData = s.hostData := by
  unfold raise; split <;> simp

/-- An error of case (a) changes nothing but `STATUS` and `RESULT` (R290). -/
theorem raise_of_leavesMemory (d : Dest) (e : Err) (s : State) (h : leavesMemory e = true) :
    raise d e s = finish e 0 s := by
  unfold raise; rw [if_pos h]

/-- An error of a command whose checks precede its writes changes nothing but `STATUS` and `RESULT` (R290). -/
theorem raise_unchanged (e : Err) (s : State) : raise .unchanged e s = finish e 0 s := by
  unfold raise; split <;> rfl

/-- An error of case (b) makes the destination unspecified (R290). -/
theorem raise_of_not_leavesMemory (d : Dest) (e : Err) (s : State) (h : leavesMemory e = false) :
    raise d e s = finish e 0 (havocDest d s) := by
  unfold raise; rw [if_neg (by simp [h])]

/-- An error of a decoding command leaves B-space, P-space and `PCNT` (R291). -/
theorem raise_elems_kept (e : Err) (s : State) :
    (raise .elems e s).b = s.b ∧ (raise .elems e s).p = s.p ∧ (raise .elems e s).pcnt = s.pcnt := by
  unfold raise; split <;> exact ⟨rfl, rfl, rfl⟩

/-- An error of an encoding command leaves E-space (R291). -/
theorem raise_bytes_kept (x : Bool) (e : Err) (s : State) : (raise (.bytes x) e s).e = s.e := by
  unfold raise; cases x <;> split <;> rfl

/-- An error of an encoding command that could not write P-space leaves P-space and `PCNT` (R290). -/
theorem raise_bytes_false_parts (e : Err) (s : State) :
    (raise (.bytes false) e s).p = s.p ∧ (raise (.bytes false) e s).pcnt = s.pcnt := by
  unfold raise; split <;> exact ⟨rfl, rfl⟩

end Sys2Proof.Machine
end

