-- ==== Sys2Proof/Laws/Ops.lean ====
section
/-! SUPPORT. For each shared operation, once, everything it can answer. -/

namespace Sys2Proof.Machine

/-- What one control byte can do: pass to the next partition, or end the command with the first error of its checks. -/
theorem unpackPartition_cases (v : Nat) (pidx : BitVec 4) (s t : State) (h : unpackPartition v pidx s = .next t) :
    (ctrlError v pidx s = .ok ∧
      t = { unpackCells v (partitionLength pidx) s.cur.byte s.cur.elem s.cur.dlimit s with
            cur := nextPartition v (partitionLength pidx) s.cur }) ∨
    (ctrlError v pidx s ≠ .ok ∧ t = raise .elems (ctrlError v pidx s) s) := by
  unfold unpackPartition at h
  split at h
  · exact .inl ⟨‹_›, by injection h with h; exact h.symm⟩
  · exact .inr ⟨‹_›, by injection h with h; exact h.symm⟩

/-- When the checks of one control byte pass (R219). -/
theorem ctrlError_eq_ok (v : Nat) (pidx : BitVec 4) (s : State) :
    ctrlError v pidx s = .ok ↔
      v ∈ wset s.cur.codec ∧ s.cur.byte + runBytes (partitionLength pidx) v ≤ s.cur.slimit ∧
        s.cur.elem + partitionLength pidx ≤ s.cur.dlimit := by
  unfold ctrlError
  rw [firstError_eq_ok _ (by simp)]
  simp

/-- What the next block of a decode can be: no block, a raw block, an error, a framed block. -/
theorem beginBlock_cases (c : Codec) (a e0 rem : Nat) (s : State) :
    (rem = 0 ∧ beginBlock c a e0 rem s = complete (a - opBptr s) s) ∨
    (0 < rem ∧ rem < rawThreshold ∧ a + rem * elemBytes c ≤ opBlim s ∧
      beginBlock c a e0 rem s = complete (a + rem * elemBytes c - opBptr s) (decodeRaw c rem a e0 s)) ∨
    (0 < rem ∧ rem < rawThreshold ∧ opBlim s < a + rem * elemBytes c ∧
      beginBlock c a e0 rem s = raise .elems .srcshort s) ∨
    (rawThreshold ≤ rem ∧ headerError c a s = .ok ∧
      beginBlock c a e0 rem s =
        { s with phase := .control, cur := blockCursor c (min rem blockMax) a e0 (rem - min rem blockMax) s }) ∨
    (rawThreshold ≤ rem ∧ headerError c a s ≠ .ok ∧
      beginBlock c a e0 rem s = raise .elems (headerError c a s) s) := by
  unfold beginBlock
  by_cases h0 : rem = 0
  · exact .inl ⟨h0, by rw [if_pos h0]⟩
  · rw [if_neg h0]
    by_cases h1 : rem < rawThreshold
    · rw [if_pos h1]
      by_cases h2 : a + rem * elemBytes c ≤ opBlim s
      · exact .inr (.inl ⟨by omega, h1, h2, by rw [if_pos h2]⟩)
      · exact .inr (.inr (.inl ⟨by omega, h1, by omega, by rw [if_neg h2]⟩))
    · rw [if_neg h1]
      by_cases h2 : headerError c a s = .ok
      · exact .inr (.inr (.inr (.inl ⟨by omega, h2, by rw [if_pos h2]⟩)))
      · exact .inr (.inr (.inr (.inr ⟨by omega, h2, by rw [if_neg h2]⟩)))

/-- When a framed block's header passes its checks (R219). -/
theorem headerError_eq_ok (c : Codec) (a : Nat) (s : State) :
    headerError c a s = .ok ↔
      a + 8 ≤ opBlim s ∧ 8 ≤ memRead s.b (a + 4) 4 ∧
        memRead s.b (a + 4) 4 + 16 * elemBytes c ≤ memRead s.b a 4 ∧ a + memRead s.b a 4 ≤ opBlim s := by
  unfold headerError
  rw [firstError_eq_ok _ (by simp)]
  simp [and_assoc]

/-- When the checks after the last control byte pass (R219). -/
theorem tailError_eq_ok (s : State) :
    tailError s = .ok ↔
      s.cur.elem + overrun = s.cur.dlimit ∧ s.cur.byte + 16 * elemBytes s.cur.codec = s.cur.slimit := by
  unfold tailError
  rw [firstError_eq_ok _ (by simp)]
  simp

/-- What the end of a framed block can be: the tail and the next block, or an error. -/
theorem finishBlock_cases (s : State) :
    (tailError s = .ok ∧
      finishBlock s = beginBlock s.cur.codec s.cur.slimit s.cur.dlimit s.cur.rem
        (decodeRaw s.cur.codec overrun s.cur.byte s.cur.elem s)) ∨
    (tailError s ≠ .ok ∧ finishBlock s = raise .elems (tailError s) s) := by
  unfold finishBlock
  split
  · exact .inl ⟨‹_›, rfl⟩
  · exact .inr ⟨‹_›, rfl⟩

/-- What a host access to a data space can answer (R63). -/
theorem dataAccess_eq_next (i size : Nat) (s t u : State) :
    dataAccess i size s t = .next u ↔ busy s = false ∧ i < size ∧ u = t := by
  unfold dataAccess
  cases hb : busy s
  · by_cases hi : i < size
    · simp [hi, eq_comm]
    · simp [hi]
  · simp

theorem busy_eq_false (s : State) : busy s = false ↔ s.phase = .idle := by
  unfold busy; cases s.phase <;> simp

/-- A step takes the host's first move, or gives the engine its turn. -/
theorem step_cases (s : State) :
    (s.host = [] ∧ step s = engineStep s) ∨
    (∃ rest, s.host = .wait :: rest ∧ step s = engineStep { s with host := rest }) ∨
    (∃ m rest, s.host = m :: rest ∧ m ≠ .wait ∧ step s = hostStep m { s with host := rest }) := by
  obtain h | ⟨m, rest, h⟩ : s.host = [] ∨ ∃ m rest, s.host = m :: rest := by
    cases s.host <;> simp
  · left; exact ⟨h, by simp [step, h]⟩
  · right
    by_cases hm : m = .wait
    · subst hm; exact .inl ⟨rest, h, by simp [step, h]⟩
    · right
      refine ⟨m, rest, h, hm, ?_⟩
      unfold step
      rw [h]
      cases m <;> first | rfl | exact absurd rfl hm

/-- What the engine's turn is, by the phase (R20, R219). -/
theorem engineTurn_cases (s : State) :
    (s.phase = .idle ∧ engineTurn s = .nothing) ∨
    (s.phase = .command ∧ ∃ i, decodeCmd s.latch.cmd = .ok i ∧ engineTurn s = .instr i) ∨
    (s.phase = .command ∧ ∃ x, decodeCmd s.latch.cmd = .error x ∧ engineTurn s = .illegal) ∨
    (s.phase = .control ∧ s.cur.idx < s.cur.parts ∧
      engineTurn s = .instr (decodeCtrl s.cur.codec (readCell s.b (ctrlAddress s.cur)))) ∨
    (s.phase = .control ∧ s.cur.parts ≤ s.cur.idx ∧ engineTurn s = .blockEnd) := by
  cases hp : s.phase with
  | idle => exact .inl ⟨rfl, by simp [engineTurn, fetch, hp]⟩
  | command =>
    cases hd : decodeCmd s.latch.cmd with
    | ok i => exact .inr (.inl ⟨rfl, i, rfl, by simp [engineTurn, fetch, hp, decode, hd]⟩)
    | error x => exact .inr (.inr (.inl ⟨rfl, x, rfl, by simp [engineTurn, fetch, hp, decode, hd]⟩))
  | control =>
    by_cases h : s.cur.idx < s.cur.parts
    · exact .inr (.inr (.inr (.inl ⟨rfl, h, by simp [engineTurn, fetch, hp, h, decode]⟩)))
    · exact .inr (.inr (.inr (.inr ⟨rfl, by omega, by simp [engineTurn, fetch, hp, h]⟩)))

end Sys2Proof.Machine
end

