-- ==== Sys2Proof/Laws/PerInstr.lean ====
section
/-! SUPPORT. Facts about instructions as syntax, made per instruction. No family is named in LAWS.json; the round trip of
encoding is an obligation. -/

namespace Sys2Proof

/-- A control byte is well-formed in exactly the families whose `Wset` has its width: only the nibble `0xF` tells them
apart (R97). -/
theorem wellFormed_decodeCtrl_of_nibble (c : Codec) (b : Byte) (h : (widxField b).toNat ≠ 15) :
    (decodeCtrl c b).wellFormed .c32 = true ∧ (decodeCtrl c b).wellFormed .c64 = true := by
  have hlt := (widxField b).isLt
  unfold decodeCtrl
  generalize (widxField b).toNat = k at h hlt
  interval_cases k <;> simp_all [Instr.wellFormed]

end Sys2Proof
end

