-- ==== Sys2Proof/Tests/Slice0.lean ====
section
/-! SUPPORT. The model's own tests: ill-formed terms refused, decoding of words written out from the spec, vectors of
95_test_vectors.md one step at a time, and for each statement with hypotheses a state and operands that meet them. -/

set_option Elab.async false

namespace Sys2Proof.Tests

open Sys2Proof Sys2Proof.Machine

/-! ## Helpers -/

/-- The state a next-state answer carries. -/
def outState (r : Result) : State :=
  match r with
  | .next t => t
  | .fault _ => State.reset
  | .refused _ => State.reset

/-- Whether an answer is a next state. -/
def isNext (r : Result) : Bool :=
  match r with
  | .next _ => true
  | .fault _ => false
  | .refused _ => false

theorem next_outState (r : Result) (h : isNext r = true) : r = .next (outState r) := by
  cases r with
  | next t => rfl
  | fault f => cases h
  | refused f => cases h

/-- A command started with these windows, count and width. -/
def started (w : CmdWord) (eptr elim bptr blim n width : Nat) : State :=
  start w
    { State.reset with
      eptr := .ofNat 64 eptr, elim := .ofNat 64 elim, bptr := .ofNat 64 bptr, blim := .ofNat 64 blim, n := .ofNat 64 n
      w := .ofNat 7 width }

/-- `s` with these elements from cell `a`. -/
def withElems (a : Nat) (vs : List Nat) (s : State) : State := { s with e := writeCells s.e a (vs.map (.ofNat 64)) }

/-- `s` with these bytes from byte `a`. -/
def withBytes (a : Nat) (vs : List Nat) (s : State) : State := { s with b := writeCells s.b a (vs.map (.ofNat 8)) }

/-- `s` with this partition table and its count latched. -/
def withParts (vs : List Nat) (s : State) : State :=
  { s with
    p := writeCells s.p 0 (vs.map (.ofNat 17)), pcnt := .ofNat 17 (vs.length - 1)
    latch := { s.latch with pcnt := .ofNat 17 (vs.length - 1) } }

/-- A block decode about to fetch its only control byte at byte 8; the run of `l` elements stands at byte 9. -/
def atControlByte (c : Codec) (run : List Nat) (l : Nat) : State :=
  withBytes 9 run
    { started (commandWord 0x5#4 c false) 0 l 0 (9 + run.length) l 0 with
      phase := .control
      cur := { codec := c, blk := 0, slimit := 9 + run.length, dlimit := l, byte := 9, elem := 0, idx := 0, parts := 1, rem := 0 } }

/-- The first `n` elements and the byte cursor after a control byte. -/
def fieldsRead (r : Result) (n : Nat) : List Nat × Nat :=
  ((readCells (outState r).e 0 n).map BitVec.toNat, (outState r).cur.byte)

/-- The bytes from `a`, `RESULT` and `STATUS` after a command. -/
def bytesWritten (r : Result) (a n : Nat) : List Nat × Nat × BitVec 32 :=
  ((readCells (outState r).b a n).map BitVec.toNat, (outState r).result.toNat, statusWord (outState r))

/-- The elements from `a`, `RESULT` and `STATUS` after a command. -/
def elemsWritten (r : Result) (a n : Nat) : List Nat × Nat × BitVec 32 :=
  ((readCells (outState r).e a n).map BitVec.toNat, (outState r).result.toNat, statusWord (outState r))

/-! ## WellFormed and Decode -/

theorem test_wellFormed_refuses_unpack64_in_c32 : Instr.wellFormed .c32 (.unpack64 0#4) = false := by decide
theorem test_wellFormed_refuses_ctrlInvalid_in_c64 : Instr.wellFormed .c64 (.ctrlInvalid 0#4) = false := by decide
theorem test_wellFormed_admits_each_in_its_family :
    Instr.wellFormed .c64 (.unpack64 0xF#4) = true ∧ Instr.wellFormed .c32 (.ctrlInvalid 0xF#4) = true ∧
      Instr.wellFormed .c32 (.unpack32 0xF#4) = true := by decide

/-- The eighteen legal words of R108. -/
theorem test_decode_legal_words :
    decodeCmd 0x01#32 = .ok (.pack .c32) ∧ decodeCmd 0x11#32 = .ok (.pack .c64) ∧
    decodeCmd 0x02#32 = .ok (.unpack .c32) ∧ decodeCmd 0x12#32 = .ok (.unpack .c64) ∧
    decodeCmd 0x03#32 = .ok (.partition .c32) ∧ decodeCmd 0x13#32 = .ok (.partition .c64) ∧
    decodeCmd 0x04#32 = .ok (.encblk .c32 false) ∧ decodeCmd 0x14#32 = .ok (.encblk .c64 false) ∧
    decodeCmd 0x24#32 = .ok (.encblk .c32 true) ∧ decodeCmd 0x34#32 = .ok (.encblk .c64 true) ∧
    decodeCmd 0x05#32 = .ok (.decblk .c32) ∧ decodeCmd 0x15#32 = .ok (.decblk .c64) ∧
    decodeCmd 0x06#32 = .ok (.encfrm .c32) ∧ decodeCmd 0x16#32 = .ok (.encfrm .c64) ∧
    decodeCmd 0x07#32 = .ok (.decfrm .c32) ∧ decodeCmd 0x17#32 = .ok (.decfrm .c64) ∧
    decodeCmd 0x08#32 = .ok (.bound .c32) ∧ decodeCmd 0x18#32 = .ok (.bound .c64) := by
  refine ⟨?_, ?_, ?_, ?_, ?_, ?_, ?_, ?_, ?_, ?_, ?_, ?_, ?_, ?_, ?_, ?_, ?_, ?_⟩ <;> rfl

/-- The reserved operation codes of R93 and the illegal words of vector C-2. -/
theorem test_decode_reserved_words :
    decodeCmd 0x00#32 = .ok (.reservedOp0 0) ∧ decodeCmd 0x1F#32 = .ok (.reservedOpF 1) ∧
    decodeCmd 0x09#32 = .ok (.reservedOp9 0) ∧ decodeCmd 0x4A#32 = .ok (.reservedOpA 4) ∧
    decodeCmd 0x0B#32 = .ok (.reservedOpB 0) ∧ decodeCmd 0x0C#32 = .ok (.reservedOpC 0) ∧
    decodeCmd 0x0D#32 = .ok (.reservedOpD 0) ∧ decodeCmd 0x8000000E#32 = .ok (.reservedOpE 0x8000000) ∧
    decodeCmd 0x21#32 = .error .pextNotEncblk ∧ decodeCmd 0x25#32 = .error .pextNotEncblk ∧
    decodeCmd 0x26#32 = .error .pextNotEncblk ∧ decodeCmd 0x40#32 = .ok (.reservedOp0 4) ∧
    decodeCmd 0x101#32 = .error .reservedBits ∧ decodeCmd 0x80000004#32 = .error .reservedBits := by
  refine ⟨?_, ?_, ?_, ?_, ?_, ?_, ?_, ?_, ?_, ?_, ?_, ?_, ?_, ?_⟩ <;> rfl

/-- Control bytes `pppp wwww` of every unpacker (R94, R95, R97). -/
theorem test_decode_control_bytes :
    [0x00#8, 0x71#8, 0x12#8, 0xE3#8, 0x24#8, 0x35#8, 0x46#8, 0x57#8, 0x68#8, 0xE9#8, 0x8A#8, 0x9B#8, 0xAC#8, 0xED#8, 0x0E#8,
      0xFF#8].map (decodeCtrl .c64) =
      [.unpack0 0x0, .unpack1 0x7, .unpack2 0x1, .unpack3 0xE, .unpack4 0x2, .unpack5 0x3, .unpack6 0x4, .unpack7 0x5,
        .unpack8 0x6, .unpack9 0xE, .unpack10 0x8, .unpack11 0x9, .unpack12 0xA, .unpack16 0xE, .unpack32 0x0,
        .unpack64 0xF] ∧
    decodeCtrl .c32 0xFF#8 = .ctrlInvalid 0xF ∧ decodeCtrl .c32 0xF0#8 = .unpack0 0xF ∧
    decodeCtrl .c32 0xEE#8 = .unpack32 0xE := by decide

theorem test_decodeTableWord :
    decodeTableWord 32 0x34 = some (.encblk .c64 true) ∧ decodeTableWord 8 0x71 = some (.unpack1 7) ∧
    decodeTableWord 8 0x0F = some (.unpack64 0) ∧ decodeTableWord 32 0x21 = none := by
  refine ⟨?_, ?_, ?_, ?_⟩ <;> rfl

/-! ## Commands: vectors of 95_test_vectors.md -/

/-- P-C4 and scenario S3: an exact fit. -/
theorem test_pack_w3 :
    bytesWritten (exec (.pack .c32) (withElems 0 [1, 6, 5, 1, 2, 3, 7, 7, 0, 2, 5, 5, 1, 4, 4, 2] (started 0x01 0 16 7 13 16 3))) 7 6 =
      ([0x3A, 0x94, 0xFF, 0x0A, 0xD3, 0x22], 6, 0x02#32) := by decide +kernel

/-- P-C2: the upper half of a cell, in each family; P-C4 one byte short: nothing changes. -/
theorem test_pack_upper_half_and_full :
    bytesWritten (exec (.pack .c32) (withElems 0 [0xAAAAAAAA00000001] (started 0x01 0 1 0 4 1 32))) 0 5 = ([0, 0, 0, 1, 0], 4, 0x02#32) ∧
    bytesWritten (exec (.pack .c64) (withElems 0 [0xAAAAAAAA00000001] (started 0x11 0 1 0 8 1 64))) 0 8 =
      ([0xAA, 0xAA, 0xAA, 0xAA, 0, 0, 0, 1], 8, 0x02#32) ∧
    bytesWritten (exec (.pack .c32) (withBytes 0 [9] (started 0x01 0 16 0 5 16 3))) 0 2 = ([9, 0], 0, 0x42#32) := by decide +kernel

/-- U-C1: the speculative range clipped to nothing. -/
theorem test_unpack_w9 :
    elemsWritten (exec (.unpack .c32) (withElems 13 [77] (withBytes 0 [0xAB, 0x82, 0x33, 0x20] (started 0x02 10 13 0 4 3 9)))) 10 4 =
      ([343, 8, 409, 77], 4, 0x02#32) := by decide +kernel

/-- U-C4: zero extension; U-E6: a short source hides a full destination; U-E5: width 13. -/
theorem test_unpack_zero_extends_and_priority :
    elemsWritten (exec (.unpack .c32) (withElems 0 [0xFFFFFFFFFFFFFFFF] (withBytes 0 [0xFF] (started 0x02 0 1 0 1 1 8)))) 0 1 =
      ([255], 1, 0x02#32) ∧
    statusWord (outState (exec (.unpack .c32) (started 0x02 0 15 0 5 16 3))) = 0x52#32 ∧
    statusWord (outState (exec (.unpack .c32) (started 0x02 0 16 0 6 1 13))) = 0x22#32 := by decide +kernel

/-- T-1. -/
theorem test_partition_one :
    let t := outState (exec (.partition .c32) (withElems 0 [7] (started 0x03 0 1 9 4 1 0)))
    t.pcnt = 1 ∧ t.result = 1 ∧ statusWord t = 0x02#32 ∧ t.e = [(0, 7)] := by decide +kernel

/-- T-6 and T-7: the seeding quirk. -/
theorem test_partition_seeding :
    computePartition .c32 (List.replicate 64 0x1FFF ++ List.replicate 64 5) = List.range 65 ++ [128] ∧
    computePartition .c64 (0xFFFFFFFFFFFFFFFF :: List.replicate 127 0) = List.range 65 ++ [128] := by decide +kernel

/-- B0. -/
theorem test_encblk_raw :
    bytesWritten (exec (.encblk .c32 false) (withElems 0 [1, 0x12345678, 0xFFFFFFFF] (started 0x04 0 3 0 12 3 0))) 0 12 =
      ([0, 0, 0, 1, 0x12, 0x34, 0x56, 0x78, 0xFF, 0xFF, 0xFF, 0xFF], 12, 0x02#32) := by decide +kernel

/-- The elements of B1, and their block with the host's table: header and control byte. -/
def blockState : State :=
  withParts [0, 128] (withElems 128 ((List.range 16).map (· + 1)) (started 0x24 0 144 0 73 144 0))

theorem test_encblk_framed :
    bytesWritten (exec (.encblk .c32 true) blockState) 0 13 = ([0, 0, 0, 73, 0, 0, 0, 9, 0xF0, 0, 0, 0, 1], 73, 0x02#32) := by
  decide +kernel

/-- B0, decoded. -/
theorem test_decblk_raw :
    elemsWritten (exec (.decblk .c64) (withBytes 0 [1, 2, 3, 4, 5, 6, 7, 8] (started 0x15 0 1 0 8 1 0))) 0 1 =
      ([0x0102030405060708], 8, 0x02#32) := by decide +kernel

/-- The 73 bytes of B1 as the source of a DECBLK. -/
def blockBytes : List Nat := [0, 0, 0, 73, 0, 0, 0, 9, 0xF0] ++ (List.range 16).flatMap (fun k => [0, 0, 0, k + 1])

/-- B1, decoded: three turns of the engine. -/
theorem test_decblk_framed :
    elemsWritten (Host.Core.run Sys2Proof.core 3 (withBytes 0 blockBytes (started 0x05 200 344 0 73 144 0))) 326 4 =
      ([0, 0, 1, 2], 73, 0x02#32) := by decide +kernel

/-- F1 and F2. -/
theorem test_encfrm :
    bytesWritten (exec (.encfrm .c32) (withElems 0 [1, 0x12345678, 0xFFFFFFFF] (started 0x06 0 3 0 20 3 0))) 0 20 =
      ([0xBC, 0x32, 0xAD, 0x23, 0x90, 0x23, 0x94, 0x0E, 0, 0, 0, 1, 0x12, 0x34, 0x56, 0x78, 0xFF, 0xFF, 0xFF, 0xFF], 20, 0x02#32) ∧
    bytesWritten (exec (.encfrm .c64) (started 0x16 0 0 0 8 0 0)) 0 8 =
      ([0x08, 0xB5, 0xA7, 0x03, 0x3F, 0x4C, 0xBC, 0x3D], 8, 0x02#32) := by decide +kernel

/-- The bytes of F1. -/
def frameBytes : List Nat :=
  [0xBC, 0x32, 0xAD, 0x23, 0x90, 0x23, 0x94, 0x0E, 0, 0, 0, 1, 0x12, 0x34, 0x56, 0x78, 0xFF, 0xFF, 0xFF, 0xFF]

/-- F1 and F4, decoded. -/
theorem test_decfrm :
    elemsWritten (exec (.decfrm .c32) (withBytes 0 frameBytes (started 0x07 0 3 0 20 3 0))) 0 3 =
      ([1, 0x12345678, 0xFFFFFFFF], 20, 0x02#32) ∧
    statusWord (outState (exec (.decfrm .c64) (withBytes 0 frameBytes (started 0x17 0 3 0 20 3 0)))) = 0x62#32 := by decide +kernel

/-- BD-1 and BD-E1; the windows are ignored. -/
theorem test_bound :
    (outState (exec (.bound .c32) (started 0x08 5 4 9 8 144 0))).result = 736 ∧
    (outState (exec (.bound .c64) (started 0x18 0 0 0 0 65537 0))).result = 589857 ∧
    (outState (exec (.bound .c32) (started 0x08 0 0 0 0 (2 ^ 61) 0))).result = 0xA001000000000008 ∧
    statusWord (outState (exec (.bound .c32) (started 0x08 0 0 0 0 (2 ^ 62) 0))) = 0x22#32 := by decide +kernel

/-- C-2: an illegal word, from the host's write on. -/
theorem test_illegal_word :
    let t := outState (Host.Core.run Sys2Proof.core 2 { State.reset with host := [.writeReg 0 0x21] })
    statusWord t = 0x12#32 ∧ t.result = 0 ∧ t.cmd = 0x21 := by decide +kernel

/-- C-5: register widths. -/
theorem test_register_widths :
    let t := outState (Host.Core.run Sys2Proof.core 3 { State.reset with host := [.writeReg 7 0xFF, .writeReg 8 0x3FFFF, .writeReg 9 5] })
    t.w = 0x7F ∧ t.pcnt = 0x1FFFF ∧ t.result = 0 := by decide +kernel

/-! ## Control bytes: the rows of sections 2.3 and 2.4 read back -/

theorem test_unpack0 : fieldsRead (exec (.unpack0 0x2#4) (atControlByte .c32 [] 3)) 3 = ([0, 0, 0], 9) := by decide +kernel
theorem test_unpack1 :
    fieldsRead (exec (.unpack1 0xA#4) (atControlByte .c32 [0xB2, 0xE0] 11)) 11 = ([1, 0, 1, 1, 0, 0, 1, 0, 1, 1, 1], 11) := by
  decide +kernel
theorem test_unpack2 :
    fieldsRead (exec (.unpack2 0x4#4) (atControlByte .c32 [0xC9, 0x40] 5)) 5 = ([3, 0, 2, 1, 1], 11) := by decide +kernel
theorem test_unpack3 : fieldsRead (exec (.unpack3 0x2#4) (atControlByte .c32 [0xAB, 0x80] 3)) 3 = ([5, 2, 7], 11) := by
  decide +kernel
theorem test_unpack4 : fieldsRead (exec (.unpack4 0x2#4) (atControlByte .c32 [0xA5, 0xF0] 3)) 3 = ([10, 5, 15], 11) := by
  decide +kernel
theorem test_unpack5 : fieldsRead (exec (.unpack5 0x2#4) (atControlByte .c32 [0x89, 0x3E] 3)) 3 = ([17, 4, 31], 11) := by
  decide +kernel
theorem test_unpack6 :
    fieldsRead (exec (.unpack6 0x4#4) (atControlByte .c32 [0x84, 0x7F, 0xC1, 0x50] 5)) 5 = ([33, 7, 63, 1, 20], 13) := by
  decide +kernel
theorem test_unpack7 :
    fieldsRead (exec (.unpack7 0x2#4) (atControlByte .c32 [0xC8, 0x6F, 0xF8] 3)) 3 = ([100, 27, 127], 12) := by decide +kernel
theorem test_unpack8 :
    fieldsRead (exec (.unpack8 0x2#4) (atControlByte .c32 [0xDE, 0xAD, 0xBE] 3)) 3 = ([0xDE, 0xAD, 0xBE], 12) := by
  decide +kernel
theorem test_unpack9 :
    fieldsRead (exec (.unpack9 0x2#4) (atControlByte .c32 [0xAB, 0x82, 0x33, 0x20] 3)) 3 = ([343, 8, 409], 13) := by
  decide +kernel
theorem test_unpack10 :
    fieldsRead (exec (.unpack10 0x2#4) (atControlByte .c32 [0xFF, 0xC0, 0x1A, 0xA8] 3)) 3 = ([1023, 1, 682], 13) := by
  decide +kernel
theorem test_unpack11 :
    fieldsRead (exec (.unpack11 0x2#4) (atControlByte .c32 [0xFF, 0xE0, 0x16, 0xAA, 0x80] 3)) 3 = ([2047, 5, 1365], 14) := by
  decide +kernel
theorem test_unpack12 :
    fieldsRead (exec (.unpack12 0x2#4) (atControlByte .c32 [0xAB, 0xC1, 0x23, 0xFF, 0xF0] 3)) 3 = ([0xABC, 0x123, 0xFFF], 14) := by
  decide +kernel
theorem test_unpack16 :
    fieldsRead (exec (.unpack16 0x1#4) (atControlByte .c32 [0xBE, 0xEF, 0x12, 0x34] 2)) 2 = ([0xBEEF, 0x1234], 13) := by
  decide +kernel
theorem test_unpack32 :
    fieldsRead (exec (.unpack32 0x1#4) (atControlByte .c32 [0xDE, 0xAD, 0xBE, 0xEF, 0, 0, 0, 1] 2)) 2 = ([0xDEADBEEF, 1], 17) := by
  decide +kernel
theorem test_unpack64 :
    fieldsRead (exec (.unpack64 0x0#4) (atControlByte .c64 [1, 0x23, 0x45, 0x67, 0x89, 0xAB, 0xCD, 0xEF] 1)) 1 =
      ([0x0123456789ABCDEF], 17) := by decide +kernel
/-- B4: the nibble `0xF` in a codec-32 block. -/
theorem test_ctrl_invalid :
    statusWord (outState (exec (.ctrlInvalid 0x0#4) (atControlByte .c32 [] 1))) = 0x72#32 ∧
    statusWord (outState (exec (.unpack64 0x0#4) (atControlByte .c32 [] 1))) = 0x72#32 := by decide +kernel

/-! ## Witnesses: a state and operands that meet the hypotheses of each statement, each clause at a boundary -/

/-- A state in which the host makes these moves, the engine IDLE. -/
def idleWith (moves : List HostMove) : State := { State.reset with host := moves }

/-- A state in which the host makes these moves, a command just started. -/
def busyWith (moves : List HostMove) : State := { started 0x01 0 1 0 4 1 32 with host := moves }

/-- Memories of two elements and four bytes. -/
def small (s : State) : State := { s with ememSize := 2, bmemSize := 4 }

theorem test_witness_DecodeOfEncodeIsTheInstruction :
    Instr.wellFormed .c64 (.unpack64 0xF#4) = true ∧ Instr.wellFormed .c32 (.ctrlInvalid 0#4) = true ∧
      Instr.wellFormed .c32 (.encblk .c64 true) = true := by decide

theorem test_witness_EncodeOfDecodeIsTheWord :
    decodeCmd 0x34#32 = .ok (.encblk .c64 true) ∧ decodeCmd 0xFFFFFFFF#32 = .ok (.reservedOpF 0xFFFFFFF) := ⟨rfl, rfl⟩

theorem test_witness_ControlByteTablesAgree : 1 ∈ pset ∧ 128 ∈ pset ∧ 0 ∈ wset .c32 ∧ 64 ∈ wset .c64 := by decide

theorem test_witness_IllegalWordReportsOnly :
    ∀ v ∈ [0x00, 0x09, 0x0F, 0x1F, 0x21, 0x25, 0x40, 0x101, 0x80000004, 0x100000000],
      (idleWith [.writeReg 0 (.ofNat 64 v)]).phase = .idle ∧
        (idleWith [.writeReg 0 (.ofNat 64 v)]).host = [.writeReg 0 (.ofNat 64 v)] ∧
        ¬ legalWord ((BitVec.ofNat 64 v).setWidth 32) := by decide +kernel

theorem test_witness_ReservedCodesReportOnly : Instr.reservedOp9 0#28 ∈ [Instr.reservedOp0 0#28, .reservedOp9 0#28] := by decide

theorem test_witness_StepRunsTheDecodedInstruction :
    ((busyWith []).host = [] ∧ (busyWith []).phase = .command ∧ decodeCmd (busyWith []).latch.cmd = .ok (.pack .c32)) ∧
    ((atControlByte .c32 [] 1).host = [] ∧ (atControlByte .c32 [] 1).phase = .control ∧
      (atControlByte .c32 [] 1).cur.idx < (atControlByte .c32 [] 1).cur.parts) ∧
    ((started 0x21 0 0 0 0 0 0).host = [] ∧ (started 0x21 0 0 0 0 0 0).phase = .command ∧
      decodeCmd (started 0x21 0 0 0 0 0 0).latch.cmd = .error .pextNotEncblk) ∧
    ((idleWith []).host = [] ∧ (idleWith []).phase = .idle) ∧
    (busyWith [.wait, .reset]).host = .wait :: [.reset] ∧
    ((idleWith [.wait]).host = .wait :: [] ∧ (idleWith [.wait]).phase = .idle) :=
  ⟨⟨rfl, rfl, rfl⟩, by decide, ⟨rfl, rfl, rfl⟩, by decide, rfl, by decide⟩

/-- An earlier command's cursors and working state are gone after START (R268). -/
theorem test_start_reloads_the_hidden_state :
    let s := { atControlByte .c32 [0xB2] 11 with phase := .idle, eptr := 5, work := { acc := 1, fill := 3, cost := [7], refs := [7] } }
    (start 0x15 s).work = Work.zero ∧ (start 0x15 s).cur.elem = 5 ∧ (start 0x15 s).cur.parts = 0 ∧
      (start 0x15 s).cur.codec = .c64 := by decide +kernel

/-- The end of a framed block and the report of an illegal word are turns of the engine that are no instruction: the engine
clauses of EngineNeverWritesOperands, SourceSpaceNeverWritten and OnlyPartitionersWriteTheTable. -/
theorem test_witness_engine_turns :
    ((withBytes 0 [9] { atControlByte .c32 [] 1 with cur := { (atControlByte .c32 [] 1).cur with idx := 1 } }).phase = .control ∧
      isNext (engineStep (withBytes 0 [9] { atControlByte .c32 [] 1 with cur := { (atControlByte .c32 [] 1).cur with idx := 1 } })) =
        true) ∧
    ((started 0x21 0 0 0 0 0 0).phase = .command ∧ isNext (engineStep (started 0x21 0 0 0 0 0 0)) = true) := by decide +kernel

theorem test_witness_StartLatchesTheOperands :
    ((idleWith [.writeReg 0 1]).host = .writeReg 0 1 :: [] ∧ (idleWith [.writeReg 0 1]).phase = .idle) ∧
    ((busyWith [.writeReg 0 1]).host = .writeReg 0 1 :: [] ∧ (busyWith [.writeReg 0 1]).phase ≠ .idle) := by decide

theorem test_witness_HostRegisterAccess :
    (∀ slot ∈ [1, 2, 3, 4, 5, 6, 7, 8, 9, 10],
      (idleWith [.writeReg slot 0xFFFFFFFFFFFFFFFF]).phase = .idle ∧
      (idleWith [.writeReg slot 0xFFFFFFFFFFFFFFFF]).host = .writeReg slot 0xFFFFFFFFFFFFFFFF :: [] ∧
      ((2 ≤ slot ∧ slot ≤ 8) ∨ slot = 1 ∨ 9 ≤ slot)) ∧
    ((busyWith [.writeReg 0 1]).phase ≠ .idle ∧ (busyWith [.writeReg 0 1]).host = .writeReg 0 1 :: []) ∧
    ((idleWith [.readReg 9]).phase = .idle ∧ (idleWith [.readReg 9]).host = .readReg 9 :: []) ∧
    (∀ slot ∈ [0, 7, 10], (busyWith [.readReg slot]).host = .readReg slot :: [] ∧ slot ≠ 8 ∧ slot ≠ 9) ∧
    (∀ slot ∈ [8, 9], (busyWith [.readReg slot]).host = .readReg slot :: [] ∧ (busyWith [.readReg slot]).phase ≠ .idle ∧
      (slot = 8 ∨ slot = 9)) := by decide

theorem test_witness_HostDataAccess :
    ((small (idleWith [.writeE 1 5])).phase = .idle ∧ 1 < (small (idleWith [.writeE 1 5])).ememSize.toNat ∧
      (small (idleWith [.writeE 1 5])).host = .writeE 1 5 :: []) ∧
    ((small (idleWith [.writeB 3 5])).phase = .idle ∧ 3 < (small (idleWith [.writeB 3 5])).bmemSize.toNat ∧
      (small (idleWith [.writeB 3 5])).host = .writeB 3 5 :: []) ∧
    ((idleWith [.writeP 65520 0x20000]).phase = .idle ∧ (idleWith [.writeP 65520 0x20000]).host = .writeP 65520 0x20000 :: []) ∧
    ((small (idleWith [.readE 1])).host = .readE 1 :: [] ∧ (small (idleWith [.readB 3])).host = .readB 3 :: [] ∧
      (idleWith [.readP 65520]).host = .readP 65520 :: [] ∧ 65520 < 65521) ∧
    ((small (idleWith [.writeE 2 5])).ememSize.toNat ≤ 2 ∧ (small (idleWith [.readB 4])).bmemSize.toNat ≤ 4 ∧
      (idleWith [.readP 65521]).host = .readP 65521 :: []) ∧
    ((busyWith [.readE 0]).phase ≠ .idle ∧ (busyWith [.readE 0]).host = .readE 0 :: []) := by decide +kernel

theorem test_witness_ResetClearsTheRegisters : (small (busyWith [.reset])).host = .reset :: [] := by decide

theorem test_witness_invariant_of_a_decode : Inv (atControlByte .c32 [0xB2, 0xE0] 11) := by decide +kernel

theorem test_witness_StepKeepsTheInvariant :
    (Inv (started 0x01 0 1 0 4 1 32) ∧
      step (started 0x01 0 1 0 4 1 32) = .next (outState (step (started 0x01 0 1 0 4 1 32)))) ∧
    step (atControlByte .c32 [0xB2, 0xE0] 11) = .next (outState (step (atControlByte .c32 [0xB2, 0xE0] 11))) :=
  ⟨⟨by decide +kernel, next_outState _ (by decide +kernel)⟩, next_outState _ (by decide +kernel)⟩

theorem test_witness_EveryCommandCompletes :
    (busyWith []).host = [] ∧ (busyWith []).phase ≠ .idle ∧ (atControlByte .c32 [] 1).host = [] ∧
      (atControlByte .c32 [] 1).phase ≠ .idle := by decide

theorem test_witness_EngineNeverWritesOperands :
    exec (.bound .c32) (busyWith []) = .next (outState (exec (.bound .c32) (busyWith []))) :=
  next_outState _ (by decide +kernel)

theorem test_witness_SourceSpaceNeverWritten :
    exec (.pack .c32) (busyWith []) = .next (outState (exec (.pack .c32) (busyWith []))) ∧
    exec (.unpack .c32) (busyWith []) = .next (outState (exec (.unpack .c32) (busyWith []))) :=
  ⟨next_outState _ (by decide +kernel), next_outState _ (by decide +kernel)⟩

theorem test_witness_OnlyPartitionersWriteTheTable :
    exec (.encblk .c32 true) blockState = .next (outState (exec (.encblk .c32 true) blockState)) ∧ (!true) = false :=
  ⟨next_outState _ (by decide +kernel), rfl⟩

/-- Each group of errors: `E_ARG`, an error of PACK, and an error that makes the destination unspecified. -/
theorem test_witness_ErrorEntryHavocsAtMostTheDestination :
    (∀ x ∈ [(Instr.pack .c32, started 0x01 0 0 0 0 0 3), (.pack .c32, started 0x01 0 16 0 5 16 3),
        (.encfrm .c32, started 0x06 0 0 0 7 0 0), (.decfrm .c32, started 0x07 0 0 0 7 0 0)],
      x.2.phase ≠ .idle ∧ isNext (exec x.1 x.2) = true ∧ (outState (exec x.1 x.2)).phase = .idle ∧
        (outState (exec x.1 x.2)).err ≠ .ok) ∧
    (outState (exec (.pack .c32) (started 0x01 0 0 0 0 0 3))).err = .arg := by decide +kernel

theorem test_witness_FieldLayoutPerUnpacker : (2 + 1) * 5 ≤ 8 * [0x89#8, 0x3E#8].length ∧ (0 + 1) * 16 ≤ 8 * [0x89#8, 0x3E#8].length := by
  decide

theorem test_witness_WritesStayInsideTheWindows :
    Inv (started 0x01 0 1 0 4 1 32) ∧ (started 0x01 0 1 0 4 1 32).host = [] ∧
      step (started 0x01 0 1 0 4 1 32) = .next (outState (step (started 0x01 0 1 0 4 1 32))) :=
  ⟨by decide +kernel, rfl, next_outState _ (by decide +kernel)⟩

/-- A cell above the element window and a byte above the byte window differ. -/
theorem test_witness_OutcomeDependsOnTheWindowsOnly :
    Inv (started 0x01 0 1 0 4 1 32) ∧ (started 0x01 0 1 0 4 1 32).host = [] ∧
      sameInsideWindows (started 0x01 0 1 0 4 1 32) (withBytes 4 [7] (withElems 1 [9] (started 0x01 0 1 0 4 1 32))) ∧
      started 0x01 0 1 0 4 1 32 ≠ withBytes 4 [7] (withElems 1 [9] (started 0x01 0 1 0 4 1 32)) := by
  refine ⟨by decide +kernel, rfl, ⟨by decide +kernel, fun x _ h => ?_, fun x _ h => ?_⟩, by decide +kernel⟩
  · have h' : x < 1 := h
    interval_cases x
    decide +kernel
  · have h' : x < 4 := h
    interval_cases x <;> decide +kernel

theorem test_witness_CodecThirtyTwoIgnoresUpperHalves :
    ∀ a, readElem .c32 [(0, 0x100000005#64)] a = readElem .c32 (withElems 0 [5] (busyWith [])).e a := by
  intro a
  have h : (withElems 0 [5] (busyWith [])).e = [(0, 5#64)] := by decide +kernel
  rw [h]
  by_cases h0 : (0 : Nat) = a
  · subst h0; decide
  · simp [readElem, readCell, h0]

theorem test_witness_IntegerFunctions :
    (0xFFFFFFFFFFFFFFFF#64 ≠ 0) ∧ 0 ≤ elemWidth .c32 ∧ 32 ≤ elemWidth .c32 ∧ 64 ≤ elemWidth .c64 ∧ 12 ∈ wset .c32 ∧ 11 ≤ 12 := by
  decide

theorem test_witness_RunWidthLosesNothing :
    (∀ x ∈ [0#64, 0xFFFFFFFF#64], x.toNat < 2 ^ elemWidth .c32) ∧ (∀ x ∈ [0#64, 0#64], x = 0) := by
  simp [elemWidth]

theorem test_witness_ByteAccessIsBigEndian :
    (∀ x ∈ [(1, 255), (4, 0xFFFFFFFF), (8, 0xFFFFFFFFFFFFFFFF)], x.1 ∈ [1, 4, 8] ∧ x.2 < 256 ^ x.1) ∧ 2 ∈ [1, 2, 4, 8] := by decide

theorem test_witness_PackBitsIsTheConcatenation :
    (64 ≤ 64 ∧ 1 < [3#64, 5#64].length ∧ 63 < 64) ∧ (3 ≤ 64 ∧ [3#64, 5#64].length * 3 ≤ 6 ∧ 6 < 8 * cdiv ([3#64, 5#64].length * 3) 8) := by
  decide

theorem test_witness_UnpackBitsInvertsPackBits :
    (64 ≤ 64 ∧ 0 < [0xFFFFFFFFFFFFFFFF#64].length ∧ ([0xFFFFFFFFFFFFFFFF#64].getD 0 0).toNat < 2 ^ 64) ∧
    (0 ≤ 64 ∧ ([0#64].getD 0 0).toNat < 2 ^ 0) := by decide

theorem test_witness_WriterMechanismEqualsPackBits :
    32 ≤ elemWidth .c32 ∧ (∀ x ∈ [0xFFFFFFFF#64], x.toNat < 2 ^ elemWidth .c32) ∧ 64 ≤ elemWidth .c64 := by
  simp [elemWidth]

/-- PACK at both ends of its ranges: one element of width 0, 128 elements of width 64. -/
theorem test_witness_PackWritesTheRun :
    ∀ x ∈ [(Codec.c32, started 0x01 0 1 0 0 1 0), (.c64, started 0x11 5 133 7 1031 128 64)],
      elemWindowOk x.2 ∧ byteWindowOk x.2 ∧ 1 ≤ opN x.2 ∧ opN x.2 ≤ 128 ∧ opW x.2 ≤ elemWidth x.1 ∧
        opEptr x.2 + opN x.2 ≤ opElim x.2 ∧ opBptr x.2 + cdiv (opN x.2 * opW x.2) 8 ≤ opBlim x.2 := by decide

/-- Each check of PACK failing alone, the last one for a full destination. -/
theorem test_witness_PackFirstFailedCheck :
    (∀ s ∈ [started 0x01 5 4 0 99 1 3, started 0x01 0 9 5 4 1 3, started 0x01 0 9 0 99 0 3, started 0x01 0 200 0 99 129 3,
        started 0x01 0 9 0 99 1 33, started 0x01 0 15 0 99 16 3],
      ¬(elemWindowOk s ∧ byteWindowOk s ∧ 1 ≤ opN s ∧ opN s ≤ 128 ∧ opW s ≤ elemWidth .c32 ∧ opEptr s + opN s ≤ opElim s)) ∧
    (let s := started 0x01 0 16 0 5 16 3
     (elemWindowOk s ∧ byteWindowOk s ∧ 1 ≤ opN s ∧ opN s ≤ 128 ∧ opW s ≤ elemWidth .c32 ∧ opEptr s + opN s ≤ opElim s) ∧
      opBlim s < opBptr s + cdiv (opN s * opW s) 8) := by decide

theorem test_witness_UnpackWritesTheFields :
    ∀ x ∈ [(Codec.c32, started 0x02 0 1 0 0 1 0), (.c32, started 0x02 10 20 0 4 3 9), (.c64, started 0x12 5 133 7 1031 128 64)],
      elemWindowOk x.2 ∧ byteWindowOk x.2 ∧ opW x.2 ∈ wset x.1 ∧ 1 ≤ opN x.2 ∧ opN x.2 ≤ 128 ∧
        opBptr x.2 + cdiv (opN x.2 * opW x.2) 8 ≤ opBlim x.2 ∧ opEptr x.2 + opN x.2 ≤ opElim x.2 := by decide

theorem test_witness_UnpackFirstFailedCheck :
    (∀ s ∈ [started 0x02 5 4 0 99 1 3, started 0x02 0 9 5 4 1 3, started 0x02 0 9 0 99 1 13, started 0x02 0 9 0 99 1 64,
        started 0x02 0 9 0 99 0 3, started 0x02 0 200 0 99 129 3],
      ¬(elemWindowOk s ∧ byteWindowOk s ∧ opW s ∈ wset .c32 ∧ 1 ≤ opN s ∧ opN s ≤ 128)) ∧
    (∀ s ∈ [started 0x02 0 16 0 5 16 3, started 0x02 0 15 0 6 16 3],
      elemWindowOk s ∧ byteWindowOk s ∧ opW s ∈ wset .c32 ∧ 1 ≤ opN s ∧ opN s ≤ 128) ∧
    (let s := started 0x02 0 16 0 5 16 3
     opBlim s < opBptr s + cdiv (opN s * opW s) 8) ∧
    (let s := started 0x02 0 15 0 6 16 3
     opBptr s + cdiv (opN s * opW s) 8 ≤ opBlim s ∧ opElim s < opEptr s + opN s) := by decide

/-- A PACK that ends well, and an UNPACK over the bytes it wrote, at another place in E-space. -/
theorem test_witness_UnpackAfterPackRestoresTheElements :
    let s := withElems 0 [5, 2, 7] (started 0x01 0 3 0 2 3 3)
    let t := outState (exec (.pack .c32) s)
    let u := { started 0x02 10 13 0 2 3 3 with b := t.b }
    exec (.pack .c32) s = .next t ∧ t.err = .ok ∧ opW s ∈ wset .c32 ∧ u.latch.n = s.latch.n ∧ u.latch.w = s.latch.w ∧
      elemWindowOk u ∧ byteWindowOk u ∧ opEptr u + opN u ≤ opElim u ∧ opBptr u + t.result.toNat ≤ opBlim u ∧
      ∀ k, k < t.result.toNat → readCell u.b (opBptr u + k) = readCell t.b (opBptr s + k) :=
  ⟨next_outState _ (by decide +kernel), by decide +kernel⟩

theorem test_witness_PartitionStoresTheTable :
    (∀ s ∈ [started 0x03 0 1 9 4 1 0, started 0x03 0 65520 0 0 65520 0],
      elemWindowOk s ∧ 1 ≤ opN s ∧ opN s ≤ 65520 ∧ opEptr s + opN s ≤ opElim s) ∧
    (∀ s ∈ [started 0x03 5 4 0 0 1 0, started 0x03 0 9 0 0 0 0, started 0x03 0 65521 0 0 65521 0, started 0x03 0 159 0 0 160 0],
      ¬(elemWindowOk s ∧ 1 ≤ opN s ∧ opN s ≤ 65520 ∧ opEptr s + opN s ≤ opElim s)) := by decide

theorem test_witness_ComputedTableIsValid :
    [0#64] ≠ [] ∧ 0 + 1 < (computePartition .c32 [0#64]).length := by decide +kernel

theorem test_witness_LongestLeastCostLengthWins : 128 ≤ 128 ∧ 128 ≤ (List.replicate 128 (0#64)).length ∧ 64 ∈ pset := by decide +kernel

theorem test_witness_ShortInputsAreSingletons :
    (List.replicate 127 (1#64)).length < 128 ∧ (1 ≤ 127 ∧ 127 < 128 ∧ 127 ≤ (List.replicate 128 (1#64)).length) := by decide +kernel

theorem test_witness_EncblkWritesARawBlock :
    ∀ s ∈ [started 0x04 0 1 0 4 1 0, started 0x04 0 143 0 572 143 0],
      elemWindowOk s ∧ byteWindowOk s ∧ 1 ≤ opN s ∧ opN s < 144 ∧ opEptr s + opN s ≤ opElim s ∧
        opBptr s + opN s * elemBytes .c32 ≤ opBlim s := by decide

/-- The block of B1: exactly 73 bytes with either table. -/
theorem test_witness_EncblkWritesAFramedBlock :
    elemWindowOk blockState ∧ byteWindowOk blockState ∧ 144 ≤ opN blockState ∧ opN blockState ≤ 65536 ∧
      opEptr blockState + opN blockState ≤ opElim blockState ∧
      opBptr blockState + framedSize .c32 (segments (readElems .c32 blockState.e (opEptr blockState) (opN blockState))
        (computePartition .c32 ((readElems .c32 blockState.e (opEptr blockState) (opN blockState)).take (opN blockState - 16)))) ≤
          opBlim blockState := by decide +kernel

theorem test_witness_EncblkUsesTheHostsTable :
    elemWindowOk blockState ∧ byteWindowOk blockState ∧ 144 ≤ opN blockState ∧ opN blockState ≤ 65536 ∧
      opEptr blockState + opN blockState ≤ opElim blockState ∧
      validParts ((List.range (opPcnt blockState + 1)).map (fun i => (readCell blockState.p i).toNat)) (opN blockState - 16) = true ∧
      opBptr blockState + framedSize .c32 (segments (readElems .c32 blockState.e (opEptr blockState) (opN blockState))
        ((List.range (opPcnt blockState + 1)).map (fun i => (readCell blockState.p i).toNat))) ≤ opBlim blockState := by decide +kernel

/-- The block of B1 with one byte too few. -/
def blockTooLong : State := withParts [0, 128] (withElems 128 ((List.range 16).map (· + 1)) (started 0x24 0 144 0 72 144 0))

theorem test_witness_EncblkFirstFailedCheck :
    (∀ s ∈ [started 0x04 5 4 0 99 1 0, started 0x04 0 9 5 4 1 0, started 0x04 0 9 0 99 0 0, started 0x04 0 65537 0 99 65537 0,
        started 0x04 0 143 0 99 144 0],
      ¬(elemWindowOk s ∧ byteWindowOk s ∧ 1 ≤ opN s ∧ opN s ≤ 65536 ∧ opEptr s + opN s ≤ opElim s)) ∧
    (∀ s ∈ [withParts [0, 13, 128] blockState, withParts [0, 64, 127] blockState, started 0x04 0 1 0 3 1 0, blockTooLong],
      elemWindowOk s ∧ byteWindowOk s ∧ 1 ≤ opN s ∧ opN s ≤ 65536 ∧ opEptr s + opN s ≤ opElim s) ∧
    validParts ((List.range 3).map (fun i => (readCell (withParts [0, 13, 128] blockState).p i).toNat)) 128 = false ∧
    opBlim (started 0x04 0 1 0 3 1 0) < opBptr (started 0x04 0 1 0 3 1 0) + opN (started 0x04 0 1 0 3 1 0) * elemBytes .c32 ∧
    opBlim blockTooLong < opBptr blockTooLong + framedSize .c32 (segments (readElems .c32 blockTooLong.e 0 144)
      ((List.range 2).map (fun i => (readCell blockTooLong.p i).toNat))) ∧
    opBlim blockTooLong < opBptr blockTooLong + framedSize .c32 (segments (readElems .c32 blockTooLong.e 0 144)
      (computePartition .c32 ((readElems .c32 blockTooLong.e 0 144).take 128))) := by decide +kernel

theorem test_witness_BlockSizeIsBounded :
    let s := started 0x04 0 1 0 21 1 0
    exec (.encblk .c32 false) s = .next (outState (exec (.encblk .c32 false) s)) ∧
      (outState (exec (.encblk .c32 false) s)).err = .ok ∧
      opBptr s + (8 + 8 * cdiv (opN s) 65536 + (elemBytes .c32 + 1) * opN s) ≤ opBlim s :=
  ⟨next_outState _ (by decide +kernel), by decide +kernel⟩

theorem test_witness_DecblkReadsARawBlock :
    ∀ s ∈ [started 0x15 0 1 0 8 1 0, started 0x15 0 143 0 1144 143 0],
      elemWindowOk s ∧ byteWindowOk s ∧ 1 ≤ opN s ∧ opN s < 144 ∧ opEptr s + opN s ≤ opElim s ∧
        opBptr s + opN s * elemBytes .c64 ≤ opBlim s := by decide

/-- The source of B1. -/
def decodeState : State := withBytes 0 blockBytes (started 0x05 200 344 0 73 144 0)

theorem test_witness_DecblkEntersAFramedBlock :
    elemWindowOk decodeState ∧ byteWindowOk decodeState ∧ 144 ≤ opN decodeState ∧ opN decodeState ≤ 65536 ∧
      opEptr decodeState + opN decodeState ≤ opElim decodeState ∧ opBptr decodeState + 8 ≤ opBlim decodeState ∧
      8 ≤ memRead decodeState.b (opBptr decodeState + 4) 4 ∧
      memRead decodeState.b (opBptr decodeState + 4) 4 + 16 * elemBytes .c32 ≤ memRead decodeState.b (opBptr decodeState) 4 ∧
      opBptr decodeState + memRead decodeState.b (opBptr decodeState) 4 ≤ opBlim decodeState := by decide +kernel

/-- B-E14, B-E12, B-E13, B-E9, B-E3 and B-E8. -/
theorem test_witness_DecblkFirstFailedCheck :
    (∀ s ∈ [started 0x05 0 9 0 99 0 0, started 0x05 0 65537 0 99 65537 0],
      ¬(elemWindowOk s ∧ byteWindowOk s ∧ 1 ≤ opN s ∧ opN s ≤ 65536)) ∧
    (∀ s ∈ [started 0x05 0 143 0 73 144 0, started 0x05 0 143 0 73 143 0, started 0x05 0 144 0 7 144 0,
        withBytes 0 (0 :: 0 :: 0 :: 72 :: blockBytes.drop 4) (started 0x05 0 144 0 73 144 0), withBytes 0 blockBytes (started 0x05 0 144 0 72 144 0)],
      elemWindowOk s ∧ byteWindowOk s ∧ 1 ≤ opN s ∧ opN s ≤ 65536) ∧
    (let s := started 0x05 0 143 0 73 144 0
     opElim s < opEptr s + opN s) ∧
    (let s := started 0x05 0 143 0 73 143 0
     opEptr s + opN s ≤ opElim s ∧ opN s < 144 ∧ opBlim s < opBptr s + opN s * elemBytes .c32) ∧
    (let s := started 0x05 0 144 0 7 144 0
     opEptr s + opN s ≤ opElim s ∧ 144 ≤ opN s ∧ opBlim s < opBptr s + 8) ∧
    (let s := withBytes 0 (0 :: 0 :: 0 :: 72 :: blockBytes.drop 4) (started 0x05 0 144 0 73 144 0)
     opBptr s + 8 ≤ opBlim s ∧ ¬(8 ≤ memRead s.b (opBptr s + 4) 4 ∧ memRead s.b (opBptr s + 4) 4 + 16 * elemBytes .c32 ≤ memRead s.b (opBptr s) 4)) ∧
    (let s := withBytes 0 blockBytes (started 0x05 0 144 0 72 144 0)
     (8 ≤ memRead s.b (opBptr s + 4) 4 ∧ memRead s.b (opBptr s + 4) 4 + 16 * elemBytes .c32 ≤ memRead s.b (opBptr s) 4) ∧
      opBlim s < opBptr s + memRead s.b (opBptr s) 4) := by decide +kernel

/-- The widths 0, 9 and 64, the shortest and the longest partition, with the run and the elements exactly fitting. -/
theorem test_witness_ControlBytesDecodeTheirPartition :
    (∀ x ∈ [(0x0#4, 0, 1), (0xF#4, 0, 128), (0x0#4, 9, 1), (0xF#4, 9, 128), (0xF#4, 64, 128)],
      partitionLength x.1 = x.2.2 ∧ x.2.1 ∈ wset .c64) ∧
    (let s := atControlByte .c32 [0xB2, 0xE0] 11
     partitionLength 0xA#4 = 11 ∧ 1 ∈ wset s.cur.codec ∧ s.cur.byte + cdiv (11 * 1) 8 ≤ s.cur.slimit ∧ s.cur.elem + 11 ≤ s.cur.dlimit) := by
  decide +kernel

theorem test_witness_ControlByteErrorsInOrder :
    (let s := atControlByte .c32 [] 1
     64 ∉ wset s.cur.codec ∧ 32 ∈ wset s.cur.codec ∧ s.cur.slimit < s.cur.byte + cdiv (partitionLength 0x0#4 * 32) 8) ∧
    (let s := atControlByte .c32 [0xB2] 1
     1 ∈ wset s.cur.codec ∧ s.cur.byte + cdiv (partitionLength 0x1#4 * 1) 8 ≤ s.cur.slimit ∧
      s.cur.dlimit < s.cur.elem + partitionLength 0x1#4) := by decide +kernel

/-- The last turn of a framed block that begins the stream at byte 0 and holds the elements 0 to 143 in 73 bytes, in a DECFRM
of `n` elements with the source limit `blim`. -/
def atTail (n blim : Nat) : State :=
  { withBytes 0 blockBytes (started 0x07 0 n 0 blim n 0) with
    phase := .control
    cur :=
      { codec := .c32, blk := 0, slimit := 73, dlimit := 144, byte := 9, elem := 128, idx := 1, parts := 1, rem := n - 144 } }

/-- The same with a second block of the same bytes behind it. -/
def atTailWithBlock (n blim : Nat) : State := withBytes 73 blockBytes (atTail n blim)

/-- No further element, 143 raw ones, a framed block of 144, and a misplaced cursor. -/
theorem test_witness_TailEndsTheBlock :
    (∀ v ∈ [atTail 144 73, atTail 287 645],
      v.host = [] ∧ v.phase = .control ∧ v.cur.parts ≤ v.cur.idx ∧
      (v.cur.elem + 16 = v.cur.dlimit ∧ v.cur.byte + 16 * elemBytes v.cur.codec = v.cur.slimit) ∧ v.cur.rem < 144 ∧
      v.cur.slimit + v.cur.rem * elemBytes v.cur.codec ≤ opBlim v) ∧
    (let v := atTailWithBlock 288 146
     v.host = [] ∧ v.phase = .control ∧ v.cur.parts ≤ v.cur.idx ∧
      (v.cur.elem + 16 = v.cur.dlimit ∧ v.cur.byte + 16 * elemBytes v.cur.codec = v.cur.slimit) ∧ 144 ≤ v.cur.rem ∧
      v.cur.slimit + 8 ≤ opBlim v ∧ 8 ≤ memRead v.b (v.cur.slimit + 4) 4 ∧
      memRead v.b (v.cur.slimit + 4) 4 + 16 * elemBytes v.cur.codec ≤ memRead v.b v.cur.slimit 4 ∧
      v.cur.slimit + memRead v.b v.cur.slimit 4 ≤ opBlim v) ∧
    (let v := { atTail 144 73 with cur := { (atTail 144 73).cur with byte := 8 } }
     v.host = [] ∧ v.phase = .control ∧ v.cur.parts ≤ v.cur.idx ∧
      ¬(v.cur.elem + 16 = v.cur.dlimit ∧ v.cur.byte + 16 * elemBytes v.cur.codec = v.cur.slimit)) := by decide +kernel

/-- One byte too few for a raw block, for a header and for a framed block, and a header of zeros. -/
theorem test_witness_NextBlockFirstFailedCheck :
    (∀ v ∈ [atTail 145 76, atTail 288 80, atTail 288 81, atTailWithBlock 288 145],
      v.host = [] ∧ v.phase = .control ∧ cursorOk v ∧ v.cur.parts ≤ v.cur.idx ∧
      (v.cur.elem + 16 = v.cur.dlimit ∧ v.cur.byte + 16 * elemBytes v.cur.codec = v.cur.slimit)) ∧
    (let v := atTail 145 76
     v.cur.rem < 144 ∧ opBlim v < v.cur.slimit + v.cur.rem * elemBytes v.cur.codec) ∧
    (let v := atTail 288 80
     144 ≤ v.cur.rem ∧ opBlim v < v.cur.slimit + 8) ∧
    (let v := atTail 288 81
     144 ≤ v.cur.rem ∧ v.cur.slimit + 8 ≤ opBlim v ∧ ¬(8 ≤ memRead v.b (v.cur.slimit + 4) 4 ∧
      memRead v.b (v.cur.slimit + 4) 4 + 16 * elemBytes v.cur.codec ≤ memRead v.b v.cur.slimit 4)) ∧
    (let v := atTailWithBlock 288 145
     144 ≤ v.cur.rem ∧ v.cur.slimit + 8 ≤ opBlim v ∧ (8 ≤ memRead v.b (v.cur.slimit + 4) 4 ∧
      memRead v.b (v.cur.slimit + 4) 4 + 16 * elemBytes v.cur.codec ≤ memRead v.b v.cur.slimit 4) ∧
      opBlim v < v.cur.slimit + memRead v.b v.cur.slimit 4) := by decide +kernel

/-- B1 encoded and the state that decodes what was written. -/
theorem test_witness_DecblkRestoresWhatEncblkWrote :
    let s := blockState
    let t := outState (exec (.encblk .c32 true) s)
    let u := { started 0x05 200 344 0 73 144 0 with b := t.b }
    exec (.encblk .c32 true) s = .next t ∧ t.err = .ok ∧ u.phase = .command ∧ u.host = [] ∧
      u.latch.cmd = commandWord 0x5#4 .c32 false ∧ u.latch.n = s.latch.n ∧ elemWindowOk u ∧ byteWindowOk u ∧
      opEptr u + opN u ≤ opElim u ∧ opBptr u + t.result.toNat ≤ opBlim u ∧
      ∀ k, k < t.result.toNat → readCell u.b (opBptr u + k) = readCell t.b (opBptr s + k) :=
  ⟨next_outState _ (by decide +kernel), by decide +kernel⟩

theorem test_witness_DecodedCellsAreDetermined :
    decodeState.host = [] ∧ decodeState.phase = .command ∧ decodeState.latch.cmd = commandWord 0x5#4 .c32 false ∧
      Host.Core.run Sys2Proof.core 3 decodeState = .next (outState (Host.Core.run Sys2Proof.core 3 decodeState)) ∧
      (outState (Host.Core.run Sys2Proof.core 3 decodeState)).phase = .idle ∧
      (outState (Host.Core.run Sys2Proof.core 3 decodeState)).err = .ok :=
  ⟨rfl, rfl, by decide, next_outState _ (by decide +kernel), by decide +kernel, by decide +kernel⟩

/-- A stream of three elements, and of none: exact fit, one byte short, a source window too short. -/
theorem test_witness_EncfrmWritesTheStream :
    (∀ x ∈ [(started 0x06 0 3 0 20 3 0, 20, true), (started 0x06 0 0 0 8 0 0, 8, true), (started 0x06 0 3 0 19 3 0, 20, false)],
      (elemWindowOk x.1 ∧ byteWindowOk x.1 ∧ opEptr x.1 + opN x.1 ≤ opElim x.1) ∧
      (natToBytes 8 (magicNumber .c32) ++ (List.range (cdiv (opN x.1) 65536)).flatMap (fun k =>
        (encodeBlock .c32 (readElems .c32 x.1.e (opEptr x.1 + 65536 * k) (min 65536 (opN x.1 - 65536 * k))) x.1.work).bytes)).length = x.2.1 ∧
      decide (opBptr x.1 + x.2.1 ≤ opBlim x.1) = x.2.2) ∧
    (let s := started 0x06 0 2 0 20 3 0
     ¬(elemWindowOk s ∧ byteWindowOk s ∧ opEptr s + opN s ≤ opElim s)) := by decide +kernel

theorem test_witness_StreamSizeIsBounded :
    let s := started 0x06 0 3 0 31 3 0
    exec (.encfrm .c32) s = .next (outState (exec (.encfrm .c32) s)) ∧
      opBptr s + (8 + 8 * cdiv (opN s) 65536 + (elemBytes .c32 + 1) * opN s) ≤ opBlim s :=
  ⟨next_outState _ (by decide +kernel), by decide +kernel⟩

/-- No element, three elements (F1), and a stream whose framed block is B1 (F5). -/
theorem test_witness_DecfrmReadsTheStream :
    (∀ s ∈ [withBytes 0 (frameBytes.take 8) (started 0x07 0 0 0 8 0 0), withBytes 0 frameBytes (started 0x07 0 3 0 20 3 0)],
      elemWindowOk s ∧ byteWindowOk s ∧ opEptr s + opN s ≤ opElim s ∧ opBptr s + 8 ≤ opBlim s ∧
        memRead s.b (opBptr s) 8 = magicNumber .c32 ∧ opN s < 144 ∧ opBptr s + 8 + opN s * elemBytes .c32 ≤ opBlim s) ∧
    (let s := withBytes 0 (frameBytes.take 8 ++ blockBytes) (started 0x07 0 144 0 81 144 0)
     elemWindowOk s ∧ byteWindowOk s ∧ opEptr s + opN s ≤ opElim s ∧ opBptr s + 8 ≤ opBlim s ∧
      memRead s.b (opBptr s) 8 = magicNumber .c32 ∧ 144 ≤ opN s ∧ opBptr s + 16 ≤ opBlim s ∧ 8 ≤ memRead s.b (opBptr s + 12) 4 ∧
      memRead s.b (opBptr s + 12) 4 + 16 * elemBytes .c32 ≤ memRead s.b (opBptr s + 8) 4 ∧
      opBptr s + 8 + memRead s.b (opBptr s + 8) 4 ≤ opBlim s) := by decide +kernel

/-- F-E4, F-E5 and F4; then F-E3, and after the magic of F5 seven bytes of header, a header of zeros, and one byte too few. -/
theorem test_witness_DecfrmFirstFailedCheck :
    (let s := started 0x07 5 4 0 20 3 0
     ¬(elemWindowOk s ∧ byteWindowOk s)) ∧
    (let s := started 0x07 0 2 0 20 3 0
     (elemWindowOk s ∧ byteWindowOk s) ∧ opElim s < opEptr s + opN s) ∧
    (let s := started 0x07 0 3 0 7 3 0
     (elemWindowOk s ∧ byteWindowOk s ∧ opEptr s + opN s ≤ opElim s) ∧ opBlim s < opBptr s + 8) ∧
    (let s := withBytes 0 frameBytes (started 0x17 0 3 0 20 3 0)
     (elemWindowOk s ∧ byteWindowOk s ∧ opEptr s + opN s ≤ opElim s ∧ opBptr s + 8 ≤ opBlim s) ∧
      memRead s.b (opBptr s) 8 ≠ magicNumber .c64) ∧
    (∀ s ∈ [withBytes 0 frameBytes (started 0x07 0 3 0 19 3 0), withBytes 0 frameBytes (started 0x07 0 144 0 15 144 0),
        withBytes 0 (frameBytes.take 8) (started 0x07 0 144 0 16 144 0),
        withBytes 0 (frameBytes.take 8 ++ blockBytes) (started 0x07 0 144 0 80 144 0)],
      elemWindowOk s ∧ byteWindowOk s ∧ opEptr s + opN s ≤ opElim s ∧ opBptr s + 8 ≤ opBlim s ∧
        memRead s.b (opBptr s) 8 = magicNumber .c32) ∧
    (let s := withBytes 0 frameBytes (started 0x07 0 3 0 19 3 0)
     opN s < 144 ∧ opBlim s < opBptr s + 8 + opN s * elemBytes .c32) ∧
    (let s := withBytes 0 frameBytes (started 0x07 0 144 0 15 144 0)
     144 ≤ opN s ∧ opBlim s < opBptr s + 16) ∧
    (let s := withBytes 0 (frameBytes.take 8) (started 0x07 0 144 0 16 144 0)
     144 ≤ opN s ∧ opBptr s + 16 ≤ opBlim s ∧ ¬(8 ≤ memRead s.b (opBptr s + 12) 4 ∧
      memRead s.b (opBptr s + 12) 4 + 16 * elemBytes .c32 ≤ memRead s.b (opBptr s + 8) 4)) ∧
    (let s := withBytes 0 (frameBytes.take 8 ++ blockBytes) (started 0x07 0 144 0 80 144 0)
     144 ≤ opN s ∧ opBptr s + 16 ≤ opBlim s ∧ (8 ≤ memRead s.b (opBptr s + 12) 4 ∧
      memRead s.b (opBptr s + 12) 4 + 16 * elemBytes .c32 ≤ memRead s.b (opBptr s + 8) 4) ∧
      opBlim s < opBptr s + 8 + memRead s.b (opBptr s + 8) 4) := by decide +kernel

theorem test_witness_DecfrmRestoresWhatEncfrmWrote :
    let s := withElems 0 [1, 0x12345678, 0xFFFFFFFF] (started 0x06 0 3 0 20 3 0)
    let t := outState (exec (.encfrm .c32) s)
    let u := { started 0x07 10 13 0 20 3 0 with b := t.b }
    exec (.encfrm .c32) s = .next t ∧ t.err = .ok ∧ u.phase = .command ∧ u.host = [] ∧
      u.latch.cmd = commandWord 0x7#4 .c32 false ∧ u.latch.n = s.latch.n ∧ elemWindowOk u ∧ byteWindowOk u ∧
      opEptr u + opN u ≤ opElim u ∧ opBptr u + t.result.toNat ≤ opBlim u ∧
      ∀ k, k < t.result.toNat → readCell u.b (opBptr u + k) = readCell t.b (opBptr s + k) :=
  ⟨next_outState _ (by decide +kernel), by decide +kernel⟩

/-- A count whose bound fits 64 bits, and one whose bound does not. -/
theorem test_witness_BoundIsTheFormula :
    8 + 8 * cdiv (opN (started 0x18 0 0 0 0 (2 ^ 60) 0)) 65536 + (elemBytes .c64 + 1) * opN (started 0x18 0 0 0 0 (2 ^ 60) 0) < 2 ^ 64 ∧
    2 ^ 64 ≤ 8 + 8 * cdiv (opN (started 0x08 0 0 0 0 (2 ^ 62) 0)) 65536 +
      (elemBytes .c32 + 1) * opN (started 0x08 0 0 0 0 (2 ^ 62) 0) := by decide +kernel

end Sys2Proof.Tests
end

section
/-! How `MemRead` and `MemWrite` act on byte memory (20_memory.md R64, R65, R67), for every size of access: `MemRead` grows by one byte at
its least significant end, `MemWrite` is a run of cells, and a read inside a written value is a slice of that value. -/

namespace Sys2Proof.Machine

@[simp] theorem memRead_zero (m : Mem 8) (a : Nat) : memRead m a 0 = 0 := rfl

/-- The last byte read is the least significant one. -/
theorem memRead_succ (m : Mem 8) (a n : Nat) :
    memRead m a (n + 1) = memRead m a n * 256 + (readCell m (a + n)).toNat := by
  simp [memRead, bytesToNat, readCells, List.range_succ]

/-- `MemRead` as the sum of R64: the cell at `a + k` has weight `256 ^ (n − 1 − k)`. -/
theorem memRead_eq_sum (m : Mem 8) (a n : Nat) :
    memRead m a n = ((List.range n).map fun k => (readCell m (a + k)).toNat * 256 ^ (n - 1 - k)).sum := by
  induction n with
  | zero => rfl
  | succ n ih =>
    have shift : ∀ k ∈ List.range n, (readCell m (a + k)).toNat * 256 ^ (n + 1 - 1 - k) =
        (readCell m (a + k)).toNat * 256 ^ (n - 1 - k) * 256 := by
      intro k hk
      have hk := List.mem_range.1 hk
      rw [show n + 1 - 1 - k = n - 1 - k + 1 by omega, pow_succ, mul_assoc]
    rw [memRead_succ, ih, List.range_succ, List.map_append, List.sum_append, List.map_congr_left shift,
      List.sum_map_mul_right]
    simp

theorem getD_natToBytes (n v k : Nat) (h : k < n) :
    (natToBytes n v).getD k 0 = BitVec.ofNat 8 (v / 256 ^ (n - 1 - k)) := by
  simp [natToBytes, List.getD, h]

theorem toNat_readCell_memWrite_inside (m : Mem 8) (a n v k : Nat) (h : k < n) :
    (readCell (memWrite m a n v) (a + k)).toNat = v / 256 ^ (n - 1 - k) % 256 := by
  rw [memWrite, readCell_writeCells_inside m a _ k (by simpa using h), getD_natToBytes n v k h, BitVec.toNat_ofNat]

theorem readCell_memWrite_outside (m : Mem 8) (a n v x : Nat) (h : ¬(a ≤ x ∧ x < a + n)) :
    readCell (memWrite m a n v) x = readCell m x :=
  readCell_writeCells_outside m a _ x (by simpa using h)

/-- The `j` bytes from byte `i` of a written value are the slice of the value that has `d` bytes below it. -/
theorem memRead_memWrite_slice (m : Mem 8) (a n v i j d : Nat) (h : i + j + d = n) :
    memRead (memWrite m a n v) (a + i) j = v / 256 ^ d % 256 ^ j := by
  induction j generalizing d with
  | zero => simp [Nat.mod_one]
  | succ j ih =>
    have upper : v / 256 ^ (d + 1) = v / 256 ^ d / 256 := by rw [pow_succ, Nat.div_div_eq_div_mul]
    have last : (readCell (memWrite m a n v) (a + i + j)).toNat = v / 256 ^ d % 256 := by
      rw [add_assoc, toNat_readCell_memWrite_inside m a n v (i + j) (by omega), show n - 1 - (i + j) = d by omega]
    calc memRead (memWrite m a n v) (a + i) (j + 1)
        = v / 256 ^ d / 256 % 256 ^ j * 256 + v / 256 ^ d % 256 := by
          rw [memRead_succ, ih (d + 1) (by omega), upper, last]
      _ = v / 256 ^ d % 256 ^ (j + 1) := by rw [pow_succ', Nat.mod_mul]; ring

/-- A value that fits is read as it was written. -/
theorem memRead_memWrite_same (m : Mem 8) (a n v : Nat) (h : v < 256 ^ n) : memRead (memWrite m a n v) a n = v := by
  have whole := memRead_memWrite_slice m a n v 0 n 0 (by omega)
  simpa [Nat.mod_eq_of_lt h] using whole

/-- A 32-bit value read as two 16-bit halves: the upper half stands first (R67). -/
theorem memRead_halves_memWrite (m : Mem 8) (a v : Nat) (h : v < 2 ^ 32) :
    memRead (memWrite m a 4 v) a 2 = v / 65536 ∧ memRead (memWrite m a 4 v) (a + 2) 2 = v % 65536 := by
  have upper := memRead_memWrite_slice m a 4 v 0 2 2 rfl
  have lower := memRead_memWrite_slice m a 4 v 2 2 0 rfl
  norm_num at upper lower
  exact ⟨by omega, lower⟩

/-- Settles O26: each clause is one of the rules above, which hold for every size of access. -/
theorem byteAccessIsBigEndian : Obligations.ByteAccessIsBigEndian :=
  ⟨fun m a n _ => memRead_eq_sum m a n,
   fun m a v n _ hv =>
    ⟨fun k hk => toNat_readCell_memWrite_inside m a n v k hk,
     fun x hx => readCell_memWrite_outside m a n v x hx,
     memRead_memWrite_same m a n v hv⟩,
   memRead_halves_memWrite⟩

end Sys2Proof.Machine
end

section
/-! The integer functions of the packer (40_pack.md R131, R132): `bits_needed` is the least width that holds an element, and
`round_up` the least width of `Wset` that is large enough. -/

namespace Sys2Proof.Machine

/-- R131: an element fits `b` bits exactly where `b` is at least what it needs. -/
theorem bitsNeeded_le_iff (x : Elem) (b : Nat) : bitsNeeded x ≤ b ↔ x.toNat < 2 ^ b := by
  unfold bitsNeeded
  split
  case isTrue hx => simp [hx]
  case isFalse hx =>
    have nonzero : x.toNat ≠ 0 := fun h => hx (BitVec.eq_of_toNat_eq h)
    rw [Nat.succ_le_iff, Nat.log2_lt nonzero]

@[simp] theorem bitsNeeded_zero : bitsNeeded 0 = 0 := rfl

theorem bitsNeeded_pos (x : Elem) (hx : x ≠ 0) : 1 ≤ bitsNeeded x := by
  rw [bitsNeeded, if_neg hx]
  exact Nat.le_add_left 1 _

theorem lt_two_pow_bitsNeeded (x : Elem) : x.toNat < 2 ^ bitsNeeded x := (bitsNeeded_le_iff x _).1 le_rfl

/-- One bit fewer than needed is not enough. -/
theorem two_pow_pred_bitsNeeded_le (x : Elem) (hx : x ≠ 0) : 2 ^ (bitsNeeded x - 1) ≤ x.toNat := by
  have tooFew : ¬ bitsNeeded x ≤ bitsNeeded x - 1 := by
    have := bitsNeeded_pos x hx
    omega
  exact Nat.le_of_not_lt fun h => tooFew ((bitsNeeded_le_iff x _).2 h)

theorem bitsNeeded_le_cell (x : Elem) : bitsNeeded x ≤ 64 := (bitsNeeded_le_iff x 64).2 x.isLt

/-- An element as its family reads it has at most `ELEM_W` bits (R13, R31). -/
theorem readElem_lt (c : Codec) (m : Mem 64) (i : Nat) : (readElem c m i).toNat < 2 ^ elemWidth c := by
  cases c with
  | c32 =>
    have := (BitVec.setWidth 32 (readCell m i)).isLt
    simp only [readElem, elemWidth, BitVec.toNat_setWidth] at this ⊢
    omega
  | c64 => exact (readCell m i).isLt

theorem wset_strictly_rising (c : Codec) : (wset c).Pairwise (· < ·) := by cases c <;> decide

theorem elemWidth_mem_wset (c : Codec) : elemWidth c ∈ wset c := by cases c <;> decide

theorem le_elemWidth_of_mem_wset (c : Codec) : ∀ w ∈ wset c, w ≤ elemWidth c := by cases c <;> decide

/-- In a rising list the first entry that is at least `b` is the least such entry. -/
theorem isLeast_of_find?_rising (l : List Nat) (rising : l.Pairwise (· < ·)) (b v : Nat)
    (found : (l.find? fun w => b ≤ w) = some v) : IsLeast {w | w ∈ l ∧ b ≤ w} v := by
  obtain ⟨large, before, after, rfl, small⟩ := List.find?_eq_some_iff_append.1 found
  refine ⟨⟨by simp, by simpa using large⟩, fun w ⟨hw, hbw⟩ => ?_⟩
  rcases List.mem_append.1 hw with hw | hw
  · exact absurd hbw (by simpa using small w hw)
  · rcases List.mem_cons.1 hw with rfl | hw
    · exact le_rfl
    · exact (List.rel_of_pairwise_cons (List.pairwise_append.1 rising).2.1 hw).le

/-- R132: `round_up(c, b)` is the smallest width of `Wset(c)` that is at least `b`. -/
theorem isLeast_roundUp (c : Codec) (b : Nat) (h : b ≤ elemWidth c) :
    IsLeast {w | w ∈ wset c ∧ b ≤ w} (roundUp c b) := by
  have some_width : ((wset c).find? fun w => b ≤ w).isSome :=
    List.find?_isSome.2 ⟨elemWidth c, elemWidth_mem_wset c, by simpa using h⟩
  obtain ⟨v, found⟩ := Option.isSome_iff_exists.1 some_width
  have roundUp_eq : roundUp c b = v := by simp [roundUp, found]
  exact roundUp_eq ▸ isLeast_of_find?_rising (wset c) (wset_strictly_rising c) b v found

theorem roundUp_mono (c : Codec) (b' b : Nat) (h : b ≤ elemWidth c) (hb : b' ≤ b) : roundUp c b' ≤ roundUp c b :=
  (isLeast_roundUp c b h).mono (isLeast_roundUp c b' (hb.trans h)) fun _ ⟨hw, hbw⟩ => ⟨hw, hb.trans hbw⟩

theorem roundUp_of_mem_wset (c : Codec) (w : Nat) (hw : w ∈ wset c) : roundUp c w = w :=
  (isLeast_roundUp c w (le_elemWidth_of_mem_wset c w hw)).unique ⟨⟨hw, le_rfl⟩, fun _ ⟨_, h⟩ => h⟩

/-- Settles O24: `bits_needed` and `round_up` are each the least width of their kind. -/
theorem integerFunctions : Obligations.IntegerFunctions := by
  refine ⟨fun x => ⟨?_, fun hx => ?_⟩, fun m i => ?_, fun c b hb => ?_⟩
  · rintro rfl
    exact bitsNeeded_zero
  · exact ⟨two_pow_pred_bitsNeeded_le x hx, lt_two_pow_bitsNeeded x, bitsNeeded_pos x hx, bitsNeeded_le_cell x⟩
  · exact (bitsNeeded_le_iff _ 32).2 (readElem_lt .c32 m i)
  · obtain ⟨⟨mem, le⟩, least⟩ := isLeast_roundUp c b hb
    exact ⟨mem, le, fun w hw hbw => least ⟨hw, hbw⟩, fun b' hb' => roundUp_mono c b' b hb hb', roundUp_of_mem_wset c⟩

end Sys2Proof.Machine
end

section
/-! Runs of fields as numbers (00_scope.md R12, 40_pack.md R134 to R136): the number that a bit sequence spells splits at any
bit, a byte sequence is the number of its stream bits, and the stream bits of a packed run are the low bits of its elements. -/

namespace Sys2Proof.Machine

/-- Only the bits below `w` matter. -/
theorem bitsToNat_congr (f g : Nat → Bool) (w : Nat) (h : ∀ j, j < w → f j = g j) : bitsToNat f w = bitsToNat g w := by
  induction w with
  | zero => rfl
  | succ w ih => rw [bitsToNat, bitsToNat, ih fun j hj => h j (by omega), h w (by omega)]

/-- The first `a` of `a + b` bits are the upper part of the number. -/
theorem bitsToNat_add (f : Nat → Bool) (a b : Nat) :
    bitsToNat f (a + b) = bitsToNat f a * 2 ^ b + bitsToNat (fun j => f (a + j)) b := by
  induction b with
  | zero => simp [bitsToNat]
  | succ b ih => rw [← add_assoc, bitsToNat, bitsToNat, ih, pow_succ]; ring

theorem bitsToNat_eq_zero (f : Nat → Bool) (w : Nat) (h : ∀ j, j < w → f j = false) : bitsToNat f w = 0 := by
  induction w with
  | zero => rfl
  | succ w ih => simp [bitsToNat, ih fun j hj => h j (by omega), h w (by omega)]

/-- The bits `w − 1`, …, 0 of a word spell its low `w` bits. -/
theorem bitsToNat_getLsbD {n : Nat} (x : BitVec n) (w : Nat) :
    bitsToNat (fun j => x.getLsbD (w - 1 - j)) w = x.toNat % 2 ^ w := by
  apply Nat.eq_of_testBit_eq
  intro k
  rw [Nat.testBit_mod_two_pow]
  by_cases hk : k < w
  · have reversed : w - 1 - (w - 1 - k) = k := by omega
    rw [testBit_bitsToNat _ _ _ hk, reversed]
    simp [hk, BitVec.getLsbD]
  · have small : bitsToNat (fun j => x.getLsbD (w - 1 - j)) w < 2 ^ k :=
      (bitsToNat_lt _ w).trans_le (Nat.pow_le_pow_right (by decide) (by omega))
    simp [Nat.testBit_lt_two_pow small, hk]

/-! ### Stream bits -/

theorem streamBit_append_left (r t : List Byte) (k : Nat) (h : k < 8 * r.length) :
    streamBit (r ++ t) k = streamBit r k := by
  have : k / 8 < r.length := by omega
  rw [streamBit, streamBit, List.getD_append _ _ _ _ this]

theorem streamBit_last (r : List Byte) (b : Byte) (j : Nat) (h : j < 8) :
    streamBit (r ++ [b]) (8 * r.length + j) = b.getLsbD (7 - j) := by
  have byte : (8 * r.length + j) / 8 = r.length := by omega
  have bit : (8 * r.length + j) % 8 = j := by omega
  simp [streamBit, byte, bit]

/-- A byte sequence as one number (R64) is the number that its stream bits spell (R12). -/
theorem bytesToNat_eq_bitsToNat (r : List Byte) : bytesToNat r = bitsToNat (streamBit r) (8 * r.length) := by
  induction r using List.reverseRecOn with
  | nil => rfl
  | append_singleton r b ih =>
    have upper : bitsToNat (streamBit (r ++ [b])) (8 * r.length) = bytesToNat r := by
      rw [ih]
      exact bitsToNat_congr _ _ _ fun k hk => streamBit_append_left r [b] k hk
    have last : bitsToNat (fun j => streamBit (r ++ [b]) (8 * r.length + j)) 8 = b.toNat := by
      rw [bitsToNat_congr _ (fun j => b.getLsbD (8 - 1 - j)) 8 fun j hj => streamBit_last r b j hj,
        bitsToNat_getLsbD, Nat.mod_eq_of_lt b.isLt]
    have grow : bytesToNat (r ++ [b]) = bytesToNat r * 2 ^ 8 + b.toNat := by simp [bytesToNat]
    rw [grow, List.length_append, List.length_singleton, mul_add, mul_one, bitsToNat_add, upper, last]

/-! ### The packed run -/

/-- A run of whole bytes has room for its fields (R130). -/
theorem mul_le_eight_mul_runBytes (n w : Nat) : n * w ≤ 8 * runBytes n w := by unfold runBytes cdiv; omega

/-- Bit `j` of field `i` lies among the bits of the `n` fields. -/
theorem field_bit_lt {n w i j : Nat} (hi : i < n) (hj : j < w) : i * w + j < n * w :=
  calc i * w + j < i * w + w := by omega
    _ = (i + 1) * w := (Nat.succ_mul i w).symm
    _ ≤ n * w := Nat.mul_le_mul_right w hi

theorem packBit_field (s : List Elem) (w i j : Nat) (hi : i < s.length) (hj : j < w) :
    packBit s w (i * w + j) = (s.getD i 0).getLsbD (w - 1 - j) := by
  have elem : (i * w + j) / w = i := by
    rw [mul_comm, Nat.mul_add_div (by omega), Nat.div_eq_of_lt hj, add_zero]
  have bit : (i * w + j) % w = j := by rw [mul_comm, Nat.mul_add_mod, Nat.mod_eq_of_lt hj]
  rw [packBit, if_pos (field_bit_lt hi hj), elem, bit]

theorem packBit_padding (s : List Elem) (w k : Nat) (h : s.length * w ≤ k) : packBit s w k = false :=
  if_neg (by omega)

theorem streamBit_packBits (s : List Elem) (w k : Nat) (h : k < 8 * runBytes s.length w) :
    streamBit (packBits s w) k = packBit s w k := by
  have inside : k / 8 < runBytes s.length w := by omega
  have within : 7 - k % 8 < 8 := by omega
  have position : 8 * (k / 8) + (8 - 1 - (7 - k % 8)) = k := by omega
  have byte : (packBits s w).getD (k / 8) 0 = BitVec.ofNat 8 (bitsToNat (fun j => packBit s w (8 * (k / 8) + j)) 8) := by
    simp [packBits, List.getD, inside]
  rw [streamBit, byte, BitVec.getLsbD_ofNat, testBit_bitsToNat _ _ _ within, position]
  simp [within]

/-- R134: stream bit `i·w + j` of a packed run is bit `w − 1 − j` of element `i`. -/
theorem streamBit_packBits_field (s : List Elem) (w i j : Nat) (hi : i < s.length) (hj : j < w) :
    streamBit (packBits s w) (i * w + j) = (s.getD i 0).getLsbD (w - 1 - j) := by
  have inside := (field_bit_lt hi hj).trans_le (mul_le_eight_mul_runBytes s.length w)
  rw [streamBit_packBits s w _ inside, packBit_field s w i j hi hj]

/-- The low `w` bits of the elements as one number, the first element most significant (R134). -/
def concatLowBits (w : Nat) (s : List Elem) : Nat := s.foldl (fun t x => t * 2 ^ w + x.toNat % 2 ^ w) 0

theorem concatLowBits_concat (w : Nat) (s : List Elem) (x : Elem) :
    concatLowBits w (s ++ [x]) = concatLowBits w s * 2 ^ w + x.toNat % 2 ^ w := by simp [concatLowBits]

/-- The bits of the first `i` fields spell the concatenation of the first `i` elements. -/
theorem bitsToNat_packBit_take (s : List Elem) (w i : Nat) (h : i ≤ s.length) :
    bitsToNat (packBit s w) (i * w) = concatLowBits w (s.take i) := by
  induction i with
  | zero => simp [bitsToNat, concatLowBits]
  | succ i ih =>
    have field_i : bitsToNat (fun j => packBit s w (i * w + j)) w = (s.getD i 0).toNat % 2 ^ w := by
      rw [bitsToNat_congr _ _ w fun j hj => packBit_field s w i j h hj, bitsToNat_getLsbD]
    have elem : s.getD i 0 = s[i] := List.getD_eq_getElem s 0 h
    rw [Nat.succ_mul, bitsToNat_add, ih (by omega), field_i, elem, ← concatLowBits_concat, List.take_concat_get' s i h]

/-- R134: a packed run is its elements' low bits concatenated, with zeros below them up to a whole byte. -/
theorem bytesToNat_packBits (s : List Elem) (w : Nat) :
    bytesToNat (packBits s w) = concatLowBits w s * 2 ^ (8 * runBytes s.length w - s.length * w) := by
  have split : 8 * runBytes s.length w = s.length * w + (8 * runBytes s.length w - s.length * w) := by
    have := mul_le_eight_mul_runBytes s.length w
    omega
  calc bytesToNat (packBits s w)
      = bitsToNat (packBit s w) (8 * runBytes s.length w) := by
        rw [bytesToNat_eq_bitsToNat, length_packBits]
        exact bitsToNat_congr _ _ _ fun k hk => streamBit_packBits s w k hk
    _ = bitsToNat (packBit s w) (s.length * w) * 2 ^ (8 * runBytes s.length w - s.length * w) := by
        conv_lhs => rw [split]
        rw [bitsToNat_add, bitsToNat_eq_zero (fun j => packBit s w (s.length * w + j)) _
          fun j _ => packBit_padding s w _ (by omega), add_zero]
    _ = concatLowBits w s * 2 ^ (8 * runBytes s.length w - s.length * w) := by
        rw [bitsToNat_packBit_take s w s.length le_rfl, List.take_length]

/-- Settles O27: the number of the run, its fields' bits and its padding, each by its lemma above; no bound on `w` is needed. -/
theorem packBitsIsTheConcatenation : Obligations.PackBitsIsTheConcatenation := fun s w _ =>
  ⟨length_packBits s w, bytesToNat_packBits s w, fun i j hi hj => streamBit_packBits_field s w i j hi hj,
    fun k hpad hk => (streamBit_packBits s w k hk).trans (packBit_padding s w k hpad)⟩

/-! ### Unpacking -/

theorem field_packBits (s : List Elem) (w i : Nat) (hi : i < s.length) :
    field (packBits s w) w i = (s.getD i 0).toNat % 2 ^ w := by
  rw [field, sbits, bitsToNat_congr _ _ w fun j hj => streamBit_packBits_field s w i j hi hj, bitsToNat_getLsbD]

theorem getD_unpackBits (r : List Byte) (w n i : Nat) (hi : i < n) :
    (unpackBits r w n).getD i 0 = BitVec.ofNat 64 (field r w i) := by
  simp [unpackBits, List.getD, hi]

/-- R136: the unpacked cell holds the low `w` bits of the element. -/
theorem toNat_getD_unpackBits_packBits (s : List Elem) (w i : Nat) (hi : i < s.length) :
    ((unpackBits (packBits s w) w s.length).getD i 0).toNat = (s.getD i 0).toNat % 2 ^ w := by
  have fits : (s.getD i 0).toNat % 2 ^ w < 2 ^ 64 := (Nat.mod_le _ _).trans_lt (s.getD i 0).isLt
  rw [getD_unpackBits _ _ _ _ hi, field_packBits s w i hi, BitVec.toNat_ofNat, Nat.mod_eq_of_lt fits]

/-- Settles O28: field `i` of the packed run is the low `w` bits of element `i`, which are all of it where it fits. -/
theorem unpackBitsInvertsPackBits : Obligations.UnpackBitsInvertsPackBits := fun s w i _ hi =>
  have low := toNat_getD_unpackBits_packBits s w i hi
  ⟨low, fun fits => BitVec.eq_of_toNat_eq (low.trans (Nat.mod_eq_of_lt fits))⟩

end Sys2Proof.Machine
end

section
/-! The dynamic program of the partitioner (42_partition.md R193, R194): a step only appends to the arrays, so the arrays
after step `j` stand at the front of the final ones, and the search of a step `j ≥ 128` ends at the longest length of least
cost. -/

namespace Sys2Proof.Machine

/-! ### The search over lengths -/

/-- `l` is the largest of the lengths `lens` whose cost `f` is least (R194). -/
structure IsLongestLeast (f : Nat → Nat) (lens : List Nat) (l : Nat) : Prop where
  mem : l ∈ lens
  least : ∀ l' ∈ lens, f l ≤ f l' ∧ (l < l' → f l < f l')

theorem isLongestLeast_singleton (f : Nat → Nat) (l : Nat) : IsLongestLeast f [l] l := ⟨by simp, by simp⟩

/-- A longer length that costs no more takes over. -/
theorem IsLongestLeast.concat_of_le {f : Nat → Nat} {lens : List Nat} {l m : Nat} (h : IsLongestLeast f lens l)
    (longer : ∀ x ∈ lens, x < m) (le : f m ≤ f l) : IsLongestLeast f (lens ++ [m]) m := by
  refine ⟨by simp, fun x hx => ?_⟩
  rcases List.mem_append.1 hx with hx | hx
  · have := longer x hx
    exact ⟨le.trans (h.least x hx).1, by omega⟩
  · simp [List.mem_singleton.1 hx]

/-- A length that costs more changes nothing. -/
theorem IsLongestLeast.concat_of_lt {f : Nat → Nat} {lens : List Nat} {l m : Nat} (h : IsLongestLeast f lens l)
    (lt : f l < f m) : IsLongestLeast f (lens ++ [m]) l := by
  refine ⟨List.mem_append_left _ h.mem, fun x hx => ?_⟩
  rcases List.mem_append.1 hx with hx | hx
  · exact h.least x hx
  · rw [List.mem_singleton.1 hx]
    exact ⟨lt.le, fun _ => lt⟩

/-- Only the costs of the lengths in the list matter. -/
theorem IsLongestLeast.congr {f g : Nat → Nat} {lens : List Nat} {l : Nat} (h : IsLongestLeast f lens l)
    (agree : ∀ x ∈ lens, f x = g x) : IsLongestLeast g lens l :=
  ⟨h.mem, fun x hx => agree l h.mem ▸ agree x hx ▸ h.least x hx⟩

theorem tryLength_none (c : Codec) (s : List Elem) (cost : List Nat) {j l : Nat} (hl : l ≤ j) :
    tryLength c s cost j none l = some (candidate c s cost j l, j - l) := by simp [tryLength, hl]

theorem tryLength_some (c : Codec) (s : List Elem) (cost : List Nat) {j l : Nat} (hl : l ≤ j) (x : Nat × Nat) :
    tryLength c s cost j (some x) l =
      some (if candidate c s cost j l ≤ x.1 then (candidate c s cost j l, j - l) else x) := by
  simp only [tryLength, if_pos hl]
  split <;> rfl

/-- Trying lengths in rising order ends at the longest one of least cost (R193, R194). -/
theorem foldl_tryLength (c : Codec) (s : List Elem) (cost : List Nat) (j : Nat) (lens : List Nat) (nonempty : lens ≠ [])
    (rising : lens.Pairwise (· < ·)) (fits : ∀ l ∈ lens, l ≤ j) :
    ∃ l, IsLongestLeast (candidate c s cost j) lens l ∧
      lens.foldl (tryLength c s cost j) none = some (candidate c s cost j l, j - l) := by
  induction lens using List.reverseRecOn with
  | nil => exact absurd rfl nonempty
  | append_singleton lens m ih =>
    obtain ⟨rising, -, longer⟩ := List.pairwise_append.1 rising
    have hm : m ≤ j := fits m (by simp)
    rw [List.foldl_concat]
    rcases eq_or_ne lens [] with rfl | hne
    · exact ⟨m, isLongestLeast_singleton _ m, tryLength_none c s cost hm⟩
    · obtain ⟨l, best, found⟩ := ih hne rising fun x hx => fits x (by simp [hx])
      rw [found, tryLength_some c s cost hm]
      by_cases le : candidate c s cost j m ≤ candidate c s cost j l
      · exact ⟨m, best.concat_of_le (fun x hx => longer x hx m (by simp)) le, by rw [if_pos le]⟩
      · exact ⟨l, best.concat_of_lt (Nat.lt_of_not_le le), by rw [if_neg le]⟩

theorem pset_strictly_rising : pset.Pairwise (· < ·) := by decide

theorem bounds_of_mem_pset : ∀ l ∈ pset, 1 ≤ l ∧ l ≤ maxPartition := by decide

/-- What step `j ≥ 128` appends: the least cost, and the reference of the longest length that has it. -/
theorem searchStep_eq (c : Codec) (s : List Elem) (t : Plan) (j : Nat) (hj : maxPartition ≤ j) :
    ∃ l, IsLongestLeast (candidate c s t.cost j) pset l ∧
      searchStep c s t j = { cost := t.cost ++ [candidate c s t.cost j l], refs := t.refs ++ [j - l] } := by
  obtain ⟨l, best, found⟩ := foldl_tryLength c s t.cost j pset (by decide) pset_strictly_rising
    fun l hl => (bounds_of_mem_pset l hl).2.trans hj
  exact ⟨l, best, by simp [searchStep, found]⟩

/-- A candidate reads only the cost of the elements before the partition. -/
theorem candidate_congr (c : Codec) (s : List Elem) (cost cost' : List Nat) (j l : Nat)
    (h : cost.getD (j - l) 0 = cost'.getD (j - l) 0) : candidate c s cost j l = candidate c s cost' j l := by
  rw [candidate, candidate, h]

theorem slice_last (s : List Elem) {j l : Nat} (hl : l ≤ j) : slice s (j - l) j = (s.drop (j - l)).take l := by
  rw [slice, Nat.sub_sub_self hl]

/-! ### The arrays -/

/-- The arrays after step `n` of the dynamic program (R193). -/
def planTo (c : Codec) (s : List Elem) (n : Nat) : Plan :=
  (List.range n).foldl (fun t k => planStep c s t (k + 1)) planStart

theorem plan_eq_planTo (c : Codec) (s : List Elem) : plan c s = planTo c s s.length := rfl

theorem planTo_succ (c : Codec) (s : List Elem) (n : Nat) :
    planTo c s (n + 1) = planStep c s (planTo c s n) (n + 1) := by
  simp [planTo, List.range_succ]

/-- A step appends one entry to each array and leaves the entries before it. -/
theorem planStep_appends (c : Codec) (s : List Elem) (t : Plan) (j : Nat) :
    ∃ x r, planStep c s t j = { cost := t.cost ++ [x], refs := t.refs ++ [r] } := by
  unfold planStep
  split
  · exact ⟨_, _, rfl⟩
  · exact ⟨_, _, rfl⟩

theorem length_planTo (c : Codec) (s : List Elem) (n : Nat) :
    (planTo c s n).cost.length = n + 1 ∧ (planTo c s n).refs.length = n + 1 := by
  induction n with
  | zero => exact ⟨rfl, rfl⟩
  | succ n ih =>
    obtain ⟨x, r, step⟩ := planStep_appends c s (planTo c s n) (n + 1)
    simp [planTo_succ, step, ih]

/-- Later steps leave the entries up to `n` as step `n` left them. -/
theorem planTo_prefix (c : Codec) (s : List Elem) {n m : Nat} (h : n ≤ m) :
    (planTo c s n).cost <+: (planTo c s m).cost ∧ (planTo c s n).refs <+: (planTo c s m).refs := by
  induction m, h using Nat.le_induction with
  | base => exact ⟨List.prefix_rfl, List.prefix_rfl⟩
  | succ m _ ih =>
    obtain ⟨x, r, step⟩ := planStep_appends c s (planTo c s m) (m + 1)
    rw [planTo_succ, step]
    exact ⟨ih.1.trans (List.prefix_append _ _), ih.2.trans (List.prefix_append _ _)⟩

theorem getD_of_prefix {l m : List Nat} (h : l <+: m) {i : Nat} (hi : i < l.length) : m.getD i 0 = l.getD i 0 := by
  obtain ⟨rest, rfl⟩ := h
  exact List.getD_append _ _ _ _ hi

/-- Entry `i` of the final arrays is entry `i` after any step from `i` on. -/
theorem getD_plan (c : Codec) (s : List Elem) {i n : Nat} (hi : i ≤ n) (hn : n ≤ s.length) :
    (plan c s).cost.getD i 0 = (planTo c s n).cost.getD i 0 ∧ (plan c s).refs.getD i 0 = (planTo c s n).refs.getD i 0 := by
  obtain ⟨cost_len, refs_len⟩ := length_planTo c s n
  obtain ⟨cost_prefix, refs_prefix⟩ := planTo_prefix c s hn
  exact ⟨getD_of_prefix cost_prefix (by omega), getD_of_prefix refs_prefix (by omega)⟩

/-- Entry `k + 1` of the final arrays is what step `k + 1` appends to the arrays after step `k`. -/
theorem getD_plan_succ (c : Codec) (s : List Elem) {k x r : Nat} (hk : k < s.length)
    (step : planStep c s (planTo c s k) (k + 1) =
      { cost := (planTo c s k).cost ++ [x], refs := (planTo c s k).refs ++ [r] }) :
    (plan c s).cost.getD (k + 1) 0 = x ∧ (plan c s).refs.getD (k + 1) 0 = r := by
  obtain ⟨cost_len, refs_len⟩ := length_planTo c s k
  obtain ⟨cost_eq, refs_eq⟩ := getD_plan c s le_rfl hk
  rw [cost_eq, refs_eq, planTo_succ, step]
  simp [List.getD, cost_len, refs_len]

/-- R193, R194: entry `j ≥ 128` of the final arrays is the longest length of least cost, by the final costs themselves. -/
theorem plan_search (c : Codec) (s : List Elem) {j : Nat} (hj : maxPartition ≤ j) (hn : j ≤ s.length) :
    ∃ l, IsLongestLeast (candidate c s (plan c s).cost j) pset l ∧
      (plan c s).cost.getD j 0 = candidate c s (plan c s).cost j l ∧ (plan c s).refs.getD j 0 = j - l := by
  obtain ⟨k, rfl⟩ : ∃ k, j = k + 1 := ⟨j - 1, by unfold maxPartition at hj; omega⟩
  have final : ∀ l ∈ pset, candidate c s (planTo c s k).cost (k + 1) l = candidate c s (plan c s).cost (k + 1) l := by
    intro l hl
    have := (bounds_of_mem_pset l hl).1
    exact candidate_congr c s _ _ _ _ (getD_plan c s (by omega) (by omega)).1.symm
  have step : planStep c s (planTo c s k) (k + 1) = searchStep c s (planTo c s k) (k + 1) := if_neg (Nat.not_lt.2 hj)
  obtain ⟨l, best, appended⟩ := searchStep_eq c s (planTo c s k) (k + 1) hj
  have entries := getD_plan_succ c s hn (step.trans appended)
  exact ⟨l, best.congr final, final l best.mem ▸ entries.1, entries.2⟩

/-- Settles O38: entry `j` comes from the longest length of least cost, and a candidate is its cost written out. -/
theorem longestLeastCostLengthWins : Obligations.LongestLeastCostLengthWins := by
  intro c s j hj hn
  obtain ⟨l, ⟨hl, least⟩, cost_eq, refs_eq⟩ := plan_search c s hj hn
  have written_out : ∀ l ∈ pset, candidate c s (plan c s).cost j l =
      (plan c s).cost.getD (j - l) 0 + cdiv (l * runWidth c ((s.drop (j - l)).take l)) 8 := fun l hl => by
    rw [candidate, slice_last s ((bounds_of_mem_pset l hl).2.trans hj)]
  refine ⟨l, hl, refs_eq, cost_eq.trans (written_out l hl), fun l' hl' => ?_⟩
  rw [cost_eq, ← written_out l' hl']
  exact least l' hl'

end Sys2Proof.Machine
end

section
/-! The source's partitioner example (42_partition.md R199). Two facts about the dynamic program spare most of its
evaluation: leading zeros leave zero costs, and the arrays of a front of the elements are a front of the arrays. -/

namespace Sys2Proof.Machine

/-! ### Fronts -/

theorem slice_take (s : List Elem) (a : Nat) {b m : Nat} (h : b ≤ m) : slice (s.take m) a b = slice s a b := by
  rw [slice, slice, List.drop_take, List.take_take, Nat.min_eq_left (Nat.sub_le_sub_right h a)]

/-- Step `j` reads no element from `j` on. -/
theorem planStep_take (c : Codec) (s : List Elem) (t : Plan) {j m : Nat} (hj : 1 ≤ j) (h : j ≤ m) :
    planStep c (s.take m) t j = planStep c s t j := by
  have last : (s.take m).getD (j - 1) 0 = s.getD (j - 1) 0 := by
    rw [List.getD_eq_getElem?_getD, List.getElem?_take_of_lt (by omega), ← List.getD_eq_getElem?_getD]
  have same_candidates : tryLength c (s.take m) t.cost j = tryLength c s t.cost j := by
    funext best l
    have same : candidate c (s.take m) t.cost j l = candidate c s t.cost j l := by
      rw [candidate, candidate, slice_take s (j - l) h]
    simp only [tryLength, same]
  simp only [planStep, seedStep, searchStep, last, same_candidates]

theorem planTo_take (c : Codec) (s : List Elem) {n m : Nat} (h : n ≤ m) : planTo c (s.take m) n = planTo c s n := by
  induction n with
  | zero => rfl
  | succ n ih => rw [planTo_succ, planTo_succ, ih (by omega), planStep_take c s _ (by omega) h]

/-- The arrays of a front are the arrays at its end. -/
theorem plan_take (c : Codec) (s : List Elem) {m : Nat} (h : m ≤ s.length) : plan c (s.take m) = planTo c s m := by
  rw [plan_eq_planTo, List.length_take_of_le h, planTo_take c s le_rfl]

theorem backtrack_zero (refs : List Nat) (fuel : Nat) (parts : List Nat) : backtrack refs fuel 0 parts = parts := by
  cases fuel with
  | zero => rfl
  | succ k => rfl

/-- Elements whose last reference is 0 are one partition. -/
theorem computePartition_of_ref_zero (c : Codec) (s : List Elem) {n : Nat} (length_eq : s.length = n + 1)
    (h : (plan c s).refs.getD (n + 1) 0 = 0) : computePartition c s = [0, n + 1] := by
  rw [computePartition, length_eq, backtrack, if_neg (Nat.succ_ne_zero n), h, backtrack_zero]

/-! ### Leading zeros -/

/-- The remaining steps start from the arrays after step `n`. -/
theorem planTo_add (c : Codec) (s : List Elem) (n m : Nat) :
    planTo c s (n + m) = (List.range m).foldl (fun t k => planStep c s t (n + k + 1)) (planTo c s n) := by
  rw [planTo, planTo, List.range_add, List.foldl_append, List.foldl_map]

/-- R195: before element 128 each leading zero is a singleton of no cost. -/
theorem planTo_of_zeros (c : Codec) (s : List Elem) {n : Nat} (hn : n < maxPartition)
    (zeros : ∀ i < n, s.getD i 0 = 0) :
    planTo c s n = { cost := List.replicate (n + 1) 0, refs := 0 :: List.range n } := by
  induction n with
  | zero => rfl
  | succ n ih =>
    have step : planStep c s (planTo c s n) (n + 1) = seedStep s (planTo c s n) (n + 1) := if_pos hn
    have free : cdiv (bitsNeeded (s.getD n 0)) 8 = 0 := by rw [zeros n (by omega)]; rfl
    rw [planTo_succ, step, ih (by omega) fun i hi => zeros i (by omega)]
    simp only [seedStep, Nat.add_sub_cancel, free]
    simp [List.replicate_succ' (n := n + 1), List.range_succ]

/-! ### The example -/

/-- The separator `~0` of the example (R199). -/
def separator : Codec → Elem
  | .c32 => 0xFFFFFFFF
  | .c64 => 0xFFFFFFFFFFFFFFFF

/-- The 160 elements of the example (R199). -/
def sourceExample (c : Codec) : List Elem :=
  List.replicate 128 0 ++ [separator c] ++ List.replicate 8 1 ++ [separator c] ++ List.replicate 4 1 ++ [separator c] ++
    List.replicate 6 1 ++ [separator c] ++ List.replicate 7 1 ++ [separator c] ++ List.replicate 2 1

theorem length_sourceExample (c : Codec) : (sourceExample c).length = 160 := by simp [sourceExample]

/-- The arrays of the example: a separator costs `ELEM_B(c)` bytes, each run of ones one byte, and every one refers to the
start of its run. -/
def examplePlan (c : Codec) : Plan :=
  let b := elemBytes c
  { cost := List.replicate 129 0 ++ [b] ++ List.replicate 8 (b + 1) ++ [2 * b + 1] ++ List.replicate 4 (2 * b + 2) ++
      [3 * b + 2] ++ List.replicate 6 (3 * b + 3) ++ [4 * b + 3] ++ List.replicate 7 (4 * b + 4) ++
      [5 * b + 4] ++ List.replicate 2 (5 * b + 5)
    refs := 0 :: List.range 127 ++ [0, 128] ++ List.replicate 8 129 ++ [137] ++ List.replicate 4 138 ++
      [142] ++ List.replicate 6 143 ++ [149] ++ List.replicate 7 150 ++ [157] ++ List.replicate 2 158 }

/-- The 33 steps of the search (R193), evaluated. -/
theorem search_sourceExample (c : Codec) :
    (List.range 33).foldl (fun t k => planStep c (sourceExample c) t (127 + k + 1))
      { cost := List.replicate 128 0, refs := 0 :: List.range 127 } = examplePlan c := by
  cases c with
  | c32 => decide +kernel
  | c64 => decide +kernel

theorem plan_sourceExample (c : Codec) : plan c (sourceExample c) = examplePlan c := by
  have zeros : ∀ i < 127, (sourceExample c).getD i 0 = 0 := by cases c <;> decide +kernel
  rw [plan_eq_planTo, length_sourceExample, planTo_add c _ 127 33, planTo_of_zeros c _ (by decide) zeros,
    search_sourceExample]

theorem computePartition_sourceExample (c : Codec) :
    computePartition c (sourceExample c) = [0, 128, 129, 137, 138, 142, 143, 149, 150, 157, 158, 160] := by
  rw [computePartition, plan_sourceExample, length_sourceExample]
  cases c <;> decide +kernel

/-- R199: the first 128 elements alone are one partition. -/
theorem computePartition_sourceExample_take (c : Codec) : computePartition c ((sourceExample c).take 128) = [0, 128] := by
  have inside : 128 ≤ (sourceExample c).length := by rw [length_sourceExample]; decide
  have ref_zero : (plan c ((sourceExample c).take 128)).refs.getD 128 0 = 0 := by
    rw [plan_take c _ inside, ← (getD_plan c _ le_rfl inside).2, plan_sourceExample]
    cases c <;> decide +kernel
  exact computePartition_of_ref_zero c _ (List.length_take_of_le inside) ref_zero

/-- The cost of the first 129 elements alone is that of the separator. -/
theorem cost_sourceExample_take (c : Codec) :
    (plan c ((sourceExample c).take 129)).cost.getD 129 0 = elemBytes c := by
  have inside : 129 ≤ (sourceExample c).length := by rw [length_sourceExample]; decide
  rw [plan_take c _ inside, ← (getD_plan c _ le_rfl inside).1, plan_sourceExample]
  cases c <;> decide +kernel

theorem cost_sourceExample_zeros (c : Codec) : ∀ j < 128, (plan c (sourceExample c)).cost.getD j 0 = 0 := by
  rw [plan_sourceExample]
  cases c <;> decide +kernel

theorem cost_sourceExample_bounds (c : Codec) :
    [128, 129, 137, 138, 142, 143, 149, 150, 157, 158, 160].map ((plan c (sourceExample c)).cost.getD · 0) =
      let b := elemBytes c
      [0, b, b + 1, 2 * b + 1, 2 * b + 2, 3 * b + 2, 3 * b + 3, 4 * b + 3, 4 * b + 4, 5 * b + 4, 5 * b + 5] := by
  rw [plan_sourceExample]
  cases c <;> decide +kernel

/-- Settles O40: the tables and the costs of the example, from its arrays. -/
theorem sourcePartitionExample : Obligations.SourcePartitionExample :=
  ⟨computePartition_sourceExample .c32, computePartition_sourceExample .c64, computePartition_sourceExample_take .c32,
    cost_sourceExample_take .c64, fun j _ hj => cost_sourceExample_zeros .c32 j hj, cost_sourceExample_bounds .c32⟩

end Sys2Proof.Machine
end

section
/-! Tables of boundaries and the partitions they cut (42_partition.md R191, R196, R198, 43_block.md R213): a valid table is a
chain of steps by lengths of `Pset`, the backtrack of the partitioner makes one, and the partitions of a block cut by one
lie end to end. -/

namespace Sys2Proof.Machine

/-! ### Valid tables -/

/-- Two successive boundaries of a table (R198). -/
abbrev boundaryStep (a b : Nat) : Prop := a < b ∧ b - a ∈ pset

theorem all_zip_tail_iff_isChain (t : List Nat) :
    ((List.zip t t.tail).all fun x => decide (x.1 < x.2 ∧ x.2 - x.1 ∈ pset)) = true ↔ t.IsChain boundaryStep := by
  induction t with
  | nil => simp
  | cons a t ih =>
    cases t with
    | nil => simp
    | cons b t => simp_all [List.isChain_cons_cons]

/-- R198, with the steps as a chain. -/
theorem validParts_iff (t : List Nat) (m : Nat) :
    validParts t m = true ↔
      (2 ≤ t.length ∧ t.length ≤ m + 1) ∧ t.head? = some 0 ∧ t.getLast? = some m ∧ t.IsChain boundaryStep := by
  rw [validParts, Bool.and_eq_true, all_zip_tail_iff_isChain]
  simp [and_assoc]

/-! ### The computed table -/

/-- R193, R195: the reference of `j` is one partition length before it. -/
theorem boundaryStep_refs_plan (c : Codec) (s : List Elem) (j : Nat) (hj : 1 ≤ j) (hn : j ≤ s.length) :
    boundaryStep ((plan c s).refs.getD j 0) j := by
  by_cases short : j < maxPartition
  · obtain ⟨k, rfl⟩ : ∃ k, j = k + 1 := ⟨j - 1, by omega⟩
    have ref := (getD_plan_succ c s hn (if_pos short)).2
    rw [ref, Nat.add_sub_cancel]
    exact ⟨Nat.lt_succ_self k, by rw [Nat.add_sub_cancel_left]; decide⟩
  · obtain ⟨l, best, -, ref⟩ := plan_search c s (Nat.le_of_not_lt short) hn
    obtain ⟨l_pos, l_le⟩ := bounds_of_mem_pset l best.mem
    rw [ref]
    exact ⟨by omega, by rw [show j - (j - l) = l by omega]; exact best.mem⟩

/-- The backtrack lengthens a chain downwards, as far as 0 (R196). -/
theorem isChain_backtrack (refs : List Nat) (fuel j : Nat) (parts : List Nat) (enough : j ≤ fuel)
    (steps : ∀ i, 1 ≤ i → i ≤ j → boundaryStep (refs.getD i 0) i) (chain : (j :: parts).IsChain boundaryStep) :
    (backtrack refs fuel j (j :: parts)).IsChain boundaryStep ∧
      (backtrack refs fuel j (j :: parts)).head? = some 0 ∧
      (backtrack refs fuel j (j :: parts)).getLast? = (j :: parts).getLast? := by
  induction fuel generalizing j parts with
  | zero =>
    obtain rfl : j = 0 := by omega
    exact ⟨chain, rfl, rfl⟩
  | succ fuel ih =>
    by_cases at_zero : j = 0
    · subst at_zero
      rw [backtrack_zero]
      exact ⟨chain, rfl, rfl⟩
    · rw [backtrack, if_neg at_zero]
      have down := steps j (by omega) le_rfl
      obtain ⟨chain', head, last⟩ := ih (refs.getD j 0) (j :: parts) (by omega)
        (fun i hi hij => steps i hi (by omega)) (List.isChain_cons_cons.2 ⟨down, chain⟩)
      exact ⟨chain', head, last.trans List.getLast?_cons_cons⟩

/-- Every computed table of at least one element is valid (R191, R198). -/
theorem validParts_computePartition (c : Codec) (s : List Elem) (nonempty : 1 ≤ s.length) :
    validParts (computePartition c s) s.length = true := by
  obtain ⟨chain, head, last⟩ := isChain_backtrack (plan c s).refs s.length s.length [] le_rfl
    (boundaryStep_refs_plan c s) (List.isChain_singleton _)
  obtain ⟨rest, table⟩ := List.head?_eq_some_iff.1 head
  refine (validParts_iff _ _).2 ⟨⟨?_, length_computePartition_le c s⟩, head, last, chain⟩
  rw [computePartition, table]
  cases rest with
  | nil =>
    rw [table] at last
    have : 0 = s.length := by simpa using last
    omega
  | cons b rest => simp

/-! ### The partitions of a block -/

/-- `segs` lie end to end over `front`, each of a length in `Pset`. -/
structure IsCut (segs : List (List Elem)) (front : List Elem) : Prop where
  flatten_eq : segs.flatten = front
  lengths : ∀ seg ∈ segs, seg.length ∈ pset

theorem slice_append_slice (s : List Elem) {a b m : Nat} (hab : a ≤ b) (hbm : b ≤ m) :
    slice s a b ++ slice s b m = slice s a m := by
  rw [slice, slice, slice, show m - a = (b - a) + (m - b) by omega, List.take_add, List.drop_drop,
    show a + (b - a) = b by omega]

/-- The boundaries from `a` up to `m` cut the elements from `a` up to `m`. -/
theorem isCut_segments_of_isChain (s : List Elem) {m : Nat} (hm : m ≤ s.length) (a : Nat) (rest : List Nat)
    (chain : (a :: rest).IsChain boundaryStep) (last : (a :: rest).getLast? = some m) :
    a ≤ m ∧ IsCut (segments s (a :: rest)) (slice s a m) := by
  induction rest generalizing a with
  | nil =>
    obtain rfl : a = m := by simpa using last
    exact ⟨le_rfl, by simp [segments, slice], by simp [segments]⟩
  | cons b rest ih =>
    obtain ⟨⟨hab, mem⟩, chain⟩ := List.isChain_cons_cons.1 chain
    obtain ⟨hbm, cut⟩ := ih b chain (by rwa [List.getLast?_cons_cons] at last)
    have segments_eq : segments s (a :: b :: rest) = slice s a b :: segments s (b :: rest) := rfl
    have first : (slice s a b).length = b - a := by rw [length_slice]; omega
    refine ⟨by omega, ?_, ?_⟩
    · rw [segments_eq, List.flatten_cons, cut.flatten_eq, slice_append_slice s hab.le hbm]
    · rw [segments_eq]
      exact List.forall_mem_cons.2 ⟨first ▸ mem, cut.lengths⟩

/-- A valid table of `m` elements cuts the first `m` (R191, R198). -/
theorem isCut_segments (s : List Elem) (parts : List Nat) {m : Nat} (hm : m ≤ s.length)
    (valid : validParts parts m = true) : IsCut (segments s parts) (s.take m) := by
  obtain ⟨-, head, last, chain⟩ := (validParts_iff parts m).1 valid
  obtain ⟨rest, rfl⟩ := List.head?_eq_some_iff.1 head
  exact (isCut_segments_of_isChain s hm 0 rest chain last).2

/-- No more partitions than elements (R102). -/
theorem IsCut.length_le {segs : List (List Elem)} {front : List Elem} (cut : IsCut segs front) :
    segs.length ≤ front.length := by
  obtain ⟨rfl, lengths⟩ := cut
  induction segs with
  | nil => exact le_rfl
  | cons seg segs ih =>
    have first := (bounds_of_mem_pset _ (lengths seg (by simp))).1
    have others := ih fun x hx => lengths x (by simp [hx])
    simp only [List.length_cons, List.flatten_cons, List.length_append]
    omega

end Sys2Proof.Machine
end

section
/-! The size of a block (43_block.md R216): a run is no longer than its elements, a valid table has no more partitions than
elements, and so neither form of a block is longer than `Bound`. -/

namespace Sys2Proof.Machine

/-! ### The bytes of the runs -/

theorem elemBytes_le (c : Codec) : elemBytes c ≤ 8 := by cases c <;> decide

theorem roundUp_le_elemWidth (c : Codec) (b : Nat) : roundUp c b ≤ elemWidth c := by
  rw [roundUp]
  cases found : (wset c).find? fun w => b ≤ w with
  | none => exact le_rfl
  | some w => exact le_elemWidth_of_mem_wset c w (List.mem_of_find?_eq_some found)

/-- A run takes no more bytes than its elements (R130, R132). -/
theorem runBytes_runWidth_le (c : Codec) (seg : List Elem) :
    runBytes seg.length (runWidth c seg) ≤ seg.length * elemBytes c := by
  have narrow : runWidth c seg ≤ 8 * elemBytes c := elemWidth_eq c ▸ roundUp_le_elemWidth c _
  have bits : seg.length * runWidth c seg ≤ seg.length * (8 * elemBytes c) := Nat.mul_le_mul_left _ narrow
  rw [Nat.mul_left_comm] at bits
  unfold runBytes cdiv
  omega

@[simp] theorem dataBytes_nil (c : Codec) : dataBytes c [] = 0 := rfl

@[simp] theorem dataBytes_cons (c : Codec) (seg : List Elem) (segs : List (List Elem)) :
    dataBytes c (seg :: segs) = runBytes seg.length (runWidth c seg) + dataBytes c segs := rfl

theorem dataBytes_le (c : Codec) (segs : List (List Elem)) : dataBytes c segs ≤ segs.flatten.length * elemBytes c := by
  induction segs with
  | nil => simp
  | cons seg segs ih =>
    have first := runBytes_runWidth_le c seg
    rw [dataBytes_cons, List.flatten_cons, List.length_append, Nat.add_mul]
    omega

/-- R216: the size of a framed block of `m + 16` elements. -/
theorem framedSize_le (c : Codec) {segs : List (List Elem)} {front : List Elem} (cut : IsCut segs front) :
    framedSize c segs ≤ 8 + front.length + (front.length + 16) * elemBytes c := by
  have count := cut.length_le
  have runs := dataBytes_le c segs
  rw [cut.flatten_eq] at runs
  rw [framedSize, Nat.add_mul]
  omega

/-! ### The block that ENCBLK encodes -/

theorem length_sourceElems (c : Codec) (s : State) : (sourceElems c s).length = opN s := length_readElems c s.e _ _

/-- The last of several checks has an error of its own: that error means that all the others hold (R292). -/
theorem firstError_concat_cases (checks : List (Bool × Err)) (last : Bool) (e : Err)
    (others : ∀ x ∈ checks, x.2 ≠ .ok ∧ x.2 ≠ e) :
    ((∀ x ∈ checks, x.1 = true) ∧ firstError (checks ++ [(last, e)]) = if last then .ok else e) ∨
    (firstError (checks ++ [(last, e)]) ≠ .ok ∧ firstError (checks ++ [(last, e)]) ≠ e) := by
  induction checks with
  | nil => exact .inl ⟨by simp, rfl⟩
  | cons x checks ih =>
    obtain ⟨holds, e'⟩ := x
    have ih := ih fun y hy => others y (List.mem_cons_of_mem _ hy)
    cases holds with
    | false => exact .inr (others (false, e') (by simp))
    | true => simpa [firstError_cons_true] using ih

/-- What ENCBLK has checked of its count and its table before it looks at the destination (R210, R212). -/
structure EncblkChecked (pext : Bool) (s : State) : Prop where
  pos : 1 ≤ opN s
  le_blockMax : opN s ≤ blockMax
  table : pext = true → rawThreshold ≤ opN s → validParts (hostParts s) (opN s - overrun) = true

/-- The destination is looked at last: another error, or the checks before it hold and the size decides (R210 to R213). -/
theorem encblkError_cases (c : Codec) (pext : Bool) (s : State) :
    (EncblkChecked pext s ∧
      encblkError c pext s = if opBptr s + (encblkBlock c pext s).size ≤ opBlim s then .ok else .dstfull) ∨
    (encblkError c pext s ≠ .ok ∧ encblkError c pext s ≠ .dstfull) := by
  obtain ⟨hold, last⟩ | other := firstError_concat_cases
    [ (decide (elemWindowOk s), .arg),
      (decide (byteWindowOk s), .arg),
      (decide (1 ≤ opN s ∧ opN s ≤ blockMax), .arg),
      (decide (opEptr s + opN s ≤ opElim s), .arg),
      (!pext || decide (opN s < rawThreshold) || validParts (hostParts s) (opN s - overrun), .part) ]
    (decide (opBptr s + (encblkBlock c pext s).size ≤ opBlim s)) .dstfull (by simp)
  · simp only [List.forall_mem_cons, decide_eq_true_eq] at hold last
    obtain ⟨-, -, ⟨pos, le_blockMax⟩, -, table, -⟩ := hold
    refine .inl ⟨⟨pos, le_blockMax, fun hp hn => ?_⟩, last⟩
    simpa [hp, Nat.not_lt.2 hn] using table
  · exact .inr other

/-- The block is raw below 144 elements, and else framed and cut by a valid table, whoever made it (R211, R212). -/
theorem encblkBlock_cases (c : Codec) {pext : Bool} {s : State} (checked : EncblkChecked pext s) :
    (opN s < rawThreshold ∧ encblkBlock c pext s = encodeRaw c (sourceElems c s) s.work) ∨
    (rawThreshold ≤ opN s ∧ ∃ parts k, validParts parts (opN s - overrun) = true ∧
      encblkBlock c pext s = encodeFramed c (sourceElems c s) parts k) := by
  have count := length_sourceElems c s
  unfold encblkBlock
  by_cases short : opN s < rawThreshold
  · refine .inl ⟨short, ?_⟩
    simp only [encodeBlock, count]
    rw [if_neg (by omega), if_pos short]
  · have long := Nat.le_of_not_lt short
    refine .inr ⟨long, ?_⟩
    cases pext with
    | true => exact ⟨hostParts s, s.work, checked.table rfl long, if_pos ⟨rfl, long⟩⟩
    | false =>
      have front : ((sourceElems c s).take (opN s - overrun)).length = opN s - overrun := by
        rw [List.length_take, count]; omega
      have valid := validParts_computePartition c ((sourceElems c s).take (opN s - overrun))
        (by rw [front]; unfold rawThreshold at long; unfold overrun; omega)
      rw [front] at valid
      refine ⟨_, workAfterPlan c ((sourceElems c s).take (opN s - overrun)) s.work, valid, ?_⟩
      simp only [encodeBlock, count]
      rw [if_neg (by simp), if_neg short]

/-- R216: no block is longer than the room `Bound` gives one. -/
theorem size_encblkBlock_le (c : Codec) {pext : Bool} {s : State} (checked : EncblkChecked pext s) :
    (encblkBlock c pext s).size ≤ (elemBytes c + 1) * opN s := by
  have count := length_sourceElems c s
  rw [Nat.succ_mul, Nat.mul_comm]
  obtain ⟨-, block⟩ | ⟨long, parts, k, valid, block⟩ := encblkBlock_cases c checked
  · have size : (encblkBlock c pext s).size = opN s * elemBytes c := by rw [block, encodeRaw, count]
    omega
  · have cut := isCut_segments (sourceElems c s) parts (by omega) valid
    have size : (encblkBlock c pext s).size = framedSize c (segments (sourceElems c s) parts) := by rw [block, encodeFramed]
    have bound := framedSize_le c cut
    have front : ((sourceElems c s).take (opN s - overrun)).length = opN s - 16 := by
      rw [List.length_take, count]; unfold overrun; omega
    unfold rawThreshold at long
    rw [front, Nat.sub_add_cancel (by omega)] at bound
    omega

/-! ### ENCBLK -/

/-- How ENCBLK can end: with a block that fits, with `E_DSTFULL` for one that does not, or with an error of a check before
that. -/
theorem execEncblk_cases (c : Codec) (pext : Bool) (s t : State) (h : exec (.encblk c pext) s = .next t) :
    (EncblkChecked pext s ∧ opBptr s + (encblkBlock c pext s).size ≤ opBlim s ∧ t.err = .ok ∧
      t.result = BitVec.ofNat 64 (encblkBlock c pext s).size ∧
      t.b = writeCells s.b (opBptr s) (encblkBlock c pext s).bytes) ∨
    (EncblkChecked pext s ∧ opBlim s < opBptr s + (encblkBlock c pext s).size ∧ t.err = .dstfull) ∨
    (t.err ≠ .ok ∧ t.err ≠ .dstfull) := by
  have h : execEncblk c pext s = .next t := h
  unfold execEncblk at h
  obtain ⟨checked, error⟩ | other := encblkError_cases c pext s
  · by_cases fits : opBptr s + (encblkBlock c pext s).size ≤ opBlim s
    · rw [if_pos fits] at error
      rw [if_pos error] at h
      injection h with h
      subst h
      exact .inl ⟨checked, fits, rfl, rfl, rfl⟩
    · rw [if_neg fits] at error
      rw [if_neg (by simp [error])] at h
      injection h with h
      subst h
      exact .inr (.inl ⟨checked, by omega, error⟩)
  · rw [if_neg other.1] at h
    injection h with h
    subst h
    exact .inr (.inr other)

/-- Settles O45: the block is no longer than `(EB + 1)·N` bytes, so it is the destination that is short where `E_DSTFULL` is
reported. -/
theorem blockSizeIsBounded : Obligations.BlockSizeIsBounded := by
  intro c pext s t h
  obtain ⟨checked, -, ok, result, -⟩ | ⟨checked, full, dstfull⟩ | ⟨not_ok, not_dstfull⟩ := execEncblk_cases c pext s t h
  · have bound := size_encblkBlock_le c checked
    have result_le : t.result.toNat ≤ (encblkBlock c pext s).size := by
      rw [result, BitVec.toNat_ofNat]
      exact Nat.mod_le _ _
    exact ⟨fun _ => by omega, fun _ => by simp [ok]⟩
  · have bound := size_encblkBlock_le c checked
    exact ⟨fun ok => by simp [dstfull] at ok, fun room => by omega⟩
  · exact ⟨fun ok => absurd ok not_ok, fun _ => not_dstfull⟩

end Sys2Proof.Machine
end

section
/-! Values that stand in consecutive cells of a memory (20_memory.md R64, R65, 30_encoding.md R103): how a longer sequence
splits, what a write does to one, and the numbers and elements the decoder reads where their bytes stand. -/

namespace Sys2Proof.Machine

variable {w : Nat}

/-- The cells of `m` from `a` up hold `vs`. -/
def StandsAt (m : Mem w) (a : Nat) (vs : List (BitVec w)) : Prop := readCells m a vs.length = vs

theorem standsAt_nil (m : Mem w) (a : Nat) : StandsAt m a [] := rfl

theorem standsAt_iff (m : Mem w) (a : Nat) (vs : List (BitVec w)) :
    StandsAt m a vs ↔ ∀ k < vs.length, readCell m (a + k) = vs.getD k 0 := by
  refine ⟨fun h k hk => ?_, fun h => List.ext_getElem (by simp) fun k hk hk' => ?_⟩
  · rw [← getD_readCells m a vs.length k hk, h]
  · simpa [readCells, List.getD, hk'] using h k hk'

theorem readCells_add (m : Mem w) (a j k : Nat) : readCells m a (j + k) = readCells m a j ++ readCells m (a + j) k := by
  simp [readCells, List.range_add, Function.comp_def, Nat.add_assoc]

theorem standsAt_append (m : Mem w) (a : Nat) (vs vs' : List (BitVec w)) :
    StandsAt m a (vs ++ vs') ↔ StandsAt m a vs ∧ StandsAt m (a + vs.length) vs' := by
  rw [StandsAt, List.length_append, readCells_add]
  refine ⟨fun h => List.append_inj h (length_readCells m a vs.length), fun ⟨first, rest⟩ => ?_⟩
  rw [first, rest]

theorem standsAt_cons (m : Mem w) (a : Nat) (v : BitVec w) (vs : List (BitVec w)) :
    StandsAt m a (v :: vs) ↔ readCell m a = v ∧ StandsAt m (a + 1) vs := by
  have first : StandsAt m a [v] ↔ readCell m a = v := by simp [StandsAt, readCells]
  rw [← List.singleton_append, standsAt_append, first, List.length_singleton]

theorem standsAt_writeCells (m : Mem w) (a : Nat) (vs : List (BitVec w)) : StandsAt (writeCells m a vs) a vs :=
  readCells_writeCells m a vs

/-- Where cells read the same, the same values stand. -/
theorem StandsAt.transfer {m m' : Mem w} {a a' : Nat} {vs : List (BitVec w)} (h : StandsAt m a vs)
    (same : ∀ k < vs.length, readCell m' (a' + k) = readCell m (a + k)) : StandsAt m' a' vs :=
  (standsAt_iff m' a' vs).2 fun k hk => (same k hk).trans ((standsAt_iff m a vs).1 h k hk)

theorem bytesToNat_natToBytes (n v : Nat) (h : v < 256 ^ n) : bytesToNat (natToBytes n v) = v := by
  have cells : readCells (memWrite [] 0 n v) 0 n = natToBytes n v := by
    simpa [memWrite] using readCells_writeCells ([] : Mem 8) 0 (natToBytes n v)
  rw [← cells]
  exact memRead_memWrite_same [] 0 n v h

theorem memRead_of_standsAt {m : Mem 8} {a n v : Nat} (h : StandsAt m a (natToBytes n v)) (fits : v < 256 ^ n) :
    memRead m a n = v := by
  rw [StandsAt, length_natToBytes] at h
  rw [memRead, h, bytesToNat_natToBytes n v fits]

theorem rawElems_succ (c : Codec) (m : Mem 8) (b n : Nat) :
    rawElems c m b (n + 1) = BitVec.ofNat 64 (memRead m b (elemBytes c)) :: rawElems c m (b + elemBytes c) n := by
  simp [rawElems, List.range_succ_eq_map, Function.comp_def, Nat.succ_mul, Nat.add_assoc, Nat.add_comm (elemBytes c)]

/-- Raw elements are read as they were written (R103, R106). -/
theorem rawElems_of_standsAt (c : Codec) {m : Mem 8} {b : Nat} {s : List Elem} (h : StandsAt m b (rawBytes c s))
    (fits : ∀ x ∈ s, x.toNat < 2 ^ elemWidth c) : rawElems c m b s.length = s := by
  induction s generalizing b with
  | nil => rfl
  | cons x s ih =>
    obtain ⟨first, rest⟩ := (standsAt_append m b (natToBytes (elemBytes c) x.toNat) (rawBytes c s)).1 h
    have x_fits : x.toNat < 256 ^ elemBytes c := by
      rw [show 256 = 2 ^ 8 from rfl, ← pow_mul, ← elemWidth_eq]
      exact fits x (by simp)
    rw [length_natToBytes] at rest
    rw [List.length_cons, rawElems_succ, memRead_of_standsAt first x_fits,
      ih rest fun y hy => fits y (List.mem_cons_of_mem x hy), BitVec.ofNat_toNat, BitVec.setWidth_eq]

theorem lt_two_pow_of_mem_readElems (c : Codec) (m : Mem 64) (a n : Nat) :
    ∀ x ∈ readElems c m a n, x.toNat < 2 ^ elemWidth c := by
  intro x hx
  obtain ⟨k, -, rfl⟩ := List.mem_map.1 hx
  exact readElem_lt c m (a + k)

theorem getD_readElems (c : Codec) (m : Mem 64) (a n k : Nat) (h : k < n) :
    (readElems c m a n).getD k 0 = readElem c m (a + k) := by simp [readElems, List.getD, h]

end Sys2Proof.Machine
end

section
/-! The width of a run (40_pack.md R132, R133, 43_block.md R214): it is in `Wset` and holds every element, so that the run is
unpacked to the elements it was packed from. -/

namespace Sys2Proof.Machine

/-- `maxbits` is the least bound of what the elements need (R133). -/
theorem maxBits_le_iff (s : List Elem) (b : Nat) : maxBits s ≤ b ↔ ∀ x ∈ s, bitsNeeded x ≤ b := by
  have from_any (m : Nat) :
      s.foldl (fun m x => max m (bitsNeeded x)) m ≤ b ↔ m ≤ b ∧ ∀ x ∈ s, bitsNeeded x ≤ b := by
    induction s generalizing m with
    | nil => simp
    | cons x s ih => simp [ih, and_assoc]
  exact (from_any 0).trans (by simp)

/-- Elements as their family reads them need at most `ELEM_W` bits. -/
theorem maxBits_le_elemWidth {c : Codec} {s : List Elem} (fits : ∀ x ∈ s, x.toNat < 2 ^ elemWidth c) :
    maxBits s ≤ elemWidth c :=
  (maxBits_le_iff s _).2 fun x hx => (bitsNeeded_le_iff x _).2 (fits x hx)

theorem runWidth_mem_wset {c : Codec} {s : List Elem} (fits : ∀ x ∈ s, x.toNat < 2 ^ elemWidth c) :
    runWidth c s ∈ wset c :=
  (isLeast_roundUp c _ (maxBits_le_elemWidth fits)).1.1

theorem lt_two_pow_runWidth {c : Codec} {s : List Elem} (fits : ∀ x ∈ s, x.toNat < 2 ^ elemWidth c) :
    ∀ x ∈ s, x.toNat < 2 ^ runWidth c s := by
  have enough : maxBits s ≤ runWidth c s := (isLeast_roundUp c _ (maxBits_le_elemWidth fits)).1.2
  exact fun x hx => (bitsNeeded_le_iff x _).1 ((maxBits_le_iff s _).1 enough x hx)

/-- R136, R214: the run of a partition is unpacked to the partition. -/
theorem unpackBits_segmentRun {c : Codec} {seg : List Elem} (fits : ∀ x ∈ seg, x.toNat < 2 ^ elemWidth c) :
    unpackBits (segmentRun c seg) (runWidth c seg) seg.length = seg := by
  refine List.ext_getElem (by simp) fun i hi hi' => BitVec.eq_of_toNat_eq ?_
  rw [← List.getD_eq_getElem _ 0 hi, segmentRun, toNat_getD_unpackBits_packBits seg _ i hi',
    List.getD_eq_getElem _ 0 hi', Nat.mod_eq_of_lt (lt_two_pow_runWidth fits _ (List.getElem_mem hi'))]

end Sys2Proof.Machine
end

section
/-! The decoder's loop over the control bytes of a framed block (43_block.md R219): the control byte of a partition asks for the
unpacker of its width, which writes the partition back, and what it clobbers beyond lies where the rest of the block goes. -/

namespace Sys2Proof.Machine

/-! ### One control byte -/

theorem partitionLength_ctrlP : ∀ l ∈ pset, partitionLength (ctrlP l) = l := by decide

/-- The nibble of a width selects the unpacker of that width (R95). -/
theorem exec_decodeCtrl_ctrlW (c : Codec) (w : Nat) (hw : w ∈ wset c) (pidx : BitVec 4) (s : State) :
    exec (decodeCtrl c (ctrlByte pidx (ctrlW c w))) s = unpackPartition w pidx s := by
  have pidx_eq : pidxField (ctrlByte pidx (ctrlW c w)) = pidx := BitVec.extractLsb'_append_eq_left
  have widx_eq : widxField (ctrlByte pidx (ctrlW c w)) = ctrlW c w := BitVec.extractLsb'_append_eq_right
  unfold decodeCtrl
  rw [pidx_eq, widx_eq]
  cases c with
  | c32 => fin_cases hw <;> rfl
  | c64 => fin_cases hw <;> rfl

/-! ### The rest of a block -/

/-- The runs of the partitions `segs`, one after another (R213). -/
def packedRuns (c : Codec) (segs : List (List Elem)) : List Byte := segs.flatMap (segmentRun c)

theorem packedRuns_cons (c : Codec) (seg : List Elem) (segs : List (List Elem)) :
    packedRuns c (seg :: segs) = segmentRun c seg ++ packedRuns c segs := rfl

@[simp] theorem length_segmentRun (c : Codec) (seg : List Elem) :
    (segmentRun c seg).length = runBytes seg.length (runWidth c seg) := length_packBits seg _

@[simp] theorem length_packedRuns (c : Codec) (segs : List (List Elem)) :
    (packedRuns c segs).length = dataBytes c segs := by
  induction segs with
  | nil => rfl
  | cons seg segs ih => rw [packedRuns_cons, List.length_append, length_segmentRun, ih, dataBytes_cons]

/-- The decoder is at the control byte of the first of the partitions `segs`, which are all that is left of the block before
its tail: their control bytes and runs stand at the cursors, and there is room for their elements. -/
structure PartitionsAhead (c : Codec) (segs : List (List Elem)) (s : State) : Prop where
  host : s.host = []
  phase : s.phase = .control
  codec : s.cur.codec = c
  count : s.cur.idx + segs.length = s.cur.parts
  ctrls : StandsAt s.b (ctrlAddress s.cur) (segs.map (segmentCtrl c))
  runs : StandsAt s.b s.cur.byte (packedRuns c segs)
  bytes_le : s.cur.byte + dataBytes c segs ≤ s.cur.slimit
  elems_le : s.cur.elem + segs.flatten.length ≤ s.cur.dlimit
  lengths : ∀ seg ∈ segs, seg.length ∈ pset
  fits : ∀ seg ∈ segs, ∀ x ∈ seg, x.toNat < 2 ^ elemWidth c

section
variable {c : Codec} {seg : List Elem} {segs : List (List Elem)} {s : State}

/-- E-space after the first partition: its elements, and free values in the cells its unpacker clobbers (R151). -/
def elemsAfter (c : Codec) (seg : List Elem) (s : State) : Mem 64 :=
  let past := s.cur.elem + seg.length
  writeCells s.e s.cur.elem
    (seg ++ freeElems s.fresh past (specEnd (runWidth c seg) seg.length s.cur.elem s.cur.dlimit - past))

/-- The state after the first partition. -/
def afterPartition (c : Codec) (seg : List Elem) (s : State) : State :=
  { s with e := elemsAfter c seg s, fresh := s.fresh + 1, cur := nextPartition (runWidth c seg) seg.length s.cur }

/-- What stands at the cursors, and the room, for the first partition and for the others. -/
theorem PartitionsAhead.split (h : PartitionsAhead c (seg :: segs) s) :
    (readCell s.b (ctrlAddress s.cur) = segmentCtrl c seg ∧
      StandsAt s.b (ctrlAddress s.cur + 1) (segs.map (segmentCtrl c))) ∧
    (StandsAt s.b s.cur.byte (segmentRun c seg) ∧
      StandsAt s.b (s.cur.byte + runBytes seg.length (runWidth c seg)) (packedRuns c segs)) ∧
    s.cur.idx + 1 + segs.length = s.cur.parts ∧
    s.cur.byte + runBytes seg.length (runWidth c seg) + dataBytes c segs ≤ s.cur.slimit ∧
    s.cur.elem + seg.length + segs.flatten.length ≤ s.cur.dlimit := by
  have ctrls := h.ctrls
  have runs := h.runs
  have count := h.count
  have bytes_le := h.bytes_le
  have elems_le := h.elems_le
  rw [List.map_cons, standsAt_cons] at ctrls
  rw [packedRuns_cons, standsAt_append, length_segmentRun] at runs
  rw [List.length_cons] at count
  rw [dataBytes_cons] at bytes_le
  rw [List.flatten_cons, List.length_append] at elems_le
  exact ⟨ctrls, runs, by omega, by omega, by omega⟩

/-- One turn of the loop (R219). -/
theorem step_of_partitionsAhead (h : PartitionsAhead c (seg :: segs) s) :
    step s = .next (afterPartition c seg s) := by
  obtain ⟨⟨ctrl, -⟩, ⟨run, -⟩, count, bytes_le, elems_le⟩ := h.split
  have width := runWidth_mem_wset (h.fits seg (by simp))
  have length := partitionLength_ctrlP _ (h.lengths seg (by simp))
  have turn : engineTurn s = .instr (decodeCtrl c (segmentCtrl c seg)) := by
    simp [engineTurn, fetch, h.phase, show s.cur.idx < s.cur.parts by omega, decode, h.codec, ctrl]
  have checks : ctrlError (runWidth c seg) (ctrlP seg.length) s = .ok := by
    rw [ctrlError_eq_ok, h.codec, length]
    exact ⟨width, by omega, by omega⟩
  have cells : unpackBits (readCells s.b s.cur.byte (runBytes seg.length (runWidth c seg))) (runWidth c seg) seg.length =
      seg := by
    rw [StandsAt, length_segmentRun] at run
    rw [run, unpackBits_segmentRun (h.fits seg (by simp))]
  calc step s = exec (decodeCtrl c (segmentCtrl c seg)) s := by simp [step, h.host, engineStep, turn]
    _ = unpackPartition (runWidth c seg) (ctrlP seg.length) s := exec_decodeCtrl_ctrlW c _ width _ s
    _ = .next (afterPartition c seg s) := by
      rw [unpackPartition, if_pos checks, length, unpackCells, cells]
      rfl

theorem standsAt_elemsAfter (c : Codec) (seg : List Elem) (s : State) : StandsAt (elemsAfter c seg s) s.cur.elem seg :=
  ((standsAt_append _ _ _ _).1 (standsAt_writeCells _ _ _)).1

/-- What the unpacker clobbers lies between the partition and `dlimit` (R153, R220). -/
theorem readCell_elemsAfter_outside (c : Codec) (seg : List Elem) (s : State)
    (room : s.cur.elem + seg.length ≤ s.cur.dlimit) (x : Nat) (outside : x < s.cur.elem ∨ s.cur.dlimit ≤ x) :
    readCell (elemsAfter c seg s) x = readCell s.e x := by
  have clipped : specEnd (runWidth c seg) seg.length s.cur.elem s.cur.dlimit ≤ s.cur.dlimit := Nat.min_le_right _ _
  refine readCell_writeCells_outside _ _ _ _ ?_
  rw [List.length_append, length_freeElems]
  omega

/-- After a partition the decoder is at the next one. -/
theorem PartitionsAhead.next (h : PartitionsAhead c (seg :: segs) s) : PartitionsAhead c segs (afterPartition c seg s) := by
  obtain ⟨⟨-, ctrls⟩, ⟨-, runs⟩, count, bytes_le, elems_le⟩ := h.split
  exact
    { host := h.host
      phase := h.phase
      codec := h.codec
      count := count
      ctrls := ctrls
      runs := runs
      bytes_le := bytes_le
      elems_le := elems_le
      lengths := fun x hx => h.lengths x (by simp [hx])
      fits := fun x hx => h.fits x (by simp [hx]) }

end

/-! ### The whole loop -/

theorem run_succ_of_step {M : Host.Core} {s t : M.State} (h : M.step s = .next t) (k : Nat) :
    M.run (k + 1) s = M.run k t := by
  rw [Host.Core.run, h]

/-- A run goes on from where its first `j` steps end. -/
theorem run_add {M : Host.Core} {s t : M.State} (j k : Nat) (h : M.run j s = .next t) :
    M.run (j + k) s = M.run k t := by
  induction j generalizing s with
  | zero =>
    injection h with h
    rw [Nat.zero_add, h]
  | succ j ih =>
    cases first : M.step s with
    | next s' =>
      rw [run_succ_of_step first] at h
      rw [Nat.succ_add_eq_add_succ, Nat.add_succ, run_succ_of_step first, ih h]
    | fault r => simp [Host.Core.run, first] at h
    | refused r => simp [Host.Core.run, first] at h

theorem run_succ {s t : State} (h : step s = .next t) (k : Nat) :
    Host.Core.run Sys2Proof.core (k + 1) s = Host.Core.run Sys2Proof.core k t :=
  run_succ_of_step (M := Sys2Proof.core) h k

/-- The state after the partitions `segs`, with E-space and the count of free batches as given. -/
def afterPartitions (c : Codec) (segs : List (List Elem)) (e : Mem 64) (f : Nat) (s : State) : State :=
  { s with
    e := e
    fresh := f
    cur := { s.cur with
      byte := s.cur.byte + dataBytes c segs
      elem := s.cur.elem + segs.flatten.length
      idx := s.cur.idx + segs.length } }

/-- R219: the loop writes the partitions back, moves the cursors past them, and touches no cell before them or at `dlimit` and
beyond. -/
theorem run_of_partitionsAhead {c : Codec} {segs : List (List Elem)} {s : State} (h : PartitionsAhead c segs s) :
    ∃ e f, Host.Core.run Sys2Proof.core segs.length s = .next (afterPartitions c segs e f s) ∧
      StandsAt e s.cur.elem segs.flatten ∧
      ∀ x, (x < s.cur.elem ∨ s.cur.dlimit ≤ x) → readCell e x = readCell s.e x := by
  induction segs generalizing s with
  | nil => exact ⟨s.e, s.fresh, rfl, standsAt_nil _ _, fun _ _ => rfl⟩
  | cons seg segs ih =>
    obtain ⟨-, -, -, -, room⟩ := h.split
    obtain ⟨e, f, run, stands, kept⟩ := ih h.next
    refine ⟨e, f, ?_, ?_, fun x hx => ?_⟩
    · rw [List.length_cons, run_succ (step_of_partitionsAhead h), run]
      simp only [afterPartitions, afterPartition, nextPartition, dataBytes_cons, List.flatten_cons, List.length_append,
        List.length_cons, Nat.add_assoc, Nat.add_comm segs.length 1]
    · rw [List.flatten_cons, standsAt_append]
      refine ⟨(standsAt_elemsAfter c seg s).transfer fun k hk => kept _ (.inl ?_), stands⟩
      simp only [afterPartition, nextPartition]; omega
    · rw [kept x (by simp only [afterPartition, nextPartition]; omega)]
      exact readCell_elemsAfter_outside c seg s (by omega) x hx

end Sys2Proof.Machine
end

section
/-! The decode of one block that an encoder wrote (43_block.md R217 to R219, R222): a framed block's header sends the decoder
through its partitions to its tail, and both forms of a block give back the elements and touch no other cell. -/

namespace Sys2Proof.Machine

/-! ### The bytes of a framed block -/

/-- Elements and a table that make a framed block (R212, R213). -/
structure FramedInput (c : Codec) (elems : List Elem) (parts : List Nat) : Prop where
  long : rawThreshold ≤ elems.length
  le_blockMax : elems.length ≤ blockMax
  valid : validParts parts (elems.length - overrun) = true
  fits : ∀ x ∈ elems, x.toNat < 2 ^ elemWidth c

section
variable {c : Codec} {elems : List Elem} {parts : List Nat} {m : Mem 8} {a : Nat}

theorem FramedInput.cut (h : FramedInput c elems parts) :
    IsCut (segments elems parts) (elems.take (elems.length - overrun)) :=
  isCut_segments elems parts (Nat.sub_le _ _) h.valid

theorem FramedInput.length_flatten (h : FramedInput c elems parts) :
    (segments elems parts).flatten.length = elems.length - overrun := by
  rw [h.cut.flatten_eq, List.length_take_of_le (Nat.sub_le _ _)]

theorem FramedInput.length_tail (h : FramedInput c elems parts) :
    (elems.drop (elems.length - overrun)).length = overrun := by
  have long := h.long
  unfold rawThreshold at long
  rw [List.length_drop, Nat.sub_sub_self (by unfold overrun; omega)]

/-- R102: the sizes in the header fit their four bytes. -/
theorem FramedInput.framedSize_lt (h : FramedInput c elems parts) : framedSize c (segments elems parts) < 256 ^ 4 := by
  have bound := framedSize_le c h.cut
  have le_blockMax := h.le_blockMax
  rw [h.cut.flatten_eq.symm, h.length_flatten] at bound
  unfold blockMax at le_blockMax
  unfold overrun at bound
  have elem_bytes := elemBytes_le c
  have product : (elems.length - 16 + 16) * elemBytes c ≤ (65536 + 16) * 8 :=
    Nat.mul_le_mul (by omega) elem_bytes
  omega

/-- The parts of a framed block in their places (R101). -/
theorem standsAt_framedBytes (h : StandsAt m a (framedBytes c elems parts)) :
    StandsAt m a (natToBytes 4 (framedSize c (segments elems parts))) ∧
    StandsAt m (a + 4) (natToBytes 4 (8 + (segments elems parts).length)) ∧
    StandsAt m (a + 8) ((segments elems parts).map (segmentCtrl c)) ∧
    StandsAt m (a + (8 + (segments elems parts).length)) (packedRuns c (segments elems parts)) ∧
    StandsAt m (a + (8 + (segments elems parts).length) + dataBytes c (segments elems parts))
      (rawBytes c (elems.drop (elems.length - overrun))) := by
  rw [framedBytes, ← packedRuns] at h
  simp only [standsAt_append, List.length_append, length_natToBytes, List.length_map, length_packedRuns] at h
  obtain ⟨⟨⟨⟨size, offset⟩, ctrls⟩, runs⟩, tail⟩ := h
  exact ⟨size, offset, ctrls, runs, by convert tail using 1; omega⟩

/-- The header as the decoder reads it (R219). -/
theorem FramedInput.memRead_header (input : FramedInput c elems parts) (h : StandsAt m a (framedBytes c elems parts)) :
    memRead m a 4 = framedSize c (segments elems parts) ∧ memRead m (a + 4) 4 = 8 + (segments elems parts).length := by
  obtain ⟨size, offset, -⟩ := standsAt_framedBytes h
  have size_lt := input.framedSize_lt
  refine ⟨memRead_of_standsAt size size_lt, memRead_of_standsAt offset ?_⟩
  unfold framedSize at size_lt
  omega

end

/-! ### The decode of a framed block -/

section
variable {c : Codec} {elems : List Elem} {parts : List Nat} {a e0 rem : Nat} {s : State}

/-- The header of an encoded block passes its checks, and the decoder goes to the control bytes (R219, R221). -/
theorem beginBlock_framed (input : FramedInput c elems parts) (count : elems.length = min rem blockMax)
    (stands : StandsAt s.b a (framedBytes c elems parts))
    (inside : a + framedSize c (segments elems parts) ≤ opBlim s) :
    beginBlock c a e0 rem s =
      { s with phase := .control, cur := blockCursor c elems.length a e0 (rem - elems.length) s } := by
  obtain ⟨size, offset⟩ := input.memRead_header stands
  have long : rawThreshold ≤ rem := by have := input.long; omega
  have header : headerError c a s = .ok := by
    rw [headerError_eq_ok, size, offset]
    unfold framedSize at inside ⊢
    omega
  unfold rawThreshold at long
  rw [beginBlock, if_neg (by omega), if_neg (by unfold rawThreshold; omega), if_pos header, ← count]

theorem step_blockEnd (host : s.host = []) (phase : s.phase = .control) (used_up : s.cur.parts ≤ s.cur.idx) :
    step s = .next (finishBlock s) := by
  have turn : engineTurn s = .blockEnd := by simp [engineTurn, fetch, phase, Nat.not_lt.2 used_up]
  simp [step, host, engineStep, turn]

/-- The tail is written where the partitions end, and the decoder goes on behind the block (R219). -/
theorem finishBlock_of_tail {tail : List Elem} (length : tail.length = overrun)
    (fits : ∀ x ∈ tail, x.toNat < 2 ^ elemWidth s.cur.codec)
    (stands : StandsAt s.b s.cur.byte (rawBytes s.cur.codec tail)) (elems_end : s.cur.elem + overrun = s.cur.dlimit)
    (bytes_end : s.cur.byte + 16 * elemBytes s.cur.codec = s.cur.slimit) :
    finishBlock s = beginBlock s.cur.codec s.cur.slimit s.cur.dlimit s.cur.rem
      { s with e := writeCells s.e s.cur.elem tail } := by
  rw [finishBlock, if_pos ((tailError_eq_ok s).2 ⟨elems_end, bytes_end⟩), decodeRaw, ← length,
    rawElems_of_standsAt _ stands fits]

/-- With the cursors at the start of an encoded block, all of its partitions are ahead. -/
theorem partitionsAhead_of_blockCursor (input : FramedInput c elems parts) (host : s.host = [])
    (phase : s.phase = .control) (cur : s.cur = blockCursor c elems.length a e0 rem s)
    (stands : StandsAt s.b a (framedBytes c elems parts)) : PartitionsAhead c (segments elems parts) s := by
  obtain ⟨size, offset⟩ := input.memRead_header stands
  obtain ⟨-, -, ctrls, runs, -⟩ := standsAt_framedBytes stands
  rw [blockCursor, size, offset] at cur
  have long := input.long
  have flat := input.length_flatten
  have elem_mem : ∀ seg ∈ segments elems parts, ∀ x ∈ seg, x ∈ elems := fun seg hseg x hx =>
    List.mem_of_mem_take (input.cut.flatten_eq ▸ List.mem_flatten_of_mem hseg hx)
  exact
    { host := host
      phase := phase
      codec := by rw [cur]
      count := by rw [cur]; simp only; omega
      ctrls := by rw [ctrlAddress, cur]; exact ctrls
      runs := by rw [cur]; exact runs
      bytes_le := by rw [cur]; simp only [framedSize]; omega
      elems_le := by rw [cur]; simp only; omega
      lengths := input.cut.lengths
      fits := fun seg hseg x hx => input.fits x (elem_mem seg hseg x hx) }

/-- The loop, the tail, and then what follows the block. -/
theorem run_partitions_and_tail {segs : List (List Elem)} {tail : List Elem} (ahead : PartitionsAhead c segs s)
    (length : tail.length = overrun) (fits : ∀ x ∈ tail, x.toNat < 2 ^ elemWidth c)
    (stands : StandsAt s.b (s.cur.byte + dataBytes c segs) (rawBytes c tail))
    (elems_end : s.cur.elem + segs.flatten.length + overrun = s.cur.dlimit)
    (bytes_end : s.cur.byte + dataBytes c segs + 16 * elemBytes c = s.cur.slimit) :
    ∃ e f t, Host.Core.run Sys2Proof.core (segs.length + 1) s = .next
        (beginBlock c s.cur.slimit s.cur.dlimit s.cur.rem { s with e := e, fresh := f, cur := t }) ∧
      StandsAt e s.cur.elem (segs.flatten ++ tail) ∧
      ∀ x, (x < s.cur.elem ∨ s.cur.dlimit ≤ x) → readCell e x = readCell s.e x := by
  obtain ⟨e, f, loop, front, kept⟩ := run_of_partitionsAhead ahead
  obtain rfl := ahead.codec
  have last := step_blockEnd (s := afterPartitions s.cur.codec segs e f s) ahead.host ahead.phase ahead.count.ge
  rw [finishBlock_of_tail (s := afterPartitions s.cur.codec segs e f s) length fits stands elems_end bytes_end] at last
  refine ⟨writeCells e (s.cur.elem + segs.flatten.length) tail, f, (afterPartitions s.cur.codec segs e f s).cur,
    ?_, ?_, fun x hx => ?_⟩
  · rw [run_add (M := Sys2Proof.core) _ 1 loop, run_succ last]
    rfl
  · refine (standsAt_append _ _ _ _).2 ⟨front.transfer fun k hk => ?_, standsAt_writeCells _ _ _⟩
    exact readCell_writeCells_outside _ _ _ _ (by omega)
  · rw [readCell_writeCells_outside _ _ _ _ (by omega), kept x hx]

/-- R219, R220: from the start of an encoded block the decoder comes to what follows it, with the elements written and no other
cell touched. -/
theorem run_framedBlock (input : FramedInput c elems parts) (host : s.host = [])
    (phase : s.phase = .control) (cur : s.cur = blockCursor c elems.length a e0 rem s)
    (stands : StandsAt s.b a (framedBytes c elems parts)) :
    ∃ e f t, Host.Core.run Sys2Proof.core ((segments elems parts).length + 1) s = .next
        (beginBlock c (a + framedSize c (segments elems parts)) (e0 + elems.length) rem
          { s with e := e, fresh := f, cur := t }) ∧
      StandsAt e e0 elems ∧ ∀ x, ¬(e0 ≤ x ∧ x < e0 + elems.length) → readCell e x = readCell s.e x := by
  have ahead := partitionsAhead_of_blockCursor input host phase cur stands
  obtain ⟨size, offset⟩ := input.memRead_header stands
  obtain ⟨-, -, -, -, tail⟩ := standsAt_framedBytes stands
  rw [blockCursor, size, offset] at cur
  have flat := input.length_flatten
  have long := input.long
  obtain ⟨e, f, t, run, written, kept⟩ := run_partitions_and_tail ahead input.length_tail
    (fun x hx => input.fits x (List.mem_of_mem_drop hx)) (by rw [cur]; exact tail)
    (by rw [cur, flat]; unfold rawThreshold at long; unfold overrun; simp only; omega)
    (by rw [cur]; simp only [framedSize]; omega)
  rw [cur] at run written kept
  rw [input.cut.flatten_eq, List.take_append_drop] at written
  exact ⟨e, f, t, run, written, fun x hx => kept x (by simp only; omega)⟩

/-- The decode of an encoded framed block, from where it begins (R219, R222). -/
theorem run_beginBlock_framed (input : FramedInput c elems parts) (count : elems.length = min rem blockMax)
    (host : s.host = []) (stands : StandsAt s.b a (framedBytes c elems parts))
    (inside : a + framedSize c (segments elems parts) ≤ opBlim s) :
    ∃ e f t, Host.Core.run Sys2Proof.core ((segments elems parts).length + 1) (beginBlock c a e0 rem s) = .next
        (beginBlock c (a + framedSize c (segments elems parts)) (e0 + elems.length) (rem - elems.length)
          { s with phase := .control, e := e, fresh := f, cur := t }) ∧
      StandsAt e e0 elems ∧ ∀ x, ¬(e0 ≤ x ∧ x < e0 + elems.length) → readCell e x = readCell s.e x := by
  rw [beginBlock_framed input count stands inside]
  exact run_framedBlock (s := { s with phase := .control, cur := blockCursor c elems.length a e0 (rem - elems.length) s })
    input host rfl rfl stands

/-! ### The end of a decode and the raw block -/

/-- With no element to come the decode ends, having read the bytes up to here (R217, R242). -/
theorem beginBlock_end (c : Codec) (size e0 : Nat) (s : State) :
    beginBlock c (opBptr s + size) e0 0 s = complete size s := by
  rw [beginBlock, if_pos rfl, Nat.add_sub_cancel_left]

/-- An encoded raw block is the last one: the decode ends with its elements written (R218). -/
theorem beginBlock_raw (nonempty : 1 ≤ elems.length) (short : elems.length < rawThreshold)
    (fits : ∀ x ∈ elems, x.toNat < 2 ^ elemWidth c) (stands : StandsAt s.b a (rawBytes c elems))
    (inside : a + elems.length * elemBytes c ≤ opBlim s) :
    beginBlock c a e0 elems.length s =
      complete (a + elems.length * elemBytes c - opBptr s) { s with e := writeCells s.e e0 elems } := by
  rw [beginBlock, if_neg (by omega), if_pos short, if_pos inside, decodeRaw, rawElems_of_standsAt c stands fits]

end

end Sys2Proof.Machine
end

section
/-! The block round trip (43_block.md R222). -/

namespace Sys2Proof.Machine

/-! ### What ENCBLK leaves in B-space -/

theorem fits_sourceElems (c : Codec) (s : State) : ∀ x ∈ sourceElems c s, x.toNat < 2 ^ elemWidth c :=
  lt_two_pow_of_mem_readElems c s.e _ _

/-- A block that ENCBLK may encode, in either form, as a decoder of the same family and count finds it (R211, R213): its
bytes, and their number. -/
theorem encblkBlock_bytes (c : Codec) {pext : Bool} {s : State} (checked : EncblkChecked pext s) :
    (encblkBlock c pext s).bytes.length = (encblkBlock c pext s).size ∧
    ((opN s < rawThreshold ∧ (encblkBlock c pext s).bytes = rawBytes c (sourceElems c s)) ∨
      ∃ parts, FramedInput c (sourceElems c s) parts ∧
        (encblkBlock c pext s).bytes = framedBytes c (sourceElems c s) parts ∧
        (encblkBlock c pext s).size = framedSize c (segments (sourceElems c s) parts)) := by
  have count := length_sourceElems c s
  obtain ⟨short, block⟩ | ⟨long, parts, k, valid, block⟩ := encblkBlock_cases c checked
  · rw [block]
    exact ⟨length_rawBytes c _, .inl ⟨short, rfl⟩⟩
  · have tail : overrun ≤ (sourceElems c s).length := by
      unfold rawThreshold at long; unfold overrun; omega
    rw [block]
    exact ⟨length_framedBytes c _ _ tail, .inr ⟨parts,
      { long := count ▸ long
        le_blockMax := count ▸ checked.le_blockMax
        valid := count ▸ valid
        fits := fits_sourceElems c s }, rfl, rfl⟩⟩

/-- `RESULT` holds the size of any block. -/
theorem size_encblkBlock_lt (c : Codec) {pext : Bool} {s : State} (checked : EncblkChecked pext s) :
    (encblkBlock c pext s).size < 2 ^ 64 := by
  have bound := size_encblkBlock_le c checked
  have le_blockMax := checked.le_blockMax
  have elem_bytes := elemBytes_le c
  have product : (elemBytes c + 1) * opN s ≤ (8 + 1) * blockMax := Nat.mul_le_mul (by omega) le_blockMax
  unfold blockMax at product
  omega

/-! ### DECBLK -/

theorem decodeCmd_decblk (c : Codec) : decodeCmd (commandWord 0x5#4 c false) = .ok (.decblk c) := by
  cases c with
  | c32 => decide
  | c64 => decide

/-- DECBLK of `n` elements is what the engine fetches next, with windows that are in order and room for the elements. -/
structure DecblkReady (c : Codec) (n : Nat) (u : State) : Prop where
  phase : u.phase = .command
  host : u.host = []
  word : u.latch.cmd = commandWord 0x5#4 c false
  count : opN u = n
  elem_window : elemWindowOk u
  byte_window : byteWindowOk u
  room : opEptr u + opN u ≤ opElim u

/-- DECBLK begins its block (R217). -/
theorem step_decblk {c : Codec} {n : Nat} {u : State} (ready : DecblkReady c n u) (pos : 1 ≤ n)
    (le_blockMax : n ≤ blockMax) :
    step u = .next (beginBlock c (opBptr u) (opEptr u) n u) := by
  obtain ⟨phase, host, word, rfl, elem_window, byte_window, room⟩ := ready
  have turn : engineTurn u = .instr (.decblk c) := by
    simp [engineTurn, fetch, phase, word, decode, decodeCmd_decblk]
  have checks : decblkError u = .ok := by
    rw [decblkError, firstError_eq_ok _ (by simp)]
    simp [elem_window, byte_window, pos, le_blockMax, room]
  calc step u = execDecblk c u := by simp [step, host, engineStep, turn, exec]
    _ = .next (beginBlock c (opBptr u) (opEptr u) (opN u) u) := by rw [execDecblk, if_pos checks]

/-- The elements `elems` were decoded to `EPTR` from a block of `size` bytes, and nothing else has changed that a host can see
beyond `STATUS` and `RESULT`. -/
def BlockDecoded (u v : State) (elems : List Elem) (size : Nat) : Prop :=
  succeededWith v size ∧ StandsAt v.e (opEptr u) elems ∧ elemsKeptOutside u v (opEptr u) elems.length ∧
    v.b = u.b ∧ partsKept u v ∧ registersKept u v

theorem blockDecoded_complete {u : State} {e : Mem 64} {elems : List Elem} {size : Nat} (f : Nat) (t : Cursor) (p : Phase)
    (small : size < 2 ^ 64) (written : StandsAt e (opEptr u) elems)
    (kept : ∀ x, ¬(opEptr u ≤ x ∧ x < opEptr u + elems.length) → readCell e x = readCell u.e x) :
    BlockDecoded u (complete size { u with phase := p, e := e, fresh := f, cur := t }) elems size :=
  ⟨⟨rfl, rfl, rfl, by rw [complete_result, BitVec.toNat_ofNat, Nat.mod_eq_of_lt small]⟩, written, kept, rfl,
    ⟨rfl, fun _ => rfl⟩, ⟨rfl, rfl, rfl, rfl, rfl, rfl, rfl, rfl, rfl, rfl, rfl, rfl⟩⟩

/-- DECBLK over a block that ENCBLK may encode (R222). -/
theorem run_decblk_encblkBlock (c : Codec) {pext : Bool} {s u : State} (checked : EncblkChecked pext s)
    (ready : DecblkReady c (opN s) u) (inside : opBptr u + (encblkBlock c pext s).size ≤ opBlim u)
    (stands : StandsAt u.b (opBptr u) (encblkBlock c pext s).bytes) :
    ∃ k v, Host.Core.run Sys2Proof.core k u = .next v ∧
      BlockDecoded u v (sourceElems c s) (encblkBlock c pext s).size := by
  have length := length_sourceElems c s
  have small := size_encblkBlock_lt c checked
  have first := step_decblk ready checked.pos checked.le_blockMax
  rw [← length] at first
  obtain ⟨size, ⟨short, bytes⟩ | ⟨parts, input, bytes, framed⟩⟩ := encblkBlock_bytes c checked
  · rw [bytes] at stands
    rw [bytes, length_rawBytes] at size
    rw [← size] at inside small ⊢
    rw [beginBlock_raw (length ▸ checked.pos) (by omega) (fits_sourceElems c s) stands inside,
      Nat.add_sub_cancel_left] at first
    exact ⟨1, _, run_succ first 0, blockDecoded_complete u.fresh u.cur u.phase small (standsAt_writeCells _ _ _)
      fun x hx => readCell_writeCells_outside _ _ _ _ hx⟩
  · rw [bytes] at stands
    rw [framed] at inside small ⊢
    obtain ⟨e, f, t, run, written, kept⟩ := run_beginBlock_framed (e0 := opEptr u) input
      (Nat.min_eq_left input.le_blockMax).symm ready.host stands inside
    rw [Nat.sub_self] at run
    exact ⟨_, _, (run_succ first _).trans (run.trans (congrArg _ (beginBlock_end c _ _ _))),
      blockDecoded_complete f t .control small written kept⟩

/-- Settles O53: the block stands in the decoder's B-space as ENCBLK wrote it, so that DECBLK gives back the elements it was
made of. -/
theorem decblkRestoresWhatEncblkWrote : Obligations.DecblkRestoresWhatEncblkWrote := by
  intro c pext s t u encoded ok phase host word count elem_window byte_window room inside same
  obtain ⟨checked, -, -, result, memory⟩ | ⟨-, -, failed⟩ | ⟨failed, -⟩ := execEncblk_cases c pext s t encoded
  · have size : t.result.toNat = (encblkBlock c pext s).size := by
      rw [result, BitVec.toNat_ofNat, Nat.mod_eq_of_lt (size_encblkBlock_lt c checked)]
    rw [size] at inside same ⊢
    have opN_eq : opN u = opN s := by rw [opN, opN, count]
    have stands : StandsAt u.b (opBptr u) (encblkBlock c pext s).bytes := by
      refine (standsAt_writeCells s.b (opBptr s) _).transfer fun k hk => ?_
      rw [(encblkBlock_bytes c checked).1] at hk
      rw [same k hk, memory]
    obtain ⟨k, v, run, succeeded, written, kept, bytes, parts, registers⟩ :=
      run_decblk_encblkBlock c checked ⟨phase, host, word, opN_eq, elem_window, byte_window, room⟩ inside stands
    rw [length_sourceElems, ← opN_eq] at kept
    refine ⟨k, v, run, succeeded, fun i hi => ?_, kept, bytes, parts, registers⟩
    rw [(standsAt_iff _ _ _).1 written i (by rwa [length_sourceElems]), sourceElems, getD_readElems c _ _ _ _ hi]
  · simp [failed] at ok
  · exact absurd ok failed

end Sys2Proof.Machine
end

section
/-! The bytes of a stream behind its magic (44_frame.md R240, R241, 30_encoding.md R105): what the blocks that ENCFRM writes
are, and that they are no longer than `Bound` allows. -/

namespace Sys2Proof.Machine

/-! ### One block -/

/-- The engine's own encoding of a block is raw below 144 elements, and else framed and cut by a valid table (R241). -/
theorem encodeBlock_bytes_cases (c : Codec) {elems : List Elem} (k : Work) (le_blockMax : elems.length ≤ blockMax)
    (fits : ∀ x ∈ elems, x.toNat < 2 ^ elemWidth c) :
    (elems.length < rawThreshold ∧ (encodeBlock c elems k).bytes = rawBytes c elems) ∨
    ∃ parts, FramedInput c elems parts ∧ (encodeBlock c elems k).bytes = framedBytes c elems parts := by
  unfold encodeBlock
  by_cases short : elems.length < rawThreshold
  · rw [if_pos short]
    exact .inl ⟨short, rfl⟩
  · have long := Nat.le_of_not_lt short
    have front : (elems.take (elems.length - overrun)).length = elems.length - overrun :=
      List.length_take_of_le (Nat.sub_le _ _)
    have valid := validParts_computePartition c (elems.take (elems.length - overrun))
      (by rw [front]; unfold rawThreshold at long; unfold overrun; omega)
    rw [front] at valid
    rw [if_neg short]
    exact .inr ⟨_, ⟨long, le_blockMax, valid, fits⟩, rfl⟩

theorem FramedInput.length_framedBytes {c : Codec} {elems : List Elem} {parts : List Nat}
    (input : FramedInput c elems parts) :
    (framedBytes c elems parts).length = framedSize c (segments elems parts) := by
  have long := input.long
  exact Machine.length_framedBytes c _ _ (by unfold rawThreshold at long; unfold overrun; omega)

/-- R216, for a block wherever its elements stand. -/
theorem FramedInput.length_framedBytes_le {c : Codec} {elems : List Elem} {parts : List Nat}
    (input : FramedInput c elems parts) : (framedBytes c elems parts).length ≤ (elemBytes c + 1) * elems.length := by
  have bound := framedSize_le c input.cut
  have long := input.long
  rw [← input.cut.flatten_eq, input.length_flatten] at bound
  unfold rawThreshold at long
  unfold overrun at bound
  rw [Nat.sub_add_cancel (by omega)] at bound
  rw [input.length_framedBytes, Nat.succ_mul, Nat.mul_comm]
  omega

/-! ### The blocks of a stream -/

/-- `bytes` are the blocks of a stream of `elems`: framed blocks, of 65536 elements each where more follow, and behind them
the fewer than 144 elements that are left, raw (R104, R240); no element, no bytes. -/
inductive IsStream (c : Codec) : List Elem → List Byte → Prop where
  | last {elems : List Elem} (short : elems.length < rawThreshold) (fits : ∀ x ∈ elems, x.toNat < 2 ^ elemWidth c) :
      IsStream c elems (rawBytes c elems)
  | framed {elems rest : List Elem} {parts : List Nat} {bytes : List Byte} (input : FramedInput c elems parts)
      (full : rest ≠ [] → elems.length = blockMax) (behind : IsStream c rest bytes) :
      IsStream c (elems ++ rest) (framedBytes c elems parts ++ bytes)

theorem isStream_nil (c : Codec) : IsStream c [] [] := .last (by decide) (by simp)

/-- A block that ends the stream. -/
theorem isStream_encodeBlock (c : Codec) {elems : List Elem} (k : Work) (le_blockMax : elems.length ≤ blockMax)
    (fits : ∀ x ∈ elems, x.toNat < 2 ^ elemWidth c) : IsStream c elems (encodeBlock c elems k).bytes := by
  obtain ⟨short, bytes⟩ | ⟨parts, input, bytes⟩ := encodeBlock_bytes_cases c k le_blockMax fits
  · exact bytes ▸ .last short fits
  · simpa [bytes] using IsStream.framed input (fun more => absurd rfl more) (isStream_nil c)

/-- A block of 65536 elements, whatever follows it. -/
theorem isStream_encodeBlock_append (c : Codec) {elems rest : List Elem} {bytes : List Byte} (k : Work)
    (full : elems.length = blockMax) (fits : ∀ x ∈ elems, x.toNat < 2 ^ elemWidth c) (behind : IsStream c rest bytes) :
    IsStream c (elems ++ rest) ((encodeBlock c elems k).bytes ++ bytes) := by
  obtain ⟨short, -⟩ | ⟨parts, input, block⟩ := encodeBlock_bytes_cases c k full.le fits
  · rw [full] at short
    exact absurd short (by decide)
  · exact block ▸ .framed input (fun _ => full) behind

/-- R245: the blocks take at most `EB + 1` bytes an element. -/
theorem IsStream.length_le {c : Codec} {elems : List Elem} {bytes : List Byte} (stream : IsStream c elems bytes) :
    bytes.length ≤ (elemBytes c + 1) * elems.length := by
  induction stream with
  | @last elems =>
    rw [length_rawBytes, Nat.succ_mul, Nat.mul_comm]
    omega
  | framed input _ _ ih =>
    have block := input.length_framedBytes_le
    rw [List.length_append, List.length_append, Nat.mul_add]
    omega

/-! ### The blocks that ENCFRM writes -/

theorem readElems_add (c : Codec) (m : Mem 64) (a j k : Nat) :
    readElems c m a (j + k) = readElems c m a j ++ readElems c m (a + j) k := by
  simp [readElems, List.range_add, Function.comp_def, Nat.add_assoc]

theorem isStream_encodeBlock_readElems (c : Codec) (m : Mem 64) (e n : Nat) (k : Work) (h : n ≤ blockMax) :
    IsStream c (readElems c m e n) (encodeBlock c (readElems c m e n) k).bytes :=
  isStream_encodeBlock c k (by rwa [length_readElems]) (lt_two_pow_of_mem_readElems c m e n)

theorem size_encodeBlock_le (c : Codec) (m : Mem 64) (e n : Nat) (k : Work) (h : n ≤ blockMax) :
    (encodeBlock c (readElems c m e n) k).size ≤ (elemBytes c + 1) * n := by
  simpa [length_encodeBlock, length_readElems] using (isStream_encodeBlock_readElems c m e n k h).length_le

/-- How the blocks begin where at least one is full (R241). -/
theorem encodeBlocks_succ_eq_some {c : Codec} {m : Mem 64} {lim full e b rem : Nat} {k : Work}
    {r : List Byte × Bool × Work} (h : encodeBlocks c m lim (full + 1) e b rem k = some r) :
    b + (encodeBlock c (readElems c m e blockMax) k).size ≤ lim ∧
    ∃ r', encodeBlocks c m lim full (e + blockMax) (b + (encodeBlock c (readElems c m e blockMax) k).size)
        (rem - blockMax) (encodeBlock c (readElems c m e blockMax) k).work = some r' ∧
      r.1 = (encodeBlock c (readElems c m e blockMax) k).bytes ++ r'.1 := by
  simp only [encodeBlocks] at h
  split at h
  · next fit =>
    refine ⟨fit, ?_⟩
    split at h
    · next found =>
      injection h with h
      exact ⟨_, found, by rw [← h]⟩
    · simp at h
  · simp at h

/-- The remainder is one block, or none (R241). -/
theorem encodeBlocks_zero_eq_some {c : Codec} {m : Mem 64} {lim e b rem : Nat} {k : Work} {r : List Byte × Bool × Work}
    (h : encodeBlocks c m lim 0 e b rem k = some r) :
    (rem = 0 ∧ r.1 = []) ∨
    (b + (encodeBlock c (readElems c m e rem) k).size ≤ lim ∧ r.1 = (encodeBlock c (readElems c m e rem) k).bytes) := by
  simp only [encodeBlocks] at h
  split at h
  · next none_left =>
    injection h with h
    exact .inl ⟨none_left, by rw [← h]⟩
  · split at h
    · next fit =>
      injection h with h
      exact .inr ⟨fit, by rw [← h]⟩
    · simp at h

theorem lt_blockMax_of_div_eq_zero {rem : Nat} (h : rem / blockMax = 0) : rem < blockMax :=
  (Nat.div_eq_zero_iff_lt (by decide)).1 h

/-- R241: a full block leaves one full block less. -/
theorem exists_add_of_div_blockMax_eq_succ {rem full : Nat} (h : rem / blockMax = full + 1) :
    ∃ rest, rem = blockMax + rest ∧ rest / blockMax = full := by
  unfold blockMax at h ⊢
  exact ⟨rem - 65536, by omega, by omega⟩

/-- R241: what the engine encodes is a stream of its source, and ends below the limit. -/
theorem isStream_of_encodeBlocks {c : Codec} {m : Mem 64} {lim full e b rem : Nat} {k : Work}
    {r : List Byte × Bool × Work} (h : encodeBlocks c m lim full e b rem k = some r) (count : rem / blockMax = full)
    (start : b ≤ lim) : IsStream c (readElems c m e rem) r.1 ∧ b + r.1.length ≤ lim := by
  induction full generalizing e b rem k r with
  | zero =>
    obtain ⟨rfl, bytes⟩ | ⟨fit, bytes⟩ := encodeBlocks_zero_eq_some h
    · rw [bytes]
      exact ⟨isStream_nil c, start⟩
    · rw [bytes, length_encodeBlock]
      exact ⟨isStream_encodeBlock_readElems c m e rem k (lt_blockMax_of_div_eq_zero count).le, fit⟩
  | succ full ih =>
    obtain ⟨fit, r', others, bytes⟩ := encodeBlocks_succ_eq_some h
    obtain ⟨rest, rfl, fewer⟩ := exists_add_of_div_blockMax_eq_succ count
    rw [Nat.add_sub_cancel_left] at others
    obtain ⟨behind, inside⟩ := ih others fewer fit
    rw [bytes, readElems_add, List.length_append, length_encodeBlock]
    exact ⟨isStream_encodeBlock_append c k (length_readElems c m e _) (lt_two_pow_of_mem_readElems c m e _) behind,
      by omega⟩

/-- R245: with `EB + 1` bytes an element below the limit, every block fits. -/
theorem isSome_encodeBlocks {c : Codec} {m : Mem 64} {lim full e b rem : Nat} {k : Work} (count : rem / blockMax = full)
    (room : b + (elemBytes c + 1) * rem ≤ lim) : (encodeBlocks c m lim full e b rem k).isSome = true := by
  induction full generalizing e b rem k with
  | zero =>
    have size := size_encodeBlock_le c m e rem k (lt_blockMax_of_div_eq_zero count).le
    by_cases none_left : rem = 0
    · simp [encodeBlocks, none_left]
    · simp [encodeBlocks, none_left, show b + (encodeBlock c (readElems c m e rem) k).size ≤ lim by omega]
  | succ full ih =>
    have size := size_encodeBlock_le c m e blockMax k le_rfl
    obtain ⟨rest, rfl, fewer⟩ := exists_add_of_div_blockMax_eq_succ count
    rw [Nat.mul_add] at room
    obtain ⟨r, others⟩ := Option.isSome_iff_exists.1 (ih (e := e + blockMax)
      (b := b + (encodeBlock c (readElems c m e blockMax) k).size)
      (k := (encodeBlock c (readElems c m e blockMax) k).work) fewer (by omega))
    simp [encodeBlocks, others, show b + (encodeBlock c (readElems c m e blockMax) k).size ≤ lim by omega]

/-! ### ENCFRM -/

theorem encfrmError_eq_ok (c : Codec) (s : State) :
    encfrmError c s = .ok ↔
      (elemWindowOk s ∧ byteWindowOk s ∧ opEptr s + opN s ≤ opElim s) ∧
        opBptr s + 8 ≤ opBlim s ∧ (streamBlocks c s).isSome = true := by
  rw [encfrmError, firstError_eq_ok _ (by simp)]
  simp [and_assoc]

/-- An error is not reported where every check that would report it holds (R292). -/
theorem firstError_ne {checks : List (Bool × Err)} {e : Err} (error : e ≠ .ok)
    (hold : ∀ x ∈ checks, x.2 = e → x.1 = true) : firstError checks ≠ e := by
  intro reported
  obtain ⟨x, mem, fails, source⟩ := firstError_mem checks (reported ▸ error)
  simp [hold x mem (source.trans reported)] at fails

/-- It is the destination that is short where `E_DSTFULL` is reported (R240). -/
theorem encfrmError_ne_dstfull {c : Codec} {s : State} (magic : opBptr s + 8 ≤ opBlim s)
    (blocks : (streamBlocks c s).isSome = true) : encfrmError c s ≠ .dstfull :=
  firstError_ne (by simp) (by simp [magic, blocks])

/-- How ENCFRM can end: with the stream it encoded, or with the error of its checks (R240, R290). -/
theorem execEncfrm_cases (c : Codec) (s t : State) (h : exec (.encfrm c) s = .next t) :
    (∃ blocks, IsStream c (sourceElems c s) blocks ∧
      opBptr s + (8 + blocks.length) ≤ opBlim s ∧ t.err = .ok ∧ t.result = BitVec.ofNat 64 (8 + blocks.length) ∧
      t.b = writeCells s.b (opBptr s) (natToBytes 8 (magicNumber c) ++ blocks)) ∨
    (encfrmError c s ≠ .ok ∧ t.err = encfrmError c s ∧ t.result = 0) := by
  have h : execEncfrm c s = .next t := h
  unfold execEncfrm at h
  by_cases ok : encfrmError c s = .ok
  · obtain ⟨-, magic, some_blocks⟩ := (encfrmError_eq_ok c s).1 ok
    obtain ⟨r, found⟩ := Option.isSome_iff_exists.1 some_blocks
    obtain ⟨stream, inside⟩ := isStream_of_encodeBlocks found rfl magic
    rw [if_pos ok, streamOf, found] at h
    injection h with h
    subst h
    exact .inl ⟨r.1, stream, by omega, rfl, by simp [List.length_append], rfl⟩
  · rw [if_neg ok] at h
    injection h with h
    subst h
    exact .inr ⟨ok, rfl, rfl⟩

/-- Settles O56: every block takes at most `EB + 1` bytes an element, so that the magic and the blocks fit the window, and
neither check of the destination can fail. -/
theorem streamSizeIsBounded : Obligations.StreamSizeIsBounded := by
  intro c s t h room
  obtain ⟨blocks, stream, -, ok, result, -⟩ | ⟨-, error, result⟩ := execEncfrm_cases c s t h
  · have bound := stream.length_le
    rw [length_sourceElems] at bound
    have result_le : t.result.toNat ≤ 8 + blocks.length := by
      rw [result, BitVec.toNat_ofNat]
      exact Nat.mod_le _ _
    exact ⟨by simp [ok], by omega⟩
  · have some_blocks : (streamBlocks c s).isSome = true := isSome_encodeBlocks rfl (by omega)
    exact ⟨error ▸ encfrmError_ne_dstfull (by omega) some_blocks, by simp [result]⟩

end Sys2Proof.Machine
end

section
/-! The frame round trip (44_frame.md R242, R246), block by block along the stream. -/

namespace Sys2Proof.Machine

/-! ### The decode of a stream behind its magic -/

/-- The raw block that ends a stream, or the end at once where no element is left (R242). -/
theorem beginBlock_last {c : Codec} {elems : List Elem} {a e0 : Nat} {s : State} (short : elems.length < rawThreshold)
    (fits : ∀ x ∈ elems, x.toNat < 2 ^ elemWidth c) (stands : StandsAt s.b a (rawBytes c elems))
    (inside : a + (rawBytes c elems).length ≤ opBlim s) :
    ∃ e, beginBlock c a e0 elems.length s = complete (a + (rawBytes c elems).length - opBptr s) { s with e := e } ∧
      StandsAt e e0 elems ∧ ∀ x, ¬(e0 ≤ x ∧ x < e0 + elems.length) → readCell e x = readCell s.e x := by
  cases elems with
  | nil => exact ⟨s.e, rfl, standsAt_nil _ _, fun _ _ => rfl⟩
  | cons x elems =>
    rw [length_rawBytes] at inside ⊢
    exact ⟨_, beginBlock_raw (by simp) short fits stands inside, standsAt_writeCells _ _ _,
      fun y hy => readCell_writeCells_outside _ _ _ _ hy⟩

/-- R246: the decoder goes through the blocks of a stream to its end, with the elements written and no other cell touched. -/
theorem IsStream.run_beginBlock {c : Codec} {elems : List Elem} {bytes : List Byte} (stream : IsStream c elems bytes)
    {a e0 : Nat} {s : State} (host : s.host = []) (stands : StandsAt s.b a bytes) (inside : a + bytes.length ≤ opBlim s) :
    ∃ k e f t, Host.Core.run Sys2Proof.core k (beginBlock c a e0 elems.length s) = .next
        (complete (a + bytes.length - opBptr s) { s with e := e, fresh := f, cur := t }) ∧
      StandsAt e e0 elems ∧ ∀ x, ¬(e0 ≤ x ∧ x < e0 + elems.length) → readCell e x = readCell s.e x := by
  induction stream generalizing a e0 s with
  | last short fits =>
    obtain ⟨e, ends, written, kept⟩ := beginBlock_last (e0 := e0) short fits stands inside
    exact ⟨0, e, s.fresh, s.cur, by rw [ends]; rfl, written, kept⟩
  | @framed elems rest parts bytes input full behind ih =>
    have count : elems.length = min (elems ++ rest).length blockMax := by
      have le_blockMax := input.le_blockMax
      rw [List.length_append]
      by_cases more : rest = []
      · simp [more, le_blockMax]
      · have := full more
        omega
    obtain ⟨block, others⟩ := (standsAt_append _ _ _ _).1 stands
    rw [List.length_append, input.length_framedBytes] at inside
    rw [input.length_framedBytes] at others
    obtain ⟨e, f, t, run, written, kept⟩ := run_beginBlock_framed (e0 := e0) input count host block (by omega)
    rw [List.length_append, Nat.add_sub_cancel_left] at run
    obtain ⟨k, e', f', t', run', written', kept'⟩ := ih
      (a := a + framedSize c (segments elems parts)) (e0 := e0 + elems.length)
      (s := { s with phase := .control, e := e, fresh := f, cur := t }) host others (by rw [Nat.add_assoc]; exact inside)
    refine ⟨_, e', f', t', (run_add (M := Sys2Proof.core) _ k (List.length_append ▸ run)).trans ?_, ?_, fun x hx => ?_⟩
    · rw [run', List.length_append, input.length_framedBytes, ← Nat.add_assoc]
      rfl
    · exact (standsAt_append _ _ _ _).2 ⟨written.transfer fun i hi => kept' _ (by omega), written'⟩
    · rw [List.length_append] at hx
      rw [kept' x (by omega), kept x (by omega)]

/-! ### DECFRM -/

theorem decodeCmd_decfrm (c : Codec) : decodeCmd (commandWord 0x7#4 c false) = .ok (.decfrm c) := by
  cases c with
  | c32 => decide
  | c64 => decide

theorem magicNumber_lt (c : Codec) : magicNumber c < 256 ^ 8 := by cases c <;> decide

/-- DECFRM is what the engine fetches next, with windows that are in order and room for the elements. -/
structure DecfrmReady (c : Codec) (u : State) : Prop where
  phase : u.phase = .command
  host : u.host = []
  word : u.latch.cmd = commandWord 0x7#4 c false
  elem_window : elemWindowOk u
  byte_window : byteWindowOk u
  room : opEptr u + opN u ≤ opElim u

/-- DECFRM begins its first block behind a good magic (R242). -/
theorem step_decfrm {c : Codec} {u : State} (ready : DecfrmReady c u) (inside : opBptr u + 8 ≤ opBlim u)
    (magic : StandsAt u.b (opBptr u) (natToBytes 8 (magicNumber c))) :
    step u = .next (beginBlock c (opBptr u + 8) (opEptr u) (opN u) u) := by
  obtain ⟨phase, host, word, elem_window, byte_window, room⟩ := ready
  have turn : engineTurn u = .instr (.decfrm c) := by
    simp [engineTurn, fetch, phase, word, decode, decodeCmd_decfrm]
  have checks : decfrmError c u = .ok := by
    rw [decfrmError, firstError_eq_ok _ (by simp)]
    simp [elem_window, byte_window, room, inside, memRead_of_standsAt magic (magicNumber_lt c)]
  calc step u = execDecfrm c u := by simp [step, host, engineStep, turn, exec]
    _ = .next (beginBlock c (opBptr u + 8) (opEptr u) (opN u) u) := by rw [execDecfrm, if_pos checks]

/-- DECFRM over the magic and the blocks of a stream (R246). -/
theorem run_decfrm_of_isStream {c : Codec} {elems : List Elem} {blocks : List Byte} {u : State} (ready : DecfrmReady c u)
    (stream : IsStream c elems blocks) (count : elems.length = opN u) (inside : opBptr u + (8 + blocks.length) ≤ opBlim u)
    (stands : StandsAt u.b (opBptr u) (natToBytes 8 (magicNumber c) ++ blocks)) :
    ∃ k v, Host.Core.run Sys2Proof.core k u = .next v ∧ BlockDecoded u v elems (8 + blocks.length) := by
  obtain ⟨magic, behind⟩ := (standsAt_append _ _ _ _).1 stands
  rw [length_natToBytes] at behind
  have first := step_decfrm ready (by omega) magic
  have small : 8 + blocks.length < 2 ^ 64 := by
    have limit : opBlim u < 2 ^ 64 := u.latch.blim.isLt
    omega
  obtain ⟨k, e, f, t, run, written, kept⟩ :=
    stream.run_beginBlock (e0 := opEptr u) ready.host behind (by omega)
  rw [count, Nat.add_assoc, Nat.add_sub_cancel_left] at run
  exact ⟨k + 1, _, (run_succ first k).trans run, blockDecoded_complete f t u.phase small written kept⟩

/-- Settles O59: the stream stands in the decoder's B-space as ENCFRM wrote it, so that DECFRM gives back the elements it was
made of. -/
theorem decfrmRestoresWhatEncfrmWrote : Obligations.DecfrmRestoresWhatEncfrmWrote := by
  intro c s t u encoded ok phase host word count elem_window byte_window room inside same
  obtain ⟨blocks, stream, fit, -, result, memory⟩ | ⟨failed, error, -⟩ := execEncfrm_cases c s t encoded
  · have size : t.result.toNat = 8 + blocks.length := by
      have limit : opBlim s < 2 ^ 64 := s.latch.blim.isLt
      rw [result, BitVec.toNat_ofNat, Nat.mod_eq_of_lt (by omega)]
    rw [size] at inside same ⊢
    have opN_eq : opN u = opN s := by rw [opN, opN, count]
    have stands : StandsAt u.b (opBptr u) (natToBytes 8 (magicNumber c) ++ blocks) := by
      refine (standsAt_writeCells s.b (opBptr s) _).transfer fun k hk => ?_
      rw [List.length_append, length_natToBytes] at hk
      rw [same k hk, memory]
    obtain ⟨k, v, run, succeeded, written, kept, bytes, parts, registers⟩ :=
      run_decfrm_of_isStream ⟨phase, host, word, elem_window, byte_window, room⟩ stream
        (by rw [length_sourceElems, opN_eq]) inside stands
    rw [length_sourceElems, ← opN_eq] at kept
    refine ⟨k, v, run, succeeded, fun i hi => ?_, kept, bytes, parts, registers⟩
    rw [(standsAt_iff _ _ _).1 written i (by rwa [length_sourceElems]), sourceElems, getD_readElems c _ _ _ _ hi]
  · exact absurd (error ▸ ok) failed

end Sys2Proof.Machine
end

section
/-! A host's write of `CMD` (45_control.md R260, R264, R265): START while IDLE, ignored while BUSY, and the report that follows
when the word is illegal. Two kinds of illegal word end alike: those that decode to no instruction, and the reserved operation
codes, which decode to instructions that only report. -/

namespace Sys2Proof.Machine

/-! ### Register writes -/

/-- Writing a register is the host's own turn, whatever the engine is doing. -/
theorem step_writeReg {s : State} {slot : Nat} {v : BitVec 64} {rest : List HostMove} (host : s.host = .writeReg slot v :: rest) :
    step s = .next (writeRegister slot v { s with host := rest }) := by
  simp [step, host, hostStep]

theorem writeRegister_of_idle {s : State} (idle : s.phase = .idle) (slot : Nat) (v : BitVec 64) :
    writeRegister slot v s = writeIdleRegister slot v s := by
  simp [writeRegister, (busy_eq_false s).2 idle]

/-- Every write is ignored while BUSY (R264). -/
theorem writeRegister_of_busy {s : State} (running : s.phase ≠ .idle) (slot : Nat) (v : BitVec 64) :
    writeRegister slot v s = s := by
  have engine_busy : busy s = true := by simpa using mt (busy_eq_false s).1 running
  rw [writeRegister, if_pos engine_busy]

theorem step_writeReg_of_busy {s : State} {slot : Nat} {v : BitVec 64} {rest : List HostMove}
    (host : s.host = .writeReg slot v :: rest) (running : s.phase ≠ .idle) : step s = .next { s with host := rest } := by
  rw [step_writeReg host, writeRegister_of_busy (s := { s with host := rest }) running]

/-- A write of `CMD` while IDLE is START of the low 32 bits (R260). -/
theorem step_writeCmd_of_idle {s : State} {v : BitVec 64} {rest : List HostMove} (host : s.host = .writeReg 0 v :: rest)
    (idle : s.phase = .idle) : step s = .next (start (v.setWidth 32) { s with host := rest }) := by
  rw [step_writeReg host, writeRegister_of_idle (s := { s with host := rest }) idle]
  rfl

/-- Settles O8: both phases follow from what a write of `CMD` does there, and START reloads the hidden state from the word and
the operand registers alone. -/
theorem startLatchesTheOperands : Obligations.StartLatchesTheOperands := by
  intro s v rest host
  refine ⟨fun idle => ⟨⟨_, step_writeCmd_of_idle host idle, rfl⟩, fun l k h => ?_⟩, step_writeReg_of_busy host⟩
  calc step { s with latch := l, cur := k, work := h }
      = .next (start (v.setWidth 32) { s with latch := l, cur := k, work := h, host := rest }) :=
        step_writeCmd_of_idle (s := { s with latch := l, cur := k, work := h }) host idle
    _ = .next (start (v.setWidth 32) { s with host := rest }) :=
        congrArg _ (start_forgets_hidden (v.setWidth 32) { s with host := rest } l k h)
    _ = step s := (step_writeCmd_of_idle host idle).symm

/-! ### Illegal words -/

/-- A command without `PEXT` decodes when `CMD[31:5]` is zero (R93). -/
theorem plainCommand_eq_ok {w : CmdWord} {i j : Instr} :
    plainCommand w i = .ok j ↔ reservedField w = 0 ∧ pextField w = false ∧ i = j := by
  unfold plainCommand
  by_cases zero : reservedField w = 0
  · rw [if_neg (not_not_intro zero)]
    cases pextField w <;> simp [zero]
  · rw [if_pos zero]
    simp only [zero, false_and, reduceCtorEq]

/-- Every operation but ENCBLK decodes as a command without `PEXT` (R92). -/
theorem exists_decodeCmd_eq_plainCommand {w : CmdWord} (least : 1 ≤ (opField w).toNat) (most : (opField w).toNat ≤ 8)
    (other : (opField w).toNat ≠ 4) : ∃ i, decodeCmd w = plainCommand w i := by
  unfold decodeCmd
  generalize (opField w).toNat = op at least most other ⊢
  obtain below | above : op ≤ 3 ∨ 5 ≤ op := by omega
  · interval_cases op <;> exact ⟨_, rfl⟩
  · interval_cases op <;> exact ⟨_, rfl⟩

theorem decodeCmd_encblk {w : CmdWord} (op : (opField w).toNat = 4) :
    decodeCmd w = if reservedField w ≠ 0 then .error .reservedBits else .ok (.encblk (codecField w) (pextField w)) := by
  simp [decodeCmd, op]

/-- A word with an operation code from 1 to 8 decodes only when it is legal (R93). -/
theorem legalWord_of_decodeCmd {w : CmdWord} {i : Instr} (least : 1 ≤ (opField w).toNat) (most : (opField w).toNat ≤ 8)
    (decoded : decodeCmd w = .ok i) : legalWord w := by
  by_cases op : (opField w).toNat = 4
  · have zero : reservedField w = 0 := by
      by_contra nonzero
      rw [decodeCmd_encblk op, if_pos nonzero] at decoded
      cases decoded
    exact ⟨zero, least, most, fun _ => op⟩
  · obtain ⟨j, plain⟩ := exists_decodeCmd_eq_plainCommand least most op
    obtain ⟨zero, pext, -⟩ := plainCommand_eq_ok.1 (plain ▸ decoded)
    exact ⟨zero, least, most, fun set => by simp [pext] at set⟩

/-- The reserved operation codes decode to instructions that only report (R93, R265). -/
theorem exec_of_decodeCmd_reserved {w : CmdWord} {i : Instr} (reserved : (opField w).toNat = 0 ∨ 9 ≤ (opField w).toNat)
    (decoded : decodeCmd w = .ok i) (s : State) : exec i s = .next (illegalCommand s) := by
  have small : (opField w).toNat < 16 := (opField w).isLt
  unfold decodeCmd at decoded
  generalize (opField w).toNat = op at reserved small decoded
  obtain rfl | above := reserved
  · obtain rfl := Except.ok.inj decoded
    rfl
  · interval_cases op <;> obtain rfl := Except.ok.inj decoded <;> rfl

/-- What decodes from an illegal word only reports. -/
theorem exec_of_not_legalWord {w : CmdWord} {i : Instr} (illegal : ¬ legalWord w) (decoded : decodeCmd w = .ok i)
    (s : State) : exec i s = .next (illegalCommand s) := by
  by_cases named : 1 ≤ (opField w).toNat ∧ (opField w).toNat ≤ 8
  · exact absurd (legalWord_of_decodeCmd named.1 named.2 decoded) illegal
  · exact exec_of_decodeCmd_reserved (by omega) decoded s

/-- The engine's turn at an illegal word, whether or not the word decodes (R265). -/
theorem engineStep_of_not_legalWord {s : State} (phase : s.phase = .command) (illegal : ¬ legalWord s.latch.cmd) :
    engineStep s = .next (illegalCommand s) := by
  cases decoded : decodeCmd s.latch.cmd with
  | ok i =>
    have turn : engineTurn s = .instr i := by simp [engineTurn, fetch, phase, decode, decoded]
    rw [engineStep, turn]
    exact exec_of_not_legalWord illegal decoded s
  | error x =>
    have turn : engineTurn s = .illegal := by simp [engineTurn, fetch, phase, decode, decoded]
    rw [engineStep, turn]

/-- The report of an illegal word is COMPLETE with `E_ILLCMD` and nothing else (R265, R290 case a). -/
theorem illegalCommand_eq_finish (s : State) : illegalCommand s = finish .illcmd 0 s := raise_unchanged .illcmd s

/-- With no host move pending, an illegal word that has started is reported in one step (R265). -/
theorem step_of_not_legalWord {s : State} (host : s.host = []) (phase : s.phase = .command)
    (illegal : ¬ legalWord s.latch.cmd) : step s = .next (finish .illcmd 0 s) :=
  calc step s = engineStep s := by simp [step, host]
    _ = .next (illegalCommand s) := engineStep_of_not_legalWord phase illegal
    _ = .next (finish .illcmd 0 s) := by rw [illegalCommand_eq_finish]

/-- Settles O5: the host's step is START, and the engine's step behind it is the report of an illegal word. -/
theorem illegalWordReportsOnly : Obligations.IllegalWordReportsOnly := by
  intro s v idle host illegal
  have started : step s = .next (start (v.setWidth 32) { s with host := [] }) := step_writeCmd_of_idle host idle
  have reported := step_of_not_legalWord (s := start (v.setWidth 32) { s with host := [] }) rfl rfl illegal
  exact ⟨_, (run_succ started 1).trans (run_succ reported 0), rfl⟩

end Sys2Proof.Machine
end

section
/-! The two instruction formats (30_encoding.md R91 to R97): a word is its fields, and so decoder and encoder invert each
other. -/

namespace Sys2Proof.Machine

/-! ### Words and their fields -/

@[simp] theorem codecOfBit_bit (c : Codec) : codecOfBit c.bit = c := by cases c <;> rfl

@[simp] theorem bit_codecOfBit (b : Bool) : (codecOfBit b).bit = b := by cases b <;> rfl

section
variable (op : BitVec 4) (c : Codec) (pext : Bool) (rest : BitVec 28) (pidx widx : BitVec 4)

@[simp] theorem opField_commandWord : opField (commandWord op c pext) = op := BitVec.extractLsb'_append_eq_right

@[simp] theorem codecField_commandWord : codecField (commandWord op c pext) = c := by
  have bit : (commandWord op c pext).getLsbD 4 = c.bit := by
    simp only [commandWord, BitVec.getLsbD_append]
    simp
  rw [codecField, bit, codecOfBit_bit]

@[simp] theorem pextField_commandWord : pextField (commandWord op c pext) = pext := by
  simp only [pextField, commandWord, BitVec.getLsbD_append]
  simp

@[simp] theorem reservedField_commandWord : reservedField (commandWord op c pext) = 0 := by
  refine BitVec.eq_of_getLsbD_eq fun i hi => ?_
  have above : ¬ 6 + i < 4 ∧ ¬ 6 + i - 4 < 1 ∧ ¬ 6 + i - 4 - 1 < 1 := by omega
  simp only [reservedField, commandWord, BitVec.getLsbD_extractLsb', BitVec.getLsbD_append, above]
  simp

@[simp] theorem opField_reservedWord : opField (reservedWord op rest) = op := BitVec.extractLsb'_append_eq_right

@[simp] theorem restField_reservedWord : restField (reservedWord op rest) = rest := BitVec.extractLsb'_append_eq_left

@[simp] theorem widxField_ctrlByte : widxField (ctrlByte pidx widx) = widx := BitVec.extractLsb'_append_eq_right

@[simp] theorem pidxField_ctrlByte : pidxField (ctrlByte pidx widx) = pidx := BitVec.extractLsb'_append_eq_left

end

/-- R91: a word whose reserved bits are zero is its operation code, its family and its `PEXT`. -/
theorem commandWord_fields {w : CmdWord} (zero : reservedField w = 0) :
    commandWord (opField w) (codecField w) (pextField w) = w := by
  have bit (i : Nat) : BitVec.ofBool (w.getLsbD i) = w.extractLsb' i 1 := by
    ext j hj
    obtain rfl : j = 0 := by omega
    simp
  have reserved : 0#26 = w.extractLsb' 6 26 := zero.symm
  rw [commandWord, codecField, bit_codecOfBit, pextField, bit, bit, opField, reserved,
    BitVec.extractLsb'_append_extractLsb'_eq_extractLsb' (by rfl), BitVec.extractLsb'_append_extractLsb'_eq_extractLsb' (by rfl),
    BitVec.extractLsb'_append_extractLsb'_eq_extractLsb' (by rfl)]
  exact BitVec.extractLsb'_eq_self

/-- R93: a word is its operation code and the 28 bits above. -/
theorem reservedWord_fields (w : CmdWord) : reservedWord (opField w) (restField w) = w :=
  BitVec.extractLsb'_append_extractLsb'

/-- R94: a control byte is its two nibbles. -/
theorem ctrlByte_fields (b : Byte) : ctrlByte (pidxField b) (widxField b) = b :=
  BitVec.extractLsb'_append_extractLsb'

/-! ### Decoding what was encoded -/

theorem plainCommand_commandWord (op : BitVec 4) (c : Codec) (i : Instr) :
    plainCommand (commandWord op c false) i = .ok i :=
  plainCommand_eq_ok.2 ⟨reservedField_commandWord op c false, pextField_commandWord op c false, rfl⟩

/-- Settles O1: each format gives its fields back, and the operation code or the width nibble selects the arm. -/
theorem decodeOfEncodeIsTheInstruction : Obligations.DecodeOfEncodeIsTheInstruction := by
  intro c i wf
  cases i with
  | encblk k pext => simp [encode, decode, decodeCmd]
  | pack k | unpack k | partition k | decblk k | encfrm k | decfrm k | bound k =>
    simp [encode, decode, decodeCmd, plainCommand_commandWord]
  | reservedOp0 r | reservedOp9 r | reservedOpA r | reservedOpB r | reservedOpC r | reservedOpD r | reservedOpE r
  | reservedOpF r => simp [encode, decode, decodeCmd]
  | unpack64 p =>
    obtain rfl : c = .c64 := by simpa [Instr.wellFormed] using wf
    simp [encode, decode, decodeCtrl]
  | ctrlInvalid p =>
    obtain rfl : c = .c32 := by simpa [Instr.wellFormed] using wf
    simp [encode, decode, decodeCtrl]
  | unpack0 p | unpack1 p | unpack2 p | unpack3 p | unpack4 p | unpack5 p | unpack6 p | unpack7 p | unpack8 p | unpack9 p
  | unpack10 p | unpack11 p | unpack12 p | unpack16 p | unpack32 p => simp [encode, decode, decodeCtrl]

/-! ### Encoding what was decoded -/

/-- R92, R93: a word that decodes is a command without reserved bits, with `PEXT` only in ENCBLK, or has a reserved
operation code. -/
theorem eq_of_plainCommand {w : CmdWord} {i j : Instr} (decoded : plainCommand w i = .ok j) :
    j = i ∧ commandWord (opField w) (codecField w) false = w := by
  obtain ⟨zero, pext, rfl⟩ := plainCommand_eq_ok.1 decoded
  exact ⟨rfl, pext ▸ commandWord_fields zero⟩

theorem encode_of_decodeCmd {w : CmdWord} {i : Instr} (c : Codec) (decoded : decodeCmd w = .ok i) :
    encode c i = .cmd w ∧ i.wellFormed c = true := by
  have op_eq : opField w = BitVec.ofNat 4 (opField w).toNat := by simp
  have reserved := reservedWord_fields w
  have small : (opField w).toNat < 16 := (opField w).isLt
  unfold decodeCmd at decoded
  generalize (opField w).toNat = op at op_eq small decoded
  rw [op_eq] at reserved
  have kinds : op = 4 ∨ op ∈ [0, 9, 10, 11, 12, 13, 14, 15] ∨ op ∈ [1, 2, 3, 5, 6, 7, 8] := by
    interval_cases op <;> decide
  obtain rfl | reserved_code | plain := kinds
  · simp only at decoded
    split at decoded
    · cases decoded
    · next zero =>
      obtain rfl := Except.ok.inj decoded
      have word := commandWord_fields (not_not.1 zero)
      rw [op_eq] at word
      exact ⟨congrArg _ word, rfl⟩
  · fin_cases reserved_code
    all_goals
      obtain rfl := Except.ok.inj decoded
      exact ⟨congrArg _ reserved, rfl⟩
  · fin_cases plain
    all_goals
      obtain ⟨rfl, word⟩ := eq_of_plainCommand decoded
      rw [op_eq] at word
      exact ⟨congrArg _ word, rfl⟩

theorem encode_decodeCtrl (c : Codec) (b : Byte) :
    encode c (decodeCtrl c b) = .ctrl c b ∧ (decodeCtrl c b).wellFormed c = true := by
  have widx_eq : widxField b = BitVec.ofNat 4 (widxField b).toNat := by simp
  have byte := ctrlByte_fields b
  have small : (widxField b).toNat < 16 := (widxField b).isLt
  unfold decodeCtrl
  generalize (widxField b).toNat = widx at widx_eq small ⊢
  rw [widx_eq] at byte
  obtain rfl | below : widx = 15 ∨ widx < 15 := by omega
  · cases c <;> exact ⟨congrArg _ byte, rfl⟩
  · interval_cases widx <;> exact ⟨congrArg _ byte, rfl⟩

/-- Settles O2: what decodes has its fields from the word, and the fields make up the word. -/
theorem encodeOfDecodeIsTheWord : Obligations.EncodeOfDecodeIsTheWord :=
  ⟨fun c _ _ decoded => encode_of_decodeCmd c decoded, encode_decodeCtrl⟩

/-! ### Samples and tables -/

/-- Settles O3: each word is decoded by evaluation. -/
theorem sampleWordsDecode : Obligations.SampleWordsDecode := by
  unfold Obligations.SampleWordsDecode
  decide

theorem ctrlP_partitionLength : ∀ pidx : BitVec 4, ctrlP (partitionLength pidx) = pidx := by decide

/-- R35: the nibble of a width selects that width. -/
theorem nibbleWidth_ctrlW (c : Codec) : ∀ w ∈ wset c, nibbleWidth c (ctrlW c w) = some w := by cases c <;> decide

/-- R97: codec-32 has no sixteenth width. -/
theorem nibbleWidth_eq_none_iff_c32 : ∀ widx : BitVec 4, nibbleWidth .c32 widx = none ↔ widx = 0xF#4 := by decide

theorem nibbleWidth_ne_none_c64 : ∀ widx : BitVec 4, nibbleWidth .c64 widx ≠ none := by decide

/-- R36: a group is a whole number of bytes. -/
theorem group_bits : ∀ w ∈ wset .c64, (group w).1 * 8 = (group w).2 * w := by decide

/-- Settles O4: the tables are finite, and each clause is one of the facts above. -/
theorem controlByteTablesAgree : Obligations.ControlByteTablesAgree :=
  ⟨ctrlP_partitionLength, partitionLength_ctrlP, nibbleWidth_ctrlW, nibbleWidth_eq_none_iff_c32, nibbleWidth_ne_none_c64,
    group_bits⟩

end Sys2Proof.Machine
end

section
/-! The host's side: register and data-space access (20_memory.md R63, R72, 45_control.md R264), `STATUS` (10_state.md R30), and
reset (R43, 70_reset_and_hazards.md R320). -/

namespace Sys2Proof.Machine

variable {s : State} {rest : List HostMove}

/-! ### Registers -/

theorem step_writeReg_of_idle {slot : Nat} {v : BitVec 64} (host : s.host = .writeReg slot v :: rest)
    (idle : s.phase = .idle) : step s = .next (writeIdleRegister slot v { s with host := rest }) := by
  rw [step_writeReg host, writeRegister_of_idle (s := { s with host := rest }) idle]

/-- `STATUS`, `RESULT` and the reserved slots ignore a write (R264, R72). -/
theorem writeIdleRegister_ignored {slot : Nat} (ignored : slot = 1 ∨ 9 ≤ slot) (v : BitVec 64) (s : State) :
    writeIdleRegister slot v s = s := by
  rcases ignored with rfl | high
  · rfl
  · obtain ⟨k, rfl⟩ := Nat.exists_eq_add_of_le' high
    rfl

theorem step_readReg {slot : Nat} (host : s.host = .readReg slot :: rest) :
    step s = .next (readRegister slot { s with host := rest }) := by
  simp [step, host, hostStep]

/-- The registers in the order of their slots; from slot 10 up all reads are zero (R72). -/
theorem regValue_eq_getD (slot : Nat) (s : State) :
    regValue slot s = [s.cmd.setWidth 64, (statusWord s).setWidth 64, s.eptr, s.elim, s.bptr, s.blim, s.n,
      s.w.setWidth 64, s.pcnt.setWidth 64, s.result].getD slot 0 := by
  by_cases reserved : 10 ≤ slot
  · obtain ⟨k, rfl⟩ := Nat.exists_eq_add_of_le' reserved
    rfl
  · interval_cases slot <;> rfl

/-- A read of a register that is not `PCNT` or `RESULT`, or of any register while IDLE (R264). -/
theorem readRegister_determined {slot : Nat} (h : s.phase = .idle ∨ (slot ≠ 8 ∧ slot ≠ 9)) :
    readRegister slot s = { s with hostData := regValue slot s } := by
  have settled : ¬ (busy s ∧ slot = 8) ∧ ¬ (busy s ∧ slot = 9) := by
    rcases h with idle | ⟨not8, not9⟩
    · simp [(busy_eq_false s).2 idle]
    · simp [not8, not9]
  rw [readRegister, if_neg settled.1, if_neg settled.2]

/-- `PCNT` and `RESULT` while BUSY: a value of the register's width (R264, U13). -/
theorem readRegister_of_busy {slot : Nat} (running : s.phase ≠ .idle) (h : slot = 8 ∨ slot = 9) :
    ∃ x : BitVec 64, (slot = 8 → x.toNat < 2 ^ 17) ∧
      readRegister slot s = { s with hostData := x, fresh := s.fresh + 1 } := by
  have engine_busy : busy s = true := by simpa using mt (busy_eq_false s).1 running
  rcases h with rfl | rfl
  · refine ⟨((Config.freeRead s.fresh).setWidth 17).setWidth 64, fun _ => ?_, by simp [readRegister, engine_busy]⟩
    have := ((Config.freeRead s.fresh).setWidth 17).isLt
    rw [BitVec.toNat_setWidth]
    omega
  · exact ⟨Config.freeRead s.fresh, by simp, by simp [readRegister, engine_busy]⟩

/-- Settles O9: the writes and the reads of the host's turn, in both phases. -/
theorem hostRegisterAccess : Obligations.HostRegisterAccess := by
  intro s rest slot v
  refine ⟨fun idle host => ?_, fun running host => step_writeReg_of_busy host running, fun host h => ?_,
    fun host running h => ?_⟩
  · rw [step_writeReg_of_idle host idle]
    refine ⟨?_, ?_, ?_, ?_, ?_, ?_, ?_, fun ignored => by rw [writeIdleRegister_ignored ignored]⟩ <;>
      · rintro rfl
        rfl
  · rw [step_readReg host, readRegister_determined (s := { s with host := rest }) h, regValue_eq_getD]
    rfl
  · rw [step_readReg host]
    obtain ⟨x, width, read⟩ := readRegister_of_busy (s := { s with host := rest }) running h
    exact ⟨x, width, by rw [read]⟩

/-! ### `STATUS` -/

/-- R30: the word made of an error code and the two flags has each of them in its place, and zeros elsewhere. -/
theorem statusFields (code : BitVec 4) (done busy : Bool) :
    let word : BitVec 32 := 0#24 ++ code ++ 0#2 ++ BitVec.ofBool done ++ BitVec.ofBool busy
    word.getLsbD 0 = busy ∧ word.getLsbD 1 = done ∧ word.extractLsb' 2 2 = 0 ∧ word.extractLsb' 4 4 = code ∧
      word.extractLsb' 8 24 = 0 := by
  refine ⟨?_, ?_, ?_, ?_, ?_⟩
  · simp only [BitVec.getLsbD_append]
    simp
  · simp only [BitVec.getLsbD_append]
    simp
  · exact (BitVec.extractLsb'_append_eq_of_le (by decide)).trans ((BitVec.extractLsb'_append_eq_of_le (by decide)).trans
      BitVec.extractLsb'_append_eq_right)
  · exact (BitVec.extractLsb'_append_eq_of_le (by decide)).trans ((BitVec.extractLsb'_append_eq_of_le (by decide)).trans
      ((BitVec.extractLsb'_append_eq_of_le (by decide)).trans BitVec.extractLsb'_append_eq_right))
  · exact (BitVec.extractLsb'_append_eq_of_le (by decide)).trans ((BitVec.extractLsb'_append_eq_of_le (by decide)).trans
      ((BitVec.extractLsb'_append_eq_of_le (by decide)).trans BitVec.extractLsb'_append_eq_left))

/-- Settles O10: the word is its fields, and each error has its code. -/
theorem statusWordFields : Obligations.StatusWordFields := by
  intro s
  obtain ⟨busy_bit, done_bit, low_zero, code, high_zero⟩ := statusFields (errCode s.err) s.done (busy s)
  refine ⟨?_, done_bit, low_zero, ?_, high_zero⟩
  · rw [statusWord, busy_bit, ← not_iff_not, Bool.not_eq_true, busy_eq_false, not_not]
  · rw [statusWord, code]
    cases s.err <;> rfl

/-! ### Data spaces -/

theorem step_hostMove {m : HostMove} (host : s.host = m :: rest) (turn : m ≠ .wait) :
    step s = hostStep m { s with host := rest } := by
  obtain ⟨none, -⟩ | ⟨rest', wait, -⟩ | ⟨m', rest', moves, -, stepped⟩ := step_cases s
  · simp [none] at host
  · exact absurd (List.cons.inj (host.symm.trans wait)).1 turn
  · obtain ⟨rfl, rfl⟩ := List.cons.inj (host.symm.trans moves)
    exact stepped

theorem dataAccess_of_idle {i size : Nat} {t : State} (idle : s.phase = .idle) (exists_cell : i < size) :
    dataAccess i size s t = .next t :=
  (dataAccess_eq_next i size s t t).2 ⟨(busy_eq_false s).2 idle, exists_cell, rfl⟩

/-- A cell that does not exist (R60, log entry 10). -/
theorem dataAccess_no_cell {i size : Nat} {t : State} (idle : s.phase = .idle) (beyond : size ≤ i) :
    dataAccess i size s t = .fault .noSuchCell := by
  simp [dataAccess, (busy_eq_false s).2 idle, Nat.not_lt.2 beyond]

/-- No access while BUSY (R63, log entry 9). -/
theorem dataAccess_of_busy {i size : Nat} {t : State} (running : s.phase ≠ .idle) :
    dataAccess i size s t = .refused .hostDataWhileBusy := by
  have engine_busy : busy s = true := by simpa using mt (busy_eq_false s).1 running
  rw [dataAccess, if_pos engine_busy]

/-- A write of one cell. -/
theorem readCell_writeCells_single {w : Nat} (m : Mem w) (i : Nat) (v : BitVec w) :
    readCell (writeCells m i [v]) i = v ∧ ∀ x, x ≠ i → readCell (writeCells m i [v]) x = readCell m x := by
  refine ⟨readCell_writeCells_inside m i [v] 0 (by simp), fun x hx => readCell_writeCells_outside m i [v] x ?_⟩
  simp only [List.length_singleton]
  omega

/-- Settles O11: a data-space access is one of the three answers above, and a write is of one cell. -/
theorem hostDataAccess : Obligations.HostDataAccess := by
  intro s rest i ve vp vb
  refine ⟨fun idle h host => ?_, fun idle h host => ?_, fun idle h host => ?_, fun idle h host => ?_, fun idle h host => ?_,
    fun idle h host => ?_, fun idle h => ?_, fun running h => ?_⟩
  · obtain ⟨same, other⟩ := readCell_writeCells_single s.e i ve
    refine ⟨_, (step_hostMove host (by simp)).trans (dataAccess_of_idle idle h), rfl, same, fun x hx => other x (by omega)⟩
  · obtain ⟨same, other⟩ := readCell_writeCells_single s.b i vb
    refine ⟨_, (step_hostMove host (by simp)).trans (dataAccess_of_idle idle h), rfl, same, fun x hx => other x (by omega)⟩
  · obtain ⟨same, other⟩ := readCell_writeCells_single s.p i (vp.setWidth 17)
    exact ⟨_, (step_hostMove host (by simp)).trans (dataAccess_of_idle idle h), rfl, same, other⟩
  · exact (step_hostMove host (by simp)).trans (dataAccess_of_idle idle h)
  · exact (step_hostMove host (by simp)).trans (dataAccess_of_idle idle h)
  · exact (step_hostMove host (by simp)).trans (dataAccess_of_idle idle h)
  · rcases h with ⟨h, host | host⟩ | ⟨h, host | host⟩ | ⟨h, host | host⟩ <;>
      exact (step_hostMove host (by simp)).trans (dataAccess_no_cell idle h)
  · rcases h with host | host | host | host | host | host <;>
      exact (step_hostMove host (by simp)).trans (dataAccess_of_busy running)

/-! ### Reset -/

theorem step_reset (host : s.host = .reset :: rest) : step s = .next (hostReset { s with host := rest }) :=
  step_hostMove host (by simp)

theorem statusWord_hostReset (s : State) : statusWord (hostReset s) = 0 := by
  simp [statusWord, busy, hostReset, State.reset, errCode]

/-- Settles O12: the host's reset takes its registers from `State.reset`, and its own fields from before. -/
theorem resetClearsTheRegisters : Obligations.ResetClearsTheRegisters :=
  ⟨⟨rfl, rfl, by decide, rfl, rfl, rfl, rfl, rfl, rfl, rfl, rfl⟩, fun _ _ host =>
    ⟨_, step_reset host, rfl, rfl, statusWord_hostReset _, rfl, rfl, rfl, rfl, rfl, rfl, rfl, rfl, rfl, rfl, rfl⟩⟩

/-- Settles O13: nothing is listed and the engine is IDLE. -/
theorem resetSatisfiesTheInvariant : Obligations.ResetSatisfiesTheInvariant :=
  ⟨⟨wfMem_nil, by simp [State.reset]⟩, ⟨wfMem_nil, by simp [State.reset]⟩, ⟨wfMem_nil, by simp [State.reset]⟩,
    fun running => absurd rfl running, by simp [State.reset], by decide⟩

end Sys2Proof.Machine
end

section
/-! What an instruction can do: every meaning answers a next state (45_control.md R262), which is the report of an error or the
outcome of its command. The sixteen unpackers are one meaning with a width, and the two decoders begin a block. -/

namespace Sys2Proof.Machine

/-! ### Kinds of instructions -/

/-- The width and the length code of a control byte that has an unpacker (R95). -/
def unpackerOf (i : Instr) : Option (Nat × BitVec 4) :=
  match i with
  | .unpack0 p => some (0, p)
  | .unpack1 p => some (1, p)
  | .unpack2 p => some (2, p)
  | .unpack3 p => some (3, p)
  | .unpack4 p => some (4, p)
  | .unpack5 p => some (5, p)
  | .unpack6 p => some (6, p)
  | .unpack7 p => some (7, p)
  | .unpack8 p => some (8, p)
  | .unpack9 p => some (9, p)
  | .unpack10 p => some (10, p)
  | .unpack11 p => some (11, p)
  | .unpack12 p => some (12, p)
  | .unpack16 p => some (16, p)
  | .unpack32 p => some (32, p)
  | .unpack64 p => some (64, p)
  | _ => none

theorem exec_of_unpackerOf {i : Instr} {w : Nat} {p : BitVec 4} (unpacker : unpackerOf i = some (w, p)) (s : State) :
    exec i s = unpackPartition w p s := by
  cases i <;> cases unpacker <;> rfl

/-- A control byte (R94), as opposed to a command (R92). -/
def isCtrl (i : Instr) : Bool :=
  match i with
  | .ctrlInvalid _ => true
  | i => (unpackerOf i).isSome

theorem isCtrl_of_unpackerOf {i : Instr} {x : Nat × BitVec 4} (unpacker : unpackerOf i = some x) : isCtrl i = true := by
  cases i <;> cases unpacker <;> rfl

/-- Where an error of the instruction may write (R290, R291). -/
def errorDest (i : Instr) : Dest :=
  match i with
  | .encblk _ pext => .bytes !pext
  | .encfrm _ => .bytes true
  | .decblk _ | .decfrm _ => .elems
  | i => if isCtrl i then .elems else .unchanged

theorem errorDest_of_unpackerOf {i : Instr} {x : Nat × BitVec 4} (unpacker : unpackerOf i = some x) :
    errorDest i = .elems := by
  cases i <;> cases unpacker <;> rfl

/-! ### The checks of the commands -/

section
variable {c : Codec} {pext : Bool} {s : State}

theorem packError_eq_ok :
    packError c s = .ok ↔ (elemWindowOk s ∧ byteWindowOk s ∧ 1 ≤ opN s ∧ opN s ≤ maxPartition ∧ opW s ≤ elemWidth c ∧
      opEptr s + opN s ≤ opElim s) ∧ opBptr s + runBytes (opN s) (opW s) ≤ opBlim s := by
  rw [packError, firstError_eq_ok _ (by simp)]
  simp [and_assoc]

theorem unpackError_eq_ok :
    unpackError c s = .ok ↔ (elemWindowOk s ∧ byteWindowOk s ∧ opW s ∈ wset c ∧ 1 ≤ opN s ∧ opN s ≤ maxPartition) ∧
      opBptr s + runBytes (opN s) (opW s) ≤ opBlim s ∧ opEptr s + opN s ≤ opElim s := by
  rw [unpackError, firstError_eq_ok _ (by simp)]
  simp [and_assoc]

theorem partitionError_eq_ok :
    partitionError s = .ok ↔
      elemWindowOk s ∧ 1 ≤ opN s ∧ opN s ≤ blockMax - overrun ∧ opEptr s + opN s ≤ opElim s := by
  rw [partitionError, firstError_eq_ok _ (by simp)]
  simp [and_assoc]

/-- PARTITION has no other error (R190). -/
theorem partitionError_eq_arg (failed : partitionError s ≠ .ok) : partitionError s = .arg := by
  obtain ⟨x, mem, -, source⟩ := firstError_mem _ failed
  rw [partitionError, ← source]
  revert x
  simp

theorem encblkError_eq_ok :
    encblkError c pext s = .ok ↔ (elemWindowOk s ∧ byteWindowOk s ∧ opEptr s + opN s ≤ opElim s) ∧
      EncblkChecked pext s ∧ opBptr s + (encblkBlock c pext s).size ≤ opBlim s := by
  have checked : EncblkChecked pext s ↔ (1 ≤ opN s ∧ opN s ≤ blockMax) ∧
      ((pext = false ∨ opN s < rawThreshold) ∨ validParts (hostParts s) (opN s - overrun) = true) := by
    refine ⟨fun ⟨pos, le_blockMax, table⟩ => ⟨⟨pos, le_blockMax⟩, ?_⟩, fun ⟨⟨pos, le_blockMax⟩, table⟩ =>
      ⟨pos, le_blockMax, fun pext_set long => ?_⟩⟩
    · by_cases own_table : pext = false ∨ opN s < rawThreshold
      · exact .inl own_table
      · rw [not_or, Bool.not_eq_false] at own_table
        exact .inr (table own_table.1 (Nat.le_of_not_lt own_table.2))
    · simpa [pext_set, Nat.not_lt.2 long] using table
  rw [encblkError, firstError_eq_ok _ (by simp), checked]
  simp only [List.forall_mem_cons, decide_eq_true_eq, Bool.or_eq_true, Bool.not_eq_true']
  exact ⟨fun ⟨elems, bytes, count, inside, table, fits, _⟩ => ⟨⟨elems, bytes, inside⟩, ⟨count, table⟩, fits⟩,
    fun ⟨⟨elems, bytes, inside⟩, ⟨count, table⟩, fits⟩ =>
      ⟨elems, bytes, count, inside, table, fits, List.forall_mem_nil _⟩⟩

theorem decblkError_eq_ok :
    decblkError s = .ok ↔
      (elemWindowOk s ∧ byteWindowOk s ∧ 1 ≤ opN s ∧ opN s ≤ blockMax) ∧ opEptr s + opN s ≤ opElim s := by
  rw [decblkError, firstError_eq_ok _ (by simp)]
  simp [and_assoc]

theorem decfrmError_eq_ok :
    decfrmError c s = .ok ↔ (elemWindowOk s ∧ byteWindowOk s ∧ opEptr s + opN s ≤ opElim s ∧ opBptr s + 8 ≤ opBlim s) ∧
      memRead s.b (opBptr s) 8 = magicNumber c := by
  rw [decfrmError, firstError_eq_ok _ (by simp)]
  simp [and_assoc]

/-- An error that may write shows that the windows were in order, which are checked first (R261, R292). -/
theorem windows_of_firstError {rest : List (Bool × Err)}
    (writes : leavesMemory (firstError
      ((decide (elemWindowOk s), .arg) :: (decide (byteWindowOk s), .arg) :: rest)) = false) :
    elemWindowOk s ∧ byteWindowOk s := by
  by_cases elem_window : elemWindowOk s
  · by_cases byte_window : byteWindowOk s
    · exact ⟨elem_window, byte_window⟩
    · rw [decide_eq_true elem_window, decide_eq_false byte_window, firstError_cons_true, firstError_cons_false] at writes
      cases writes
  · rw [decide_eq_false elem_window, firstError_cons_false] at writes
    cases writes

end

/-! ### What an instruction answers -/

/-- A decode of the latched command is at byte `a` and cell `e0` of its windows, with `rem` elements to come (R217, R242). -/
structure DecodeAt (a e0 rem : Nat) (s : State) : Prop where
  elem_window : elemWindowOk s
  byte_window : byteWindowOk s
  first_byte : opBptr s ≤ a
  first_elem : opEptr s ≤ e0
  count : e0 + rem = opEptr s + opN s
  room : opEptr s + opN s ≤ opElim s

/-- `t` is what instruction `i` makes of `s`. -/
inductive Executed (s : State) : Instr → State → Prop where
  | failed {i : Instr} {e : Err} (error : e ≠ .ok)
      (windows : leavesMemory e = false → isCtrl i = false → elemWindowOk s ∧ byteWindowOk s) :
      Executed s i (raise (errorDest i) e s)
  | pack {c : Codec} (ok : packError c s = .ok) :
      Executed s (.pack c) (complete (runBytes (opN s) (opW s))
        { s with
          b := writeCells s.b (opBptr s) (packBits (sourceElems c s) (opW s))
          work := workAfterRun c (sourceElems c s) (opW s) s.work })
  | unpack {c : Codec} (ok : unpackError c s = .ok) :
      Executed s (.unpack c)
        (complete (runBytes (opN s) (opW s)) (unpackCells (opW s) (opN s) (opBptr s) (opEptr s) (opElim s) s))
  | partition {c : Codec} (ok : partitionError s = .ok) :
      Executed s (.partition c) (complete ((computePartition c (sourceElems c s)).length - 1)
        { storeParts (computePartition c (sourceElems c s)) s with work := workAfterPlan c (sourceElems c s) s.work })
  | encblk {c : Codec} {pext : Bool} (ok : encblkError c pext s = .ok) :
      Executed s (.encblk c pext) (complete (encblkBlock c pext s).size
        { storeBlockParts pext (encblkBlock c pext s).parts s with
          b := writeCells s.b (opBptr s) (encblkBlock c pext s).bytes
          work := (encblkBlock c pext s).work })
  | encfrm {c : Codec} (ok : encfrmError c s = .ok) :
      Executed s (.encfrm c) (complete (streamOf c s).1.length
        { (if (streamOf c s).2.1 then havocParts s else s) with
          b := writeCells s.b (opBptr s) (streamOf c s).1
          work := (streamOf c s).2.2 })
  | bound {c : Codec} : Executed s (.bound c) (complete (boundOf c (opN s)) s)
  | decode {i : Instr} {c : Codec} {a : Nat} (decoder : i = .decblk c ∨ i = .decfrm c)
      (start : DecodeAt a (opEptr s) (opN s) s) : Executed s i (beginBlock c a (opEptr s) (opN s) s)
  | unpacker {i : Instr} {w : Nat} {p : BitVec 4} (unpacker : unpackerOf i = some (w, p)) (ok : ctrlError w p s = .ok) :
      Executed s i
        { unpackCells w (partitionLength p) s.cur.byte s.cur.elem s.cur.dlimit s with
          cur := nextPartition w (partitionLength p) s.cur }

/-- A meaning that runs its command where the checks hold, and else reports their error. -/
theorem executed_of_checks {i : Instr} {s t : State} {e : Err} (run : e = .ok → Executed s i t)
    (windows : e ≠ .ok → leavesMemory e = false → isCtrl i = false → elemWindowOk s ∧ byteWindowOk s)
    (meaning : exec i s = if e = .ok then .next t else .next (raise (errorDest i) e s)) :
    ∃ t, exec i s = .next t ∧ Executed s i t := by
  by_cases ok : e = .ok
  · exact ⟨t, by rw [meaning, if_pos ok], run ok⟩
  · exact ⟨_, by rw [meaning, if_neg ok], .failed ok (windows ok)⟩

theorem executed_of_unpackerOf {i : Instr} {w : Nat} {p : BitVec 4} (unpacker : unpackerOf i = some (w, p)) (s : State) :
    ∃ t, exec i s = .next t ∧ Executed s i t :=
  executed_of_checks (.unpacker unpacker) (fun _ _ command => by simp [isCtrl_of_unpackerOf unpacker] at command)
    (by rw [exec_of_unpackerOf unpacker, errorDest_of_unpackerOf unpacker]; rfl)

theorem executed_of_report {i : Instr} {s : State} {e : Err} (meaning : exec i s = .next (raise (errorDest i) e s))
    (error : e ≠ .ok) (harmless : leavesMemory e = true ∨ isCtrl i = true) : ∃ t, exec i s = .next t ∧ Executed s i t :=
  ⟨_, meaning, .failed error fun writes command => by simp [writes, command] at harmless⟩

/-- R262: every instruction answers a next state, which is one of the cases of `Executed`. -/
theorem exists_executed (i : Instr) (s : State) : ∃ t, exec i s = .next t ∧ Executed s i t := by
  cases i with
  | pack c => exact executed_of_checks .pack (fun _ writes _ => windows_of_firstError writes) rfl
  | unpack c => exact executed_of_checks .unpack (fun _ writes _ => windows_of_firstError writes) rfl
  | partition c =>
    exact executed_of_checks .partition
      (fun failed writes _ => by simp [partitionError_eq_arg failed, leavesMemory] at writes) rfl
  | encblk c pext => exact executed_of_checks .encblk (fun _ writes _ => windows_of_firstError writes) rfl
  | decblk c =>
    refine executed_of_checks (fun ok => .decode (.inl rfl) ?_) (fun _ writes _ => windows_of_firstError writes) rfl
    obtain ⟨⟨elem_window, byte_window, -, -⟩, room⟩ := decblkError_eq_ok.1 ok
    exact ⟨elem_window, byte_window, le_rfl, le_rfl, rfl, room⟩
  | encfrm c => exact executed_of_checks .encfrm (fun _ writes _ => windows_of_firstError writes) rfl
  | decfrm c =>
    refine executed_of_checks (fun ok => .decode (.inr rfl) ?_) (fun _ writes _ => windows_of_firstError writes) rfl
    obtain ⟨⟨elem_window, byte_window, room, -⟩, -⟩ := decfrmError_eq_ok.1 ok
    exact ⟨elem_window, byte_window, Nat.le_add_right _ _, le_rfl, rfl, room⟩
  | bound c =>
    by_cases fits : boundOf c (opN s) < 2 ^ 64
    · exact ⟨_, if_pos fits, .bound⟩
    · exact executed_of_report (if_neg fits) (by decide) (.inl rfl)
  | reservedOp0 r | reservedOp9 r | reservedOpA r | reservedOpB r | reservedOpC r | reservedOpD r | reservedOpE r
  | reservedOpF r => exact executed_of_report (e := .illcmd) rfl (by decide) (.inl rfl)
  | ctrlInvalid p => exact executed_of_report (e := .ctrl) rfl (by decide) (.inr rfl)
  | unpack0 p | unpack1 p | unpack2 p | unpack3 p | unpack4 p | unpack5 p | unpack6 p | unpack7 p | unpack8 p | unpack9 p
  | unpack10 p | unpack11 p | unpack12 p | unpack16 p | unpack32 p | unpack64 p => exact executed_of_unpackerOf rfl s

theorem executed_of_exec {i : Instr} {s t : State} (h : exec i s = .next t) : Executed s i t := by
  obtain ⟨t', answered, executed⟩ := exists_executed i s
  obtain rfl : t' = t := by simpa [answered] using h
  exact executed

/-- Settles O17. -/
theorem noInstructionStops : Obligations.NoInstructionStops := fun i s =>
  let ⟨t, answered, _⟩ := exists_executed i s
  ⟨t, answered⟩

end Sys2Proof.Machine
end

section
/-! The engine's turn (20_memory.md R77, 43_block.md R219, 45_control.md R265, 70_reset_and_hazards.md R321): what runs in each
phase, and what no turn of the engine writes (10_state.md R21, 60_exceptions.md R290, R291). -/

namespace Sys2Proof.Machine

/-! ### What runs -/

section
variable {s : State}

theorem step_of_no_move (host : s.host = []) : step s = engineStep s := by simp [step, host]

theorem engineStep_of_turn {i : Instr} (turn : engineTurn s = .instr i) : engineStep s = exec i s := by
  rw [engineStep, turn]

theorem engineStep_idle (phase : s.phase = .idle) : engineStep s = .next s := by
  simp [engineStep, engineTurn, fetch, phase]

theorem engineStep_command {i : Instr} (phase : s.phase = .command) (decoded : decodeCmd s.latch.cmd = .ok i) :
    engineStep s = exec i s := by
  simp [engineStep, engineTurn, fetch, phase, decode, decoded]

theorem engineStep_illegal {x : DecodeError} (phase : s.phase = .command) (illegal : decodeCmd s.latch.cmd = .error x) :
    engineStep s = .next (illegalCommand s) := by
  simp [engineStep, engineTurn, fetch, phase, decode, illegal]

/-- The control byte at the cursors. -/
abbrev ctrlInstr (s : State) : Instr := decodeCtrl s.cur.codec (readCell s.b (ctrlAddress s.cur))

theorem engineStep_control (phase : s.phase = .control) (more : s.cur.idx < s.cur.parts) :
    engineStep s = exec (ctrlInstr s) s := by
  simp [engineStep, engineTurn, fetch, phase, decode, more]

theorem engineStep_blockEnd (phase : s.phase = .control) (used_up : s.cur.parts ≤ s.cur.idx) :
    engineStep s = .next (finishBlock s) := by
  simp [engineStep, engineTurn, fetch, phase, Nat.not_lt.2 used_up]

end

/-- R265, R290 case (a): the report of an illegal word. -/
theorem illegalCommand_eq_errorReport (s : State) : illegalCommand s = errorReport .illcmd s := illegalCommand_eq_finish s

/-- Settles O6: each reserved code has the meaning of an illegal word. -/
theorem reservedCodesReportOnly : Obligations.ReservedCodesReportOnly := by
  intro r s i hi
  rw [← illegalCommand_eq_errorReport]
  fin_cases hi <;> rfl

/-- Settles O7: the turn of each phase, with no host move pending or behind `wait`. -/
theorem stepRunsTheDecodedInstruction : Obligations.StepRunsTheDecodedInstruction :=
  ⟨fun _ _ host phase decoded => (step_of_no_move host).trans (engineStep_command phase decoded),
   fun _ host phase more => (step_of_no_move host).trans (engineStep_control phase more),
   fun s _ host phase illegal => by
     rw [step_of_no_move host, engineStep_illegal phase illegal, illegalCommand_eq_errorReport],
   fun _ host phase => (step_of_no_move host).trans (engineStep_idle phase),
   fun s rest host =>
    have turn : step s = engineStep { s with host := rest } := by simp [step, host]
    ⟨turn, fun idle => turn.trans (engineStep_idle (s := { s with host := rest }) idle)⟩⟩

/-- `t` is what a turn of the engine makes of `s`. -/
inductive Turned (s t : State) : Prop where
  | idle (phase : s.phase = .idle) (same : t = s)
  | command {i : Instr} (phase : s.phase = .command) (decoded : decodeCmd s.latch.cmd = .ok i) (executed : Executed s i t)
  | illegal (phase : s.phase = .command) (reported : t = illegalCommand s)
  | control (phase : s.phase = .control) (more : s.cur.idx < s.cur.parts) (executed : Executed s (ctrlInstr s) t)
  | blockEnd (phase : s.phase = .control) (used_up : s.cur.parts ≤ s.cur.idx) (finished : t = finishBlock s)

/-- R262: the engine always answers. -/
theorem exists_turned (s : State) : ∃ t, engineStep s = .next t ∧ Turned s t := by
  cases phase : s.phase with
  | idle => exact ⟨s, engineStep_idle phase, .idle phase rfl⟩
  | command =>
    cases decoded : decodeCmd s.latch.cmd with
    | ok i =>
      obtain ⟨t, answered, executed⟩ := exists_executed i s
      exact ⟨t, (engineStep_command phase decoded).trans answered, .command phase decoded executed⟩
    | error x => exact ⟨_, engineStep_illegal phase decoded, .illegal phase rfl⟩
  | control =>
    by_cases more : s.cur.idx < s.cur.parts
    · obtain ⟨t, answered, executed⟩ := exists_executed (ctrlInstr s) s
      exact ⟨t, (engineStep_control phase more).trans answered, .control phase more executed⟩
    · exact ⟨_, engineStep_blockEnd phase (by omega), .blockEnd phase (by omega) rfl⟩

theorem turned_of_engineStep {s t : State} (h : engineStep s = .next t) : Turned s t := by
  obtain ⟨t', answered, turned⟩ := exists_turned s
  obtain rfl : t' = t := by simpa [answered] using h
  exact turned

/-! ### Registers -/

/-- What is written by no part of a turn of the engine keeps the registers. -/
theorem registersKept_of_eq {s t : State}
    (h : t = { s with
      phase := t.phase, done := t.done, err := t.err, pcnt := t.pcnt, result := t.result, e := t.e, b := t.b, p := t.p
      cur := t.cur, work := t.work, fresh := t.fresh }) : registersKept s t := by
  rw [h]
  exact ⟨rfl, rfl, rfl, rfl, rfl, rfl, rfl, rfl, rfl, rfl, rfl, rfl⟩

theorem registersKept_raise (d : Dest) (e : Err) (s : State) : registersKept s (raise d e s) := by
  simp [registersKept]

theorem registersKept_beginBlock (c : Codec) (a e0 rem : Nat) (s : State) :
    registersKept s (beginBlock c a e0 rem s) := by
  obtain ⟨-, eq⟩ | ⟨-, -, -, eq⟩ | ⟨-, -, -, eq⟩ | ⟨-, -, eq⟩ | ⟨-, -, eq⟩ := beginBlock_cases c a e0 rem s <;> rw [eq]
  · exact registersKept_of_eq rfl
  · exact registersKept_of_eq rfl
  · exact registersKept_raise _ _ _
  · exact registersKept_of_eq rfl
  · exact registersKept_raise _ _ _

theorem registersKept_finishBlock (s : State) : registersKept s (finishBlock s) := by
  obtain ⟨-, eq⟩ | ⟨-, eq⟩ := finishBlock_cases s
  · rw [eq]
    exact registersKept_beginBlock _ _ _ _ (decodeRaw _ _ _ _ s)
  · rw [eq]
    exact registersKept_raise _ _ _

theorem Executed.registersKept {i : Instr} {s t : State} (h : Executed s i t) : registersKept s t := by
  cases h with
  | failed => exact registersKept_raise _ _ _
  | pack | unpack | partition | bound | unpacker => exact registersKept_of_eq rfl
  | @encblk c pext =>
    cases pext with
    | true => exact registersKept_of_eq rfl
    | false => cases encblkBlock c false s |>.parts <;> exact registersKept_of_eq rfl
  | @encfrm c => cases (streamOf c s).2.1 <;> exact registersKept_of_eq rfl
  | decode => exact registersKept_beginBlock _ _ _ _ _

theorem Turned.registersKept {s t : State} (h : Turned s t) : registersKept s t := by
  cases h with
  | idle _ same => exact same ▸ registersKept_of_eq rfl
  | command _ _ executed => exact executed.registersKept
  | illegal _ reported => exact reported ▸ registersKept_raise _ _ _
  | control _ _ executed => exact executed.registersKept
  | blockEnd _ _ finished => exact finished ▸ registersKept_finishBlock s

/-- Settles O16: neither an instruction nor another turn of the engine has a case that writes an operand. -/
theorem engineNeverWritesOperands : Obligations.EngineNeverWritesOperands :=
  ⟨fun _ _ _ h => (executed_of_exec h).registersKept, fun _ _ h => (turned_of_engineStep h).registersKept⟩

/-! ### The source space, P-space and `PCNT` -/

/-- A decode leaves B-space, P-space and `PCNT`, in whatever turn. -/
abbrev decodeSourceKept (s t : State) : Prop := t.b = s.b ∧ t.p = s.p ∧ t.pcnt = s.pcnt

theorem decodeSourceKept_beginBlock (c : Codec) (a e0 rem : Nat) (s : State) :
    decodeSourceKept s (beginBlock c a e0 rem s) := by
  obtain ⟨-, eq⟩ | ⟨-, -, -, eq⟩ | ⟨-, -, -, eq⟩ | ⟨-, -, eq⟩ | ⟨-, -, eq⟩ := beginBlock_cases c a e0 rem s <;> rw [eq]
  · exact ⟨rfl, rfl, rfl⟩
  · exact ⟨rfl, rfl, rfl⟩
  · exact raise_elems_kept _ s
  · exact ⟨rfl, rfl, rfl⟩
  · exact raise_elems_kept _ s

theorem decodeSourceKept_finishBlock (s : State) : decodeSourceKept s (finishBlock s) := by
  obtain ⟨-, eq⟩ | ⟨-, eq⟩ := finishBlock_cases s
  · rw [eq]
    exact decodeSourceKept_beginBlock _ _ _ _ (decodeRaw _ _ _ _ s)
  · rw [eq]
    exact raise_elems_kept _ s

theorem illegalCommand_kept (s : State) :
    (illegalCommand s).e = s.e ∧ (illegalCommand s).b = s.b ∧ (illegalCommand s).p = s.p ∧ (illegalCommand s).pcnt = s.pcnt := by
  rw [illegalCommand_eq_finish]
  exact ⟨rfl, rfl, rfl, rfl⟩

/-- The commands whose source is E-space, or that write neither space (R291). -/
def keepsElems (i : Instr) : Bool :=
  match i with
  | .pack _ | .partition _ | .encblk _ _ | .encfrm _ | .bound _ => true
  | _ => false

/-- The commands that write B-space (R291). -/
def writesBytes (i : Instr) : Bool :=
  match i with
  | .pack _ | .encblk _ _ | .encfrm _ => true
  | _ => false

/-- The commands that write P-space or `PCNT` (R21, R26). -/
def writesParts (i : Instr) : Bool :=
  match i with
  | .partition _ | .encfrm _ => true
  | .encblk _ pext => !pext
  | _ => false

theorem kinds_of_isCtrl {i : Instr} (ctrl : isCtrl i = true) :
    keepsElems i = false ∧ writesBytes i = false ∧ writesParts i = false := by
  cases i <;> cases ctrl <;> exact ⟨rfl, rfl, rfl⟩

/-- R95: in a block every byte is a control byte. -/
theorem isCtrl_decodeCtrl (c : Codec) (b : Byte) : isCtrl (decodeCtrl c b) = true := by
  have small : (widxField b).toNat < 16 := (widxField b).isLt
  unfold decodeCtrl
  generalize (widxField b).toNat = widx at small
  obtain rfl | below : widx = 15 ∨ widx < 15 := by omega
  · cases c <;> rfl
  · interval_cases widx <;> rfl

/-- What an error leaves, by its destination (R291). -/
theorem raise_kept (d : Dest) (e : Err) (s : State) :
    (d ≠ .elems → (raise d e s).e = s.e) ∧ ((∀ parts, d ≠ .bytes parts) → (raise d e s).b = s.b) ∧
      (d ≠ .bytes true → (raise d e s).p = s.p ∧ (raise d e s).pcnt = s.pcnt) := by
  cases d with
  | unchanged =>
    rw [raise_unchanged]
    exact ⟨fun _ => rfl, fun _ => rfl, fun _ => ⟨rfl, rfl⟩⟩
  | bytes parts =>
    refine ⟨fun _ => raise_bytes_kept parts e s, fun h => absurd rfl (h parts), fun h => ?_⟩
    obtain rfl : parts = false := by simpa using h
    exact raise_bytes_false_parts e s
  | elems =>
    obtain ⟨bytes, parts⟩ := raise_elems_kept e s
    exact ⟨fun h => absurd rfl h, fun _ => bytes, fun _ => parts⟩

theorem errorDest_ne_elems {i : Instr} (h : keepsElems i = true) : errorDest i ≠ .elems := by
  cases i <;> cases h <;> simp [errorDest, isCtrl, unpackerOf]

theorem errorDest_ne_bytes {i : Instr} (h : writesBytes i = false) (parts : Bool) : errorDest i ≠ .bytes parts := by
  cases i <;> cases h <;> simp [errorDest, isCtrl, unpackerOf]

theorem errorDest_ne_bytes_true {i : Instr} (h : writesParts i = false) : errorDest i ≠ .bytes true := by
  revert h
  cases i <;> simp [errorDest, isCtrl, unpackerOf, writesParts]

/-- R21, R291: an instruction leaves the spaces that are not for it to write. -/
theorem Executed.kept {i : Instr} {s t : State} (h : Executed s i t) :
    (keepsElems i = true → t.e = s.e) ∧ (writesBytes i = false → t.b = s.b) ∧
      (writesParts i = false → t.p = s.p ∧ t.pcnt = s.pcnt) := by
  cases h with
  | failed =>
    obtain ⟨elems, bytes, parts⟩ := raise_kept (errorDest i) _ s
    exact ⟨fun h => elems (errorDest_ne_elems h), fun h => bytes (errorDest_ne_bytes h),
      fun h => parts (errorDest_ne_bytes_true h)⟩
  | pack => exact ⟨fun _ => rfl, by simp [writesBytes], fun _ => ⟨rfl, rfl⟩⟩
  | unpack => exact ⟨by simp [keepsElems], fun _ => rfl, fun _ => ⟨rfl, rfl⟩⟩
  | partition => exact ⟨fun _ => rfl, fun _ => rfl, by simp [writesParts]⟩
  | @encblk c pext =>
    refine ⟨fun _ => ?_, by simp [writesBytes], fun own => ?_⟩
    · cases pext with
      | true => rfl
      | false => cases encblkBlock c false s |>.parts <;> rfl
    · obtain rfl : pext = true := by simpa [writesParts] using own
      exact ⟨rfl, rfl⟩
  | @encfrm c =>
    refine ⟨fun _ => ?_, by simp [writesBytes], by simp [writesParts]⟩
    cases (streamOf c s).2.1 <;> rfl
  | bound => exact ⟨fun _ => rfl, fun _ => rfl, fun _ => ⟨rfl, rfl⟩⟩
  | @decode i c a decoder =>
    obtain ⟨bytes_kept, parts_kept⟩ := decodeSourceKept_beginBlock c a (opEptr s) (opN s) s
    exact ⟨by rcases decoder with rfl | rfl <;> simp [keepsElems], fun _ => bytes_kept, fun _ => parts_kept⟩
  | unpacker unpacker =>
    obtain ⟨elems, -⟩ := kinds_of_isCtrl (isCtrl_of_unpackerOf unpacker)
    exact ⟨by simp [elems], fun _ => rfl, fun _ => ⟨rfl, rfl⟩⟩

theorem isCtrl_ctrlInstr (s : State) : isCtrl (ctrlInstr s) = true := isCtrl_decodeCtrl _ _

/-- No turn of a framed decode writes B-space, P-space or `PCNT` (R291). -/
theorem decodeSourceKept_of_control {s t : State} (phase : s.phase = .control) (h : engineStep s = .next t) :
    decodeSourceKept s t := by
  cases turned_of_engineStep h with
  | idle other | command other | illegal other => simp [phase] at other
  | control _ _ executed =>
    obtain ⟨-, no_bytes, no_parts⟩ := kinds_of_isCtrl (isCtrl_ctrlInstr s)
    obtain ⟨-, bytes, parts⟩ := executed.kept
    exact ⟨bytes no_bytes, parts no_parts⟩
  | blockEnd _ _ finished => exact finished ▸ decodeSourceKept_finishBlock s

/-- Settles O18: each command by its kind, and the turns of a decode and of an illegal word. -/
theorem sourceSpaceNeverWritten : Obligations.SourceSpaceNeverWritten := by
  refine ⟨fun i s t h => ?_, fun s t phase h => (decodeSourceKept_of_control phase h).1, fun s t x phase illegal h => ?_⟩
  · obtain ⟨elems, bytes, -⟩ := (executed_of_exec h).kept
    refine ⟨elems, fun source => bytes ?_⟩
    revert source
    cases i <;> simp [writesBytes]
  · obtain rfl : illegalCommand s = t := by simpa [engineStep_illegal phase illegal] using h
    obtain ⟨elems, bytes, -⟩ := illegalCommand_kept s
    exact ⟨elems, bytes⟩

/-- Settles O19: each command by its kind, and the turns of a decode and of an illegal word. -/
theorem onlyPartitionersWriteTheTable : Obligations.OnlyPartitionersWriteTheTable := by
  refine ⟨fun i s t h => (executed_of_exec h).kept.2.2, fun s t phase h => (decodeSourceKept_of_control phase h).2,
    fun s t x phase illegal h => ?_⟩
  obtain rfl : illegalCommand s = t := by simpa [engineStep_illegal phase illegal] using h
  exact (illegalCommand_kept s).2.2

end Sys2Proof.Machine
end

section
/-! The windows of a command (20_memory.md R62, 60_exceptions.md R290, R291): what the engine writes lies in them, in the turns of
a framed decode as well, and an error's free values lie in its destination. -/

namespace Sys2Proof.Machine

/-! ### Errors -/

theorem havocDest_kept_outside (d : Dest) (s : State) :
    bytesKeptOutside s (havocDest d s) (opBptr s) (opBlim s - opBptr s) ∧
      elemsKeptOutside s (havocDest d s) (opEptr s) (elemDestEnd s - opEptr s) := by
  cases d with
  | unchanged => exact ⟨fun _ _ => rfl, fun _ _ => rfl⟩
  | bytes parts =>
    cases parts <;>
      exact ⟨fun x hx => readCell_writeCells_outside _ _ _ _ (by rwa [length_freeBytes]), fun _ _ => rfl⟩
  | elems => exact ⟨fun _ _ => rfl, fun x hx => readCell_writeCells_outside _ _ _ _ (by rwa [length_freeElems])⟩

/-- R290, R291: an error changes no cell outside the destination of its command. -/
theorem raise_kept_outside (d : Dest) (e : Err) (s : State) :
    bytesKeptOutside s (raise d e s) (opBptr s) (opBlim s - opBptr s) ∧
      elemsKeptOutside s (raise d e s) (opEptr s) (elemDestEnd s - opEptr s) := by
  cases harmless : leavesMemory e with
  | true =>
    rw [raise_of_leavesMemory d e s harmless]
    exact ⟨fun _ _ => rfl, fun _ _ => rfl⟩
  | false =>
    rw [raise_of_not_leavesMemory d e s harmless]
    exact havocDest_kept_outside d s

theorem beginBlock_failed {c : Codec} {a e0 rem : Nat} {s : State} (idle : (beginBlock c a e0 rem s).phase = .idle)
    (failed : (beginBlock c a e0 rem s).err ≠ .ok) :
    beginBlock c a e0 rem s = raise .elems (beginBlock c a e0 rem s).err s := by
  obtain ⟨-, eq⟩ | ⟨-, -, -, eq⟩ | ⟨-, -, -, eq⟩ | ⟨-, -, eq⟩ | ⟨-, -, eq⟩ := beginBlock_cases c a e0 rem s <;>
    rw [eq] at idle failed ⊢
  · simp at failed
  · simp at failed
  · rfl
  · simp at idle
  · rfl

/-- An instruction that ends the command with an error is the error entry of its destination (R290). -/
theorem Executed.eq_raise {i : Instr} {s t : State} (h : Executed s i t) (running : s.phase ≠ .idle)
    (idle : t.phase = .idle) (failed : t.err ≠ .ok) : t = raise (errorDest i) t.err s := by
  cases h with
  | failed => rfl
  | pack | unpack | partition | encblk | encfrm | bound => simp at failed
  | decode decoder =>
    have dest : errorDest i = .elems := by rcases decoder with rfl | rfl <;> rfl
    exact dest ▸ beginBlock_failed idle failed
  | unpacker => exact absurd idle running

/-- Settles O20: an error is an error entry, whose destination follows from the instruction. -/
theorem errorEntryHavocsAtMostTheDestination : Obligations.ErrorEntryHavocsAtMostTheDestination := by
  intro i s t running h idle failed
  have raised := (executed_of_exec h).eq_raise running idle failed
  obtain ⟨elems, bytes, parts⟩ := raise_kept (errorDest i) t.err s
  obtain ⟨bytes_outside, elems_outside⟩ := raise_kept_outside (errorDest i) t.err s
  rw [← raised] at elems bytes parts bytes_outside elems_outside
  have case_a : leavesMemory t.err = true → t = errorReport t.err s := fun harmless =>
    raised.trans (raise_of_leavesMemory _ _ s harmless)
  refine ⟨raised ▸ rfl, raised ▸ rfl, (executed_of_exec h).registersKept, fun harmless => ?_, bytes_outside, elems_outside,
    fun encoder => elems ?_, fun not_encoder => bytes fun x => ?_, fun own => ?_⟩
  · rcases harmless with err | err | err | ⟨c, rfl | rfl⟩
    · exact case_a (by rw [err]; rfl)
    · exact case_a (by rw [err]; rfl)
    · exact case_a (by rw [err]; rfl)
    · exact raised.trans (raise_unchanged t.err s)
    · exact raised.trans (raise_unchanged t.err s)
  · revert encoder
    cases i <;> simp [errorDest, isCtrl, unpackerOf]
  · revert not_encoder
    cases i <;> simp [errorDest, isCtrl, unpackerOf]
  · have kept : t.p = s.p ∧ t.pcnt = s.pcnt := by
      refine parts ?_
      revert own
      cases i <;> simp [errorDest, isCtrl, unpackerOf]
    exact ⟨kept.2, fun x => by rw [kept.1]⟩

/-! ### Writes within a range -/

/-- `m'` is `m` after writes to cells from `lo` up to `hi` only. -/
inductive WritesWithin {w : Nat} (lo hi : Nat) (m : Mem w) : Mem w → Prop where
  | none : WritesWithin lo hi m m
  | write {m' : Mem w} {a : Nat} {vs : List (BitVec w)} (before : WritesWithin lo hi m m')
      (inside : vs ≠ [] → lo ≤ a ∧ a + vs.length ≤ hi) : WritesWithin lo hi m (writeCells m' a vs)

section
variable {w lo hi : Nat} {m m' m'' : Mem w}

theorem WritesWithin.single {a : Nat} {vs : List (BitVec w)} (inside : vs ≠ [] → lo ≤ a ∧ a + vs.length ≤ hi) :
    WritesWithin lo hi m (writeCells m a vs) := .write .none inside

theorem WritesWithin.trans (h : WritesWithin lo hi m m') (h' : WritesWithin lo hi m' m'') : WritesWithin lo hi m m'' := by
  induction h' with
  | none => exact h
  | write _ inside ih => exact .write ih inside

theorem WritesWithin.readCell_outside (h : WritesWithin lo hi m m') (x : Nat) (outside : ¬(lo ≤ x ∧ x < hi)) :
    readCell m' x = readCell m x := by
  induction h with
  | none => rfl
  | @write m' a vs _ inside ih =>
    rw [← ih]
    refine readCell_writeCells_outside m' a vs x fun hx => ?_
    have := inside (by rintro rfl; simp at hx; omega)
    omega

/-- The canonical form is kept, and no cell beyond the memory's size appears (R60). -/
theorem WritesWithin.memOk {size : Nat} (h : WritesWithin lo hi m m') (room : hi ≤ size) (ok : memOk m size) :
    memOk m' size := by
  induction h with
  | none => exact ok
  | @write m' a vs _ inside ih =>
    obtain ⟨wf, below⟩ := ih
    refine ⟨wfMem_writeCells m' a vs wf, fun x hx => ?_⟩
    rcases List.mem_append.1 hx with hx | hx
    · exact below x (List.mem_of_mem_filter hx)
    · rcases List.mem_append.1 hx with hx | hx
      · obtain ⟨-, lt, -⟩ := mem_cellsOf _ _ _ hx
        have := inside (by rintro rfl; cases hx)
        omega
      · exact below x (List.mem_of_mem_filter hx)

end

/-! ### The engine's writes -/

/-- The memories `e`, `b` and `p` are those of `s` but for writes to cells of the latched command's windows and of P-space,
and only to cells that exist. -/
structure WrittenInWindows (s : State) (e : Mem 64) (b : Mem 8) (p : Mem 17) : Prop where
  elems : WritesWithin (opEptr s) (min (opElim s) s.ememSize.toNat) s.e e
  bytes : WritesWithin (opBptr s) (min (opBlim s) s.bmemSize.toNat) s.b b
  parts : WritesWithin 0 pmemSize s.p p

/-- From `s` to `t` only the windows and P-space were written. -/
abbrev InWindows (s t : State) : Prop := WrittenInWindows s t.e t.b t.p

section
variable {s t u : State}

theorem WrittenInWindows.refl (s : State) : InWindows s s := ⟨.none, .none, .none⟩

theorem WrittenInWindows.trans (h : InWindows s t) (kept : registersKept s t) (h' : InWindows t u) : InWindows s u := by
  obtain ⟨-, -, -, -, -, -, -, latch, emem, bmem, -⟩ := kept
  obtain ⟨elems, bytes, parts⟩ := h'
  rw [opEptr, opElim, latch, emem] at elems
  rw [opBptr, opBlim, latch, bmem] at bytes
  exact ⟨h.elems.trans elems, h.bytes.trans bytes, h.parts.trans parts⟩

theorem inWindows_of_elems (windows : elemWindowOk s) {e : Mem 64} (within : WritesWithin (opEptr s) (opElim s) s.e e)
    (eq : t.e = e ∧ t.b = s.b ∧ t.p = s.p) : InWindows s t := by
  obtain ⟨rfl, bytes, parts⟩ := eq
  exact ⟨by rwa [Nat.min_eq_left windows.2], bytes ▸ .none, parts ▸ .none⟩

theorem inWindows_of_bytes (windows : byteWindowOk s) {b : Mem 8} (within : WritesWithin (opBptr s) (opBlim s) s.b b)
    (eq : t.b = b ∧ t.e = s.e) (parts : WritesWithin 0 pmemSize s.p t.p) : InWindows s t := by
  obtain ⟨rfl, elems⟩ := eq
  exact ⟨elems ▸ .none, by rwa [Nat.min_eq_left windows.2], parts⟩

theorem writesWithin_havocParts (s : State) : WritesWithin 0 pmemSize s.p (havocParts s).p :=
  .single fun _ => ⟨le_rfl, (by rw [Nat.zero_add, length_freeEntries])⟩

theorem writesWithin_storeParts {parts : List Nat} (short : parts.length ≤ pmemSize) (s : State) :
    WritesWithin 0 pmemSize s.p (storeParts parts s).p :=
  .single fun _ => by simp; omega

theorem inWindows_havocDest (d : Dest) (windows : elemWindowOk s ∧ byteWindowOk s) : InWindows s (havocDest d s) := by
  obtain ⟨elem_window, byte_window⟩ := windows
  have bytes : WritesWithin (opBptr s) (opBlim s) s.b
      (writeCells s.b (opBptr s) (freeBytes s.fresh (opBptr s) (opBlim s - opBptr s))) :=
    .single fun _ => by rw [length_freeBytes]; omega
  cases d with
  | unchanged => exact .refl s
  | bytes parts =>
    cases parts with
    | false => exact inWindows_of_bytes byte_window bytes ⟨rfl, rfl⟩ .none
    | true =>
      exact inWindows_of_bytes byte_window bytes ⟨rfl, rfl⟩
        (writesWithin_havocParts (havocBytes (opBptr s) (opBlim s - opBptr s) s))
  | elems =>
    refine inWindows_of_elems elem_window (.single fun _ => ?_) ⟨rfl, rfl, rfl⟩
    rw [length_freeElems, elemDestEnd]
    omega

theorem inWindows_raise (d : Dest) (e : Err) (windows : leavesMemory e = false → elemWindowOk s ∧ byteWindowOk s) :
    InWindows s (raise d e s) := by
  cases harmless : leavesMemory e with
  | true =>
    rw [raise_of_leavesMemory d e s harmless]
    exact .refl s
  | false =>
    rw [raise_of_not_leavesMemory d e s harmless]
    exact inWindows_havocDest d (windows harmless)

/-- R151, R153: the fields of a run and the speculative cells behind them end below the limit. -/
theorem unpacked_end_le {w n e lim : Nat} (room : e + n ≤ lim) : e + (n + (specEnd w n e lim - (e + n))) ≤ lim := by
  have clipped : specEnd w n e lim ≤ lim := Nat.min_le_right _ _
  omega

theorem inWindows_unpackCells {w n b e lim : Nat} (windows : elemWindowOk s) (first : opEptr s ≤ e) (room : e + n ≤ lim)
    (inside : lim ≤ opElim s) : InWindows s (unpackCells w n b e lim s) := by
  refine inWindows_of_elems windows (.single fun _ => ?_) ⟨rfl, rfl, rfl⟩
  have written := unpacked_end_le (w := w) room
  simp only [List.length_append, length_unpackBits, length_freeElems]
  omega

theorem inWindows_decodeRaw (c : Codec) {n b e : Nat} (windows : elemWindowOk s) (first : opEptr s ≤ e)
    (inside : e + n ≤ opElim s) : InWindows s (decodeRaw c n b e s) := by
  refine inWindows_of_elems windows (.single fun _ => ?_) ⟨rfl, rfl, rfl⟩
  rw [length_rawElems]
  omega

theorem inWindows_beginBlock (c : Codec) {a e0 rem : Nat} (start : DecodeAt a e0 rem s) :
    InWindows s (beginBlock c a e0 rem s) := by
  obtain ⟨elem_window, byte_window, -, first, count, room⟩ := start
  obtain ⟨-, eq⟩ | ⟨-, -, -, eq⟩ | ⟨-, -, -, eq⟩ | ⟨-, -, eq⟩ | ⟨-, -, eq⟩ := beginBlock_cases c a e0 rem s <;> rw [eq]
  · exact .refl s
  · exact inWindows_decodeRaw (n := rem) c elem_window first (by omega)
  · exact inWindows_raise _ _ fun _ => ⟨elem_window, byte_window⟩
  · exact .refl s
  · exact inWindows_raise _ _ fun _ => ⟨elem_window, byte_window⟩

/-- After the tail the stream goes on behind the block (R219, R242). -/
theorem decodeAt_of_cursorOk (cursors : cursorOk s) : DecodeAt s.cur.slimit s.cur.dlimit s.cur.rem s := by
  obtain ⟨elem_window, byte_window, -, blk, runs, inside, -, -, first, elem, count, room⟩ := cursors
  exact ⟨elem_window, byte_window, by omega, by omega, count, room⟩

theorem inWindows_finishBlock (cursors : cursorOk s) : InWindows s (finishBlock s) := by
  have start := decodeAt_of_cursorOk cursors
  obtain ⟨elem_window, byte_window, -, -, -, -, -, -, first, -, count, room⟩ := cursors
  obtain ⟨ok, eq⟩ | ⟨-, eq⟩ := finishBlock_cases s
  · obtain ⟨elems_end, -⟩ := (tailError_eq_ok s).1 ok
    have tail : InWindows s (decodeRaw s.cur.codec overrun s.cur.byte s.cur.elem s) :=
      inWindows_decodeRaw _ elem_window first (by omega)
    rw [eq]
    exact tail.trans (registersKept_of_eq rfl)
      (inWindows_beginBlock (s := decodeRaw s.cur.codec overrun s.cur.byte s.cur.elem s) _
        ⟨start.elem_window, start.byte_window, start.first_byte, start.first_elem, start.count, start.room⟩)
  · rw [eq]
    exact inWindows_raise _ _ fun _ => ⟨elem_window, byte_window⟩

/-- The engine's own table of a block fits P-space (R191, R212). -/
theorem length_parts_encblkBlock {c : Codec} {parts : List Nat} (le_blockMax : opN s ≤ blockMax)
    (cut : (encblkBlock c false s).parts = some parts) : parts.length ≤ pmemSize := by
  have count := length_sourceElems c s
  have short := length_computePartition_le c ((sourceElems c s).take ((sourceElems c s).length - overrun))
  rw [List.length_take, count] at short
  obtain rfl : parts = computePartition c ((sourceElems c s).take ((sourceElems c s).length - overrun)) := by
    rw [encblkBlock, if_neg (by simp), encodeBlock] at cut
    split at cut
    · cases cut
    · exact (Option.some.inj cut).symm
  rw [count]
  unfold blockMax at le_blockMax
  unfold pmemSize
  unfold overrun at short ⊢
  omega

theorem writesWithin_storeBlockParts {c : Codec} (pext : Bool) (le_blockMax : opN s ≤ blockMax) :
    WritesWithin 0 pmemSize s.p (storeBlockParts pext (encblkBlock c pext s).parts s).p := by
  cases pext with
  | true => exact .none
  | false =>
    cases cut : (encblkBlock c false s).parts with
    | none => exact .none
    | some parts => exact writesWithin_storeParts (length_parts_encblkBlock le_blockMax cut) s

theorem length_streamOf {c : Codec} (ok : encfrmError c s = .ok) : opBptr s + (streamOf c s).1.length ≤ opBlim s := by
  obtain ⟨-, magic, some_blocks⟩ := (encfrmError_eq_ok c s).1 ok
  obtain ⟨r, found⟩ := Option.isSome_iff_exists.1 some_blocks
  obtain ⟨-, inside⟩ := isStream_of_encodeBlocks found rfl magic
  simp only [streamOf, found, Option.getD_some, List.length_append, length_natToBytes]
  omega

theorem Executed.inWindows {i : Instr} (h : Executed s i t) (cursors : isCtrl i = true → cursorOk s) : InWindows s t := by
  cases h with
  | failed _ windows =>
    refine inWindows_raise _ _ fun writes => ?_
    cases ctrl : isCtrl i with
    | true => exact ⟨(cursors ctrl).1, (cursors ctrl).2.1⟩
    | false => exact windows writes ctrl
  | pack ok =>
    obtain ⟨⟨-, byte_window, -⟩, room⟩ := packError_eq_ok.1 ok
    refine inWindows_of_bytes byte_window (.single fun _ => ?_) ⟨rfl, rfl⟩ .none
    rw [length_packBits, length_sourceElems]
    exact ⟨le_rfl, room⟩
  | unpack ok =>
    obtain ⟨⟨elem_window, -⟩, -, room⟩ := unpackError_eq_ok.1 ok
    exact inWindows_unpackCells elem_window le_rfl room le_rfl
  | @partition c ok =>
    obtain ⟨elem_window, -, le_max, -⟩ := partitionError_eq_ok.1 ok
    have short := length_computePartition_le c (sourceElems c s)
    rw [length_sourceElems] at short
    exact ⟨.none, .none, writesWithin_storeParts (by unfold blockMax overrun at le_max; unfold pmemSize; omega) s⟩
  | @encblk c pext ok =>
    obtain ⟨⟨-, byte_window, -⟩, checked, room⟩ := encblkError_eq_ok.1 ok
    refine inWindows_of_bytes byte_window (.single fun _ => ?_) ⟨rfl, ?_⟩
      (writesWithin_storeBlockParts pext checked.le_blockMax)
    · rw [(encblkBlock_bytes c checked).1]
      exact ⟨le_rfl, room⟩
    · cases pext with
      | true => rfl
      | false => cases (encblkBlock c false s).parts <;> rfl
  | @encfrm c ok =>
    obtain ⟨⟨-, byte_window, -⟩, -⟩ := (encfrmError_eq_ok c s).1 ok
    have room := length_streamOf ok
    refine inWindows_of_bytes byte_window (.single fun _ => ⟨le_rfl, room⟩) ⟨rfl, ?_⟩ ?_
    · cases (streamOf c s).2.1 <;> rfl
    · cases (streamOf c s).2.1 with
      | false => exact .none
      | true => exact writesWithin_havocParts s
  | bound => exact .refl s
  | decode _ start => exact inWindows_beginBlock _ start
  | @unpacker i w p unpacker ok =>
    obtain ⟨elem_window, -, -, -, -, -, -, -, first, -, count, room⟩ := cursors (isCtrl_of_unpackerOf unpacker)
    obtain ⟨-, -, fits⟩ := (ctrlError_eq_ok w p s).1 ok
    have written := inWindows_unpackCells (w := w) (b := s.cur.byte) elem_window first fits (by omega)
    exact ⟨written.elems, .none, .none⟩

theorem encode_of_isCtrl {i : Instr} (ctrl : isCtrl i = true) (c : Codec) : ∃ b, encode c i = .ctrl c b := by
  cases i <;> cases ctrl <;> exact ⟨_, rfl⟩

/-- A command word never decodes to a control byte (R91, R94). -/
theorem isCtrl_of_decodeCmd {v : CmdWord} {i : Instr} (decoded : decodeCmd v = .ok i) : isCtrl i = false := by
  refine Bool.eq_false_iff.2 fun ctrl => ?_
  obtain ⟨b, byte⟩ := encode_of_isCtrl ctrl .c32
  cases byte.symm.trans (encode_of_decodeCmd .c32 decoded).1

theorem Turned.inWindows (h : Turned s t) (cursors : s.phase = .control → cursorOk s) : InWindows s t := by
  cases h with
  | idle _ same => exact same ▸ .refl s
  | command _ decoded executed => exact executed.inWindows fun ctrl => by simp [isCtrl_of_decodeCmd decoded] at ctrl
  | illegal _ reported => exact reported ▸ inWindows_raise _ _ fun writes => by cases writes
  | control phase _ executed => exact executed.inWindows fun _ => cursors phase
  | blockEnd phase _ finished => exact finished ▸ inWindows_finishBlock (cursors phase)

end

/-- Settles O21: the engine's writes lie in the windows, by the cursors of the invariant in the turns of a decode. -/
theorem writesStayInsideTheWindows : Obligations.WritesStayInsideTheWindows := by
  intro s t inv host h
  obtain ⟨-, -, -, -, cursors, -⟩ := inv
  rw [step_of_no_move host] at h
  obtain ⟨elems, bytes, -⟩ := (turned_of_engineStep h).inWindows cursors
  exact ⟨fun x hx => bytes.readCell_outside x (by omega), fun x hx => elems.readCell_outside x (by omega)⟩

end Sys2Proof.Machine
end

section
/-! The invariant of every run: the packer's fill count, the cursors of a decode and the flags of a running command, kept by
the turns of the engine and by the moves of the host. -/

namespace Sys2Proof.Machine

/-! ### The packer's fill count (R39) -/

theorem fill_pushBit_lt {t : Writer} (h : t.fill < 32) (x : Bool) : (pushBit t x).fill < 32 := by
  unfold pushBit
  by_cases full : t.fill + 1 = 32
  · simp [full]
  · simp only [full, if_false]
    omega

theorem fill_foldl_pushBit_lt {bits : List Nat} (f : Nat → Bool) {t : Writer} (h : t.fill < 32) :
    (bits.foldl (fun t j => pushBit t (f j)) t).fill < 32 := by
  induction bits generalizing t with
  | nil => exact h
  | cons j bits ih => exact ih (fill_pushBit_lt h (f j))

theorem fill_foldl_pushElem_lt (w : Nat) {elems : List Elem} {t : Writer} (h : t.fill < 32) :
    (elems.foldl (pushElem w) t).fill < 32 := by
  induction elems generalizing t with
  | nil => exact h
  | cons x elems ih => exact ih (fill_foldl_pushBit_lt (fun j => x.getLsbD (w - 1 - j)) h)

section
variable {c : Codec} {k : Work}

theorem fill_workAfterRun_lt {elems : List Elem} {w : Nat} (h : k.fill < 32) : (workAfterRun c elems w k).fill < 32 := by
  unfold workAfterRun
  split
  · exact h
  · exact fill_foldl_pushElem_lt w (by decide)

theorem fill_encodeFramed_lt {elems : List Elem} {parts : List Nat} (h : k.fill < 32) :
    (encodeFramed c elems parts k).work.fill < 32 := by
  unfold encodeFramed
  generalize segments elems parts = segs
  induction segs generalizing k with
  | nil => exact h
  | cons seg segs ih => exact ih (fill_workAfterRun_lt h)

theorem fill_encodeBlock_lt {elems : List Elem} (h : k.fill < 32) : (encodeBlock c elems k).work.fill < 32 := by
  unfold encodeBlock
  split
  · exact h
  · exact fill_encodeFramed_lt (k := workAfterPlan c _ k) h

theorem fill_encblkBlock_lt {pext : Bool} {s : State} (h : s.work.fill < 32) : (encblkBlock c pext s).work.fill < 32 := by
  unfold encblkBlock
  split
  · exact fill_encodeFramed_lt h
  · exact fill_encodeBlock_lt h

theorem fill_encodeBlocks_lt {m : Mem 64} {lim full e b rem : Nat} {r : List Byte × Bool × Work} (h : k.fill < 32)
    (found : encodeBlocks c m lim full e b rem k = some r) : r.2.2.fill < 32 := by
  induction full generalizing e b rem k r with
  | zero =>
    simp only [encodeBlocks] at found
    split at found
    · exact Option.some.inj found ▸ h
    · split at found
      · exact Option.some.inj found ▸ fill_encodeBlock_lt h
      · cases found
  | succ full ih =>
    simp only [encodeBlocks] at found
    split at found
    · split at found
      · next others =>
        obtain rfl := Option.some.inj found
        have fill := fill_encodeBlock_lt (c := c) (elems := readElems c m e blockMax) h
        have rest_fill := ih fill others
        exact rest_fill
      · cases found
    · cases found

theorem fill_streamOf_lt {s : State} (h : s.work.fill < 32) : (streamOf c s).2.2.fill < 32 := by
  cases found : streamBlocks c s with
  | none => simpa [streamOf, found] using h
  | some r =>
    have fill : r.2.2.fill < 32 := fill_encodeBlocks_lt h found
    simpa [streamOf, found] using fill

end

section
variable {s t : State}

@[simp] theorem work_beginBlock (c : Codec) (a e0 rem : Nat) (s : State) : (beginBlock c a e0 rem s).work = s.work := by
  obtain ⟨-, eq⟩ | ⟨-, -, -, eq⟩ | ⟨-, -, -, eq⟩ | ⟨-, -, eq⟩ | ⟨-, -, eq⟩ := beginBlock_cases c a e0 rem s <;> rw [eq] <;>
    simp

@[simp] theorem work_finishBlock (s : State) : (finishBlock s).work = s.work := by
  obtain ⟨-, eq⟩ | ⟨-, eq⟩ := finishBlock_cases s <;> rw [eq] <;> simp

theorem Executed.fill_lt {i : Instr} (h : Executed s i t) (fill : s.work.fill < 32) : t.work.fill < 32 := by
  cases h with
  | failed => simpa using fill
  | pack => exact fill_workAfterRun_lt fill
  | unpack | partition | bound | unpacker => exact fill
  | encblk => exact fill_encblkBlock_lt fill
  | encfrm => exact fill_streamOf_lt fill
  | decode => simpa using fill

theorem Turned.fill_lt (h : Turned s t) (fill : s.work.fill < 32) : t.work.fill < 32 := by
  cases h with
  | idle _ same => exact same ▸ fill
  | command _ _ executed | control _ _ executed => exact executed.fill_lt fill
  | illegal _ reported => rw [reported, illegalCommand]; simpa using fill
  | blockEnd _ _ finished => rw [finished]; simpa using fill

/-! ### A command that goes on -/

/-- The flags and `PCNT` are as before. -/
abbrev flagsKept (s t : State) : Prop := t.done = s.done ∧ t.err = s.err ∧ t.pcnt = s.pcnt

theorem beginBlock_running {c : Codec} {a e0 rem : Nat} (running : (beginBlock c a e0 rem s).phase ≠ .idle) :
    rawThreshold ≤ rem ∧ headerError c a s = .ok ∧
      beginBlock c a e0 rem s =
        { s with phase := .control, cur := blockCursor c (min rem blockMax) a e0 (rem - min rem blockMax) s } := by
  obtain ⟨-, eq⟩ | ⟨-, -, -, eq⟩ | ⟨-, -, -, eq⟩ | ⟨long, header, eq⟩ | ⟨-, -, eq⟩ := beginBlock_cases c a e0 rem s
  · simp [eq] at running
  · simp [eq] at running
  · simp [eq] at running
  · exact ⟨long, header, eq⟩
  · simp [eq] at running

theorem finishBlock_running (running : (finishBlock s).phase ≠ .idle) :
    tailError s = .ok ∧ finishBlock s = beginBlock s.cur.codec s.cur.slimit s.cur.dlimit s.cur.rem
      (decodeRaw s.cur.codec overrun s.cur.byte s.cur.elem s) := by
  obtain ok | ⟨-, eq⟩ := finishBlock_cases s
  · exact ok
  · simp [eq] at running

/-- An instruction after which the command still runs has begun a block or passed one of its control bytes. -/
theorem Executed.running_cases {i : Instr} (h : Executed s i t) (running : t.phase ≠ .idle) :
    (∃ c a, (i = .decblk c ∨ i = .decfrm c) ∧ DecodeAt a (opEptr s) (opN s) s ∧
      t = beginBlock c a (opEptr s) (opN s) s) ∨
    (∃ w p, unpackerOf i = some (w, p) ∧ ctrlError w p s = .ok ∧
      t = { unpackCells w (partitionLength p) s.cur.byte s.cur.elem s.cur.dlimit s with
        cur := nextPartition w (partitionLength p) s.cur }) := by
  cases h with
  | failed | pack | unpack | partition | encblk | encfrm | bound => exact absurd rfl running
  | decode decoder start => exact .inl ⟨_, _, decoder, start, rfl⟩
  | unpacker unpacker ok => exact .inr ⟨_, _, unpacker, ok, rfl⟩

theorem flagsKept_beginBlock {c : Codec} {a e0 rem : Nat} (running : (beginBlock c a e0 rem s).phase ≠ .idle) :
    flagsKept s (beginBlock c a e0 rem s) := by
  rw [(beginBlock_running running).2.2]
  exact ⟨rfl, rfl, rfl⟩

theorem Executed.flagsKept {i : Instr} (h : Executed s i t) (running : t.phase ≠ .idle) : flagsKept s t := by
  obtain ⟨c, a, -, -, rfl⟩ | ⟨w, p, -, -, rfl⟩ := h.running_cases running
  · exact flagsKept_beginBlock running
  · exact ⟨rfl, rfl, rfl⟩

theorem Turned.flagsKept (h : Turned s t) (running : t.phase ≠ .idle) : s.phase ≠ .idle ∧ flagsKept s t := by
  cases h with
  | idle phase same => exact absurd (same ▸ phase) running
  | command phase _ executed | control phase _ executed => exact ⟨by simp [phase], executed.flagsKept running⟩
  | illegal _ reported => exact absurd (reported ▸ rfl) running
  | blockEnd phase _ finished =>
    subst finished
    have next := (finishBlock_running running).2
    rw [next] at running ⊢
    exact ⟨by simp [phase], flagsKept_beginBlock (s := decodeRaw s.cur.codec overrun s.cur.byte s.cur.elem s) running⟩

/-! ### The cursors -/

/-- A block that begins inside the windows keeps its cursors inside (R219). -/
theorem cursorOk_beginBlock {c : Codec} {a e0 rem : Nat} (start : DecodeAt a e0 rem s) (codec : c = codecField s.latch.cmd)
    (running : (beginBlock c a e0 rem s).phase ≠ .idle) : cursorOk (beginBlock c a e0 rem s) := by
  obtain ⟨-, header, eq⟩ := beginBlock_running running
  obtain ⟨-, offset, size, inside⟩ := (headerError_eq_ok c a s).1 header
  obtain ⟨elem_window, byte_window, first_byte, first_elem, count, room⟩ := start
  rw [eq]
  refine ⟨elem_window, byte_window, codec, first_byte, ?_, ?_, inside, Nat.zero_le _, first_elem, ?_, ?_, room⟩ <;>
    simp only [blockCursor, opEptr, opN] at count ⊢ <;> omega

/-- Passing a partition keeps the cursors inside (R219). -/
theorem cursorOk_nextPartition {w : Nat} {p : BitVec 4} (cursors : cursorOk s) (ok : ctrlError w p s = .ok)
    (more : s.cur.idx < s.cur.parts) :
    cursorOk { unpackCells w (partitionLength p) s.cur.byte s.cur.elem s.cur.dlimit s with
      cur := nextPartition w (partitionLength p) s.cur } := by
  obtain ⟨elem_window, byte_window, codec, blk, runs, -, inside, -, first, -, count, room⟩ := cursors
  obtain ⟨-, run, elems⟩ := (ctrlError_eq_ok w p s).1 ok
  refine ⟨elem_window, byte_window, codec, blk, ?_, run, inside, more, ?_, elems, count, room⟩
  · simp only [nextPartition]; omega
  · simp only [nextPartition]
    exact first.trans (Nat.le_add_right _ _)

/-- The family of a decoder is the `CODEC` bit of its word (R91). -/
theorem codec_of_decodeCmd {v : CmdWord} {i : Instr} {c : Codec} (decoded : decodeCmd v = .ok i)
    (decoder : i = .decblk c ∨ i = .decfrm c) : c = codecField v := by
  have word := (encode_of_decodeCmd c decoded).1
  rcases decoder with rfl | rfl
  · rw [← Fetched.cmd.inj word, codecField_commandWord]
  · rw [← Fetched.cmd.inj word, codecField_commandWord]

theorem Turned.cursorOk (h : Turned s t) (cursors : s.phase = .control → cursorOk s) (running : t.phase ≠ .idle) :
    cursorOk t := by
  cases h with
  | idle phase same => exact absurd (same ▸ phase) running
  | command _ decoded executed =>
    obtain ⟨c, a, decoder, start, rfl⟩ | ⟨w, p, unpacker, -, -⟩ := executed.running_cases running
    · exact cursorOk_beginBlock start (codec_of_decodeCmd decoded decoder) running
    · have ctrl := isCtrl_of_unpackerOf unpacker
      rw [isCtrl_of_decodeCmd decoded] at ctrl
      cases ctrl
  | illegal _ reported => exact absurd (reported ▸ rfl) running
  | control phase more executed =>
    obtain ⟨c, a, decoder, -, -⟩ | ⟨w, p, -, ok, rfl⟩ := executed.running_cases running
    · have ctrl := isCtrl_ctrlInstr s
      rcases decoder with decoder | decoder <;> rw [decoder] at ctrl <;> cases ctrl
    · exact cursorOk_nextPartition (cursors phase) ok more
  | blockEnd phase _ finished =>
    subst finished
    obtain ⟨-, codec, -⟩ := (cursors phase).2
    obtain ⟨elem_window, byte_window, first_byte, first_elem, count, room⟩ := decodeAt_of_cursorOk (cursors phase)
    have next := (finishBlock_running running).2
    rw [next] at running ⊢
    exact cursorOk_beginBlock (s := decodeRaw s.cur.codec overrun s.cur.byte s.cur.elem s)
      ⟨elem_window, byte_window, first_byte, first_elem, count, room⟩ codec running

/-! ### The invariant -/

theorem latchCurrent_of_kept (registers : registersKept s t) (pcnt : t.pcnt = s.pcnt) (h : latchCurrent s) :
    latchCurrent t := by
  obtain ⟨cmd, eptr, elim, bptr, blim, n, w, latch, -⟩ := registers
  simp only [latchCurrent] at h ⊢
  rw [latch, h, cmd, eptr, elim, bptr, blim, n, w, pcnt]

theorem Turned.inv (h : Turned s t) (inv : Inv s) : Inv t := by
  obtain ⟨elems, bytes, parts, running, cursors, fill⟩ := inv
  obtain ⟨elems_within, bytes_within, parts_within⟩ := h.inWindows cursors
  obtain ⟨-, -, -, -, -, -, -, -, emem, bmem, -⟩ := h.registersKept
  refine ⟨?_, ?_, parts_within.memOk le_rfl parts, fun busy => ?_, fun control => h.cursorOk cursors (by simp [control]),
    h.fill_lt fill⟩
  · rw [emem]
    exact elems_within.memOk (Nat.min_le_right _ _) elems
  · rw [bmem]
    exact bytes_within.memOk (Nat.min_le_right _ _) bytes
  · obtain ⟨was_busy, done, err, pcnt⟩ := h.flagsKept busy
    obtain ⟨not_done, no_err, latch⟩ := running was_busy
    exact ⟨done.trans not_done, err.trans no_err, latchCurrent_of_kept h.registersKept pcnt latch⟩

/-- While IDLE the invariant speaks of the memories and the fill count only. -/
theorem inv_of_idle (idle : t.phase = .idle) (elems : memOk t.e t.ememSize.toNat) (bytes : memOk t.b t.bmemSize.toNat)
    (parts : memOk t.p pmemSize) (fill : t.work.fill < 32) : Inv t :=
  ⟨elems, bytes, parts, fun busy => absurd idle busy, fun control => by simp [idle] at control, fill⟩

theorem inv_writeIdleRegister (inv : Inv s) (idle : s.phase = .idle) (slot : Nat) (v : BitVec 64) :
    Inv (writeIdleRegister slot v s) := by
  obtain ⟨elems, bytes, parts, -, -, fill⟩ := inv
  unfold writeIdleRegister
  split
  · exact ⟨elems, bytes, parts, fun _ => ⟨rfl, rfl, rfl⟩, fun control => (by cases control), show 0 < 32 by decide⟩
  all_goals exact inv_of_idle idle elems bytes parts fill

theorem inv_readRegister (inv : Inv s) (slot : Nat) : Inv (readRegister slot s) := by
  unfold readRegister
  split
  · exact inv
  · split <;> exact inv

theorem memOk_writeCells_nil {w n size : Nat} {vs : List (BitVec w)} (length : vs.length = n) (room : n ≤ size) :
    memOk (writeCells [] 0 vs) size :=
  (WritesWithin.single (lo := 0) (hi := n) fun _ => ⟨le_rfl, by omega⟩).memOk room ⟨wfMem_nil, by simp⟩

theorem memOk_writeCells_single {w size i : Nat} {m : Mem w} (ok : memOk m size) (exists_cell : i < size) (v : BitVec w) :
    memOk (writeCells m i [v]) size :=
  (WritesWithin.single (lo := 0) (hi := size) fun _ => ⟨Nat.zero_le i, (by simpa using exists_cell)⟩).memOk le_rfl ok

theorem inv_hostReset (s : State) : Inv (hostReset s) :=
  inv_of_idle rfl (memOk_writeCells_nil (length_freeElems _ _ _) le_rfl)
    (memOk_writeCells_nil (length_freeBytes _ _ _) le_rfl) (memOk_writeCells_nil (length_freeEntries _ _ _) le_rfl)
    (show 0 < 32 by decide)

theorem inv_hostStep {m : HostMove} (inv : Inv s) (h : hostStep m s = .next t) : Inv t := by
  obtain ⟨elems, bytes, parts, running, cursors, fill⟩ := id inv
  cases m with
  | wait => exact Host.Outcome.next.inj h ▸ inv
  | writeReg slot v =>
    obtain rfl := Host.Outcome.next.inj h
    by_cases idle : s.phase = .idle
    · rw [writeRegister_of_idle idle]
      exact inv_writeIdleRegister inv idle slot v
    · rwa [writeRegister_of_busy idle]
  | readReg slot => exact Host.Outcome.next.inj h ▸ inv_readRegister inv slot
  | writeE i v =>
    obtain ⟨not_busy, exists_cell, rfl⟩ := (dataAccess_eq_next _ _ _ _ _).1 h
    exact inv_of_idle ((busy_eq_false s).1 not_busy) (memOk_writeCells_single elems exists_cell v) bytes parts fill
  | writeB i v =>
    obtain ⟨not_busy, exists_cell, rfl⟩ := (dataAccess_eq_next _ _ _ _ _).1 h
    exact inv_of_idle ((busy_eq_false s).1 not_busy) elems (memOk_writeCells_single bytes exists_cell v) parts fill
  | writeP i v =>
    obtain ⟨not_busy, exists_cell, rfl⟩ := (dataAccess_eq_next _ _ _ _ _).1 h
    exact inv_of_idle ((busy_eq_false s).1 not_busy) elems bytes (memOk_writeCells_single parts exists_cell _) fill
  | readE i | readB i | readP i =>
    obtain ⟨-, -, rfl⟩ := (dataAccess_eq_next _ _ _ _ _).1 h
    exact inv
  | reset => exact Host.Outcome.next.inj h ▸ inv_hostReset s

/-- Settles O14: a turn of the engine keeps each part of the invariant, and so does each move of the host. -/
theorem stepKeepsTheInvariant : Obligations.StepKeepsTheInvariant := by
  intro s t inv h
  obtain ⟨-, eq⟩ | ⟨rest, -, eq⟩ | ⟨m, rest, -, -, eq⟩ := step_cases s
  · exact (turned_of_engineStep (eq ▸ h)).inv inv
  · exact (turned_of_engineStep (eq ▸ h)).inv (s := { s with host := rest }) inv
  · exact inv_hostStep (s := { s with host := rest }) inv (eq ▸ h)

end

/-! ### Termination -/

/-- The command that runs in `s` completes (R262). -/
def Completes (s : State) : Prop :=
  ∃ k t, Host.Core.run Sys2Proof.core k s = .next t ∧ t.phase = .idle ∧ t.done = true

theorem completes_of_step {s t : State} (h : step s = .next t) (completes : Completes t) : Completes s := by
  obtain ⟨k, u, run, ended⟩ := completes
  exact ⟨k + 1, u, (run_succ h k).trans run, ended⟩

theorem completes_of_idle {s : State} (idle : s.phase = .idle) (done : s.done = true) : Completes s :=
  ⟨0, s, rfl, idle, done⟩

section
variable {s t : State}

theorem done_beginBlock {c : Codec} {a e0 rem : Nat} (idle : (beginBlock c a e0 rem s).phase = .idle) :
    (beginBlock c a e0 rem s).done = true := by
  obtain ⟨-, eq⟩ | ⟨-, -, -, eq⟩ | ⟨-, -, -, eq⟩ | ⟨-, -, eq⟩ | ⟨-, -, eq⟩ := beginBlock_cases c a e0 rem s <;>
    rw [eq] at idle ⊢
  case inr.inr.inr.inl => cases idle
  all_goals rfl

theorem done_finishBlock (idle : (finishBlock s).phase = .idle) : (finishBlock s).done = true := by
  obtain ⟨-, eq⟩ | ⟨-, eq⟩ := finishBlock_cases s <;> rw [eq] at idle ⊢
  · exact done_beginBlock idle
  · rfl

/-- A turn that ends a command sets `DONE` (R262, R290). -/
theorem Executed.done {i : Instr} (h : Executed s i t) (running : s.phase ≠ .idle) (idle : t.phase = .idle) :
    t.done = true := by
  cases h with
  | failed | pack | unpack | partition | encblk | encfrm | bound => rfl
  | decode => exact done_beginBlock idle
  | unpacker => exact absurd idle running

theorem Turned.done (h : Turned s t) (running : s.phase ≠ .idle) (idle : t.phase = .idle) : t.done = true := by
  cases h with
  | idle phase => exact absurd phase running
  | command _ _ executed | control _ _ executed => exact executed.done running idle
  | illegal _ reported => exact reported ▸ rfl
  | blockEnd _ _ finished => exact finished ▸ done_finishBlock (finished ▸ idle)

/-- A turn after which the command still runs leads to the control bytes of a block. -/
theorem Turned.phase_control (h : Turned s t) (running : t.phase ≠ .idle) : t.phase = .control := by
  cases h with
  | idle phase same => exact absurd (same ▸ phase) running
  | command _ decoded executed =>
    obtain ⟨c, a, -, -, rfl⟩ | ⟨w, p, unpacker, -, -⟩ := executed.running_cases running
    · rw [(beginBlock_running running).2.2]
    · have ctrl := isCtrl_of_unpackerOf unpacker
      rw [isCtrl_of_decodeCmd decoded] at ctrl
      cases ctrl
  | illegal _ reported => exact absurd (reported ▸ rfl) running
  | control phase _ executed =>
    obtain ⟨c, a, -, -, rfl⟩ | ⟨w, p, -, -, rfl⟩ := executed.running_cases running
    · rw [(beginBlock_running running).2.2]
    · exact phase
  | blockEnd _ _ finished =>
    subst finished
    have next := (finishBlock_running running).2
    rw [next] at running ⊢
    rw [(beginBlock_running running).2.2]

/-- Within a framed decode every turn brings the end nearer: a control byte is passed, or a block with all that are
left of it. -/
theorem Turned.nearer (h : Turned s t) (phase : s.phase = .control) (running : t.phase ≠ .idle) :
    t.cur.rem < s.cur.rem ∨ (t.cur.rem = s.cur.rem ∧ t.cur.parts - t.cur.idx < s.cur.parts - s.cur.idx) := by
  cases h with
  | idle other | command other | illegal other => simp [phase] at other
  | control _ more executed =>
    obtain ⟨c, a, decoder, -, -⟩ | ⟨w, p, -, -, rfl⟩ := executed.running_cases running
    · have ctrl := isCtrl_ctrlInstr s
      rcases decoder with decoder | decoder <;> rw [decoder] at ctrl <;> cases ctrl
    · exact .inr ⟨rfl, Nat.sub_lt_sub_left more (Nat.lt_succ_self _)⟩
  | blockEnd _ _ finished =>
    subst finished
    have next := (finishBlock_running running).2
    rw [next] at running ⊢
    obtain ⟨long, -, eq⟩ := beginBlock_running running
    left
    rw [eq]
    simp only [blockCursor]
    unfold rawThreshold at long
    unfold blockMax
    omega

end

/-- R262: a framed decode ends, whatever its cursors are. -/
theorem completes_of_control (s : State) (host : s.host = []) (phase : s.phase = .control) : Completes s := by
  obtain ⟨t, answered, turned⟩ := exists_turned s
  refine completes_of_step ((step_of_no_move host).trans answered) ?_
  by_cases idle : t.phase = .idle
  · exact completes_of_idle idle (turned.done (by simp [phase]) idle)
  · obtain ⟨-, -, -, -, -, -, -, -, -, -, host_kept, -⟩ := turned.registersKept
    have nearer := turned.nearer phase idle
    exact completes_of_control t (host_kept.trans host) (turned.phase_control idle)
termination_by (s.cur.rem, s.cur.parts - s.cur.idx)
decreasing_by exact Prod.lex_def.2 nearer

theorem completes_of_running (s : State) (host : s.host = []) (running : s.phase ≠ .idle) : Completes s := by
  obtain ⟨t, answered, turned⟩ := exists_turned s
  refine completes_of_step ((step_of_no_move host).trans answered) ?_
  by_cases idle : t.phase = .idle
  · exact completes_of_idle idle (turned.done running idle)
  · obtain ⟨-, -, -, -, -, -, -, -, -, -, host_kept, -⟩ := turned.registersKept
    exact completes_of_control t (host_kept.trans host) (turned.phase_control idle)

/-- Settles O15: an idle engine is there already, and a running command completes. -/
theorem everyCommandCompletes : Obligations.EveryCommandCompletes := by
  intro s host
  by_cases idle : s.phase = .idle
  · exact ⟨0, s, rfl, idle, fun running => absurd idle running⟩
  · obtain ⟨k, t, run, ended, done⟩ := completes_of_running s host idle
    exact ⟨k, t, run, ended, fun _ => done⟩

end Sys2Proof.Machine
end

section
/-! PACK, UNPACK and BOUND (40_pack.md R138, R140, 41_unpack.md R150 to R153, R172, 44_frame.md R244): what they write where their
checks hold, and which check is reported. -/

namespace Sys2Proof.Machine

/-! ### The first check that fails -/

theorem firstError_of_met (k : Nat) {checks : List (Bool × Err)} (met : ∀ x ∈ checks.take k, x.1 = true) :
    firstError checks = firstError (checks.drop k) := by
  induction k generalizing checks with
  | zero => rfl
  | succ k ih =>
    cases checks with
    | nil => rfl
    | cons x checks =>
      obtain ⟨holds, e⟩ := x
      obtain ⟨rfl, others⟩ := List.forall_mem_cons.1 met
      exact ih others

/-- R292: the first `k` checks hold and one of the next `j` fails, which all report `e`. -/
theorem firstError_eq (k j : Nat) {checks : List (Bool × Err)} {e : Err} (met : ∀ x ∈ checks.take k, x.1 = true)
    (report : ∀ x ∈ (checks.drop k).take j, x.2 = e) (unmet : ¬ ∀ x ∈ (checks.drop k).take j, x.1 = true) :
    firstError checks = e := by
  rw [firstError_of_met k met]
  generalize checks.drop k = rest at report unmet
  induction j generalizing rest with
  | zero => simp at unmet
  | succ j ih =>
    cases rest with
    | nil => simp at unmet
    | cons x rest =>
      obtain ⟨holds, e'⟩ := x
      obtain ⟨rfl, report⟩ := List.forall_mem_cons.1 report
      cases holds with
      | false => rfl
      | true => exact ih rest report fun all => unmet (List.forall_mem_cons.2 ⟨rfl, all⟩)

section
variable {c : Codec} {s t : State}

/-- R290 case (a). -/
theorem raise_unchanged_eq_errorReport (e : Err) (s : State) : raise .unchanged e s = errorReport e s := raise_unchanged e s

theorem toNat_ofNat_of_lt {r : Nat} (small : r < 2 ^ 64) : (BitVec.ofNat 64 r).toNat = r := by
  rw [BitVec.toNat_ofNat, Nat.mod_eq_of_lt small]

theorem succeededWith_complete {r : Nat} (small : r < 2 ^ 64) (s : State) : succeededWith (complete r s) r :=
  ⟨rfl, rfl, rfl, toNat_ofNat_of_lt small⟩

/-- A byte count that ends in the byte window fits `RESULT`. -/
theorem lt_of_byte_end {r : Nat} (inside : opBptr s + r ≤ opBlim s) : r < 2 ^ 64 := by
  have limit : opBlim s < 2 ^ 64 := s.latch.blim.isLt
  omega

/-! ### BOUND -/

/-- Settles O60: the two branches of the meaning. -/
theorem boundIsTheFormula : Obligations.BoundIsTheFormula := by
  rintro c s v rfl
  refine ⟨fun fits => if_pos fits, fun large => ?_⟩
  rw [← raise_unchanged_eq_errorReport]
  exact if_neg (Nat.not_lt.2 large)

/-! ### PACK -/

theorem exec_pack_of_ok (ok : packError c s = .ok) : exec (.pack c) s = .next (complete (runBytes (opN s) (opW s))
    { s with
      b := writeCells s.b (opBptr s) (packBits (sourceElems c s) (opW s))
      work := workAfterRun c (sourceElems c s) (opW s) s.work }) := if_pos ok

theorem exec_pack_of_error {e : Err} (error : packError c s = e) (failed : e ≠ .ok) :
    exec (.pack c) s = .next (errorReport e s) := by
  rw [← raise_unchanged_eq_errorReport, ← error]
  exact if_neg (error ▸ failed)

theorem workAfterRun_arrays (c : Codec) (elems : List Elem) (w : Nat) (k : Work) :
    (workAfterRun c elems w k).cost = k.cost ∧ (workAfterRun c elems w k).refs = k.refs := by
  unfold workAfterRun
  split <;> exact ⟨rfl, rfl⟩

theorem getD_sourceElems {i : Nat} (hi : i < opN s) : (sourceElems c s).getD i 0 = readElem c s.e (opEptr s + i) :=
  getD_readElems c s.e _ _ i hi

/-- The run that PACK wrote, as it stands in B-space. -/
theorem readCells_packed (m : Mem 8) (c : Codec) (s : State) :
    readCells (writeCells m (opBptr s) (packBits (sourceElems c s) (opW s))) (opBptr s) (runBytes (opN s) (opW s)) =
      packBits (sourceElems c s) (opW s) := by
  have stands := standsAt_writeCells m (opBptr s) (packBits (sourceElems c s) (opW s))
  rwa [StandsAt, length_packBits, length_sourceElems] at stands

/-- Settles O31: the stream bits of the run are those of `PackBits`, and nothing else is written. -/
theorem packWritesTheRun : Obligations.PackWritesTheRun := by
  intro c s elem_window byte_window pos le_max width source room
  have ok : packError c s = .ok := packError_eq_ok.2 ⟨⟨elem_window, byte_window, pos, le_max, width, source⟩, room⟩
  have count := length_sourceElems c s
  have run := readCells_packed s.b c s
  obtain ⟨cost, refs⟩ := workAfterRun_arrays c (sourceElems c s) (opW s) s.work
  refine ⟨_, exec_pack_of_ok ok, succeededWith_complete (lt_of_byte_end room) _, fun i j hi hj => ?_, fun k padding hk => ?_,
    fun x hx => ?_, rfl, ⟨rfl, fun _ => rfl⟩, registersKept_of_eq rfl, rfl, cost, refs⟩
  · rw [← getD_sourceElems hi, complete_b, ← runBytes, run, streamBit_packBits_field _ _ i j (by rwa [count]) hj]
  · rw [complete_b, ← runBytes, run]
    rw [← count] at padding hk
    exact (streamBit_packBits _ _ k hk).trans (packBit_padding _ _ k padding)
  · exact readCell_writeCells_outside _ _ _ _ (by rwa [length_packBits, count])

/-- Settles O32: the checks of the windows, the count, the width and the source report `E_ARG`, and the destination is
looked at last. -/
theorem packFirstFailedCheck : Obligations.PackFirstFailedCheck := by
  intro c s
  rw [show 128 = maxPartition from rfl]
  refine ⟨fun unmet => ?_, fun met short => ?_⟩
  · refine exec_pack_of_error (firstError_eq 0 5 (by simp) (by simp) fun met => unmet ?_) (by simp)
    simpa [and_assoc] using met
  · refine exec_pack_of_error (firstError_eq 5 1 ?_ (by simp) ?_) (by simp)
    · simpa [and_assoc] using met
    · simp [runBytes, Nat.not_le.2 short]

/-! ### UNPACK -/

theorem exec_unpack_of_ok (ok : unpackError c s = .ok) : exec (.unpack c) s = .next
    (complete (runBytes (opN s) (opW s)) (unpackCells (opW s) (opN s) (opBptr s) (opEptr s) (opElim s) s)) := if_pos ok

theorem exec_unpack_of_error {e : Err} (error : unpackError c s = e) (failed : e ≠ .ok) :
    exec (.unpack c) s = .next (errorReport e s) := by
  rw [← raise_unchanged_eq_errorReport, ← error]
  exact if_neg (error ▸ failed)

theorem field_lt (r : List Byte) (w i : Nat) : field r w i < 2 ^ w := bitsToNat_lt _ w

theorem le_cell_of_mem_wset {w : Nat} (hw : w ∈ wset c) : w ≤ 64 :=
  (le_elemWidth_of_mem_wset c w hw).trans (by cases c <;> decide)

/-- R151: the fields of a run of a width of `Wset` stand zero-extended in the cells from `e`. -/
theorem toNat_readCell_unpackCells {w n b e lim i : Nat} (width : w ≤ 64) (hi : i < n) :
    (readCell (unpackCells w n b e lim s).e (e + i)).toNat = field (readCells s.b b (runBytes n w)) w i := by
  have fits : field (readCells s.b b (runBytes n w)) w i < 2 ^ 64 :=
    (field_lt _ w i).trans_le (Nat.pow_le_pow_right (by decide) width)
  rw [unpackCells_e, readCell_writeCells_inside _ _ _ _ (by simp; omega),
    List.getD_append _ _ _ _ (by rwa [length_unpackBits]), getD_unpackBits _ _ _ _ hi, toNat_ofNat_of_lt fits]

theorem groupElems_pos (w : Nat) : 0 < groupElems w := by
  unfold groupElems group
  split <;> decide

theorem le_mul_cdiv (n : Nat) {b : Nat} (hb : 0 < b) : n ≤ b * cdiv n b := by
  have := Nat.div_add_mod (n + (b - 1)) b
  have := Nat.mod_lt (n + (b - 1)) hb
  unfold cdiv
  omega

/-- R152, R153: an unpacker writes up to the end of its last group, as far as the limit. -/
theorem readCell_unpackCells_outside {w n b e lim x : Nat} (room : e + n ≤ lim)
    (outside : ¬(e ≤ x ∧ x < e + (specEnd w n e lim - e))) :
    readCell (unpackCells w n b e lim s).e x = readCell s.e x := by
  have reaches : e + n ≤ specEnd w n e lim :=
    Nat.le_min.2 ⟨Nat.add_le_add_left (le_mul_cdiv n (groupElems_pos w)) e, room⟩
  refine readCell_writeCells_outside _ _ _ _ ?_
  simp only [List.length_append, length_unpackBits, length_freeElems]
  omega

/-- Settles O33: each field of the run is written, and no cell past the speculative ones. -/
theorem unpackWritesTheFields : Obligations.UnpackWritesTheFields := by
  intro c s elem_window byte_window width pos le_max source room
  have ok : unpackError c s = .ok :=
    unpackError_eq_ok.2 ⟨⟨elem_window, byte_window, width, pos, le_max⟩, source, room⟩
  have fields (i : Nat) (hi : i < opN s) := toNat_readCell_unpackCells (s := s) (b := opBptr s) (e := opEptr s)
    (lim := opElim s) (le_cell_of_mem_wset width) hi
  refine ⟨_, exec_unpack_of_ok ok, succeededWith_complete (lt_of_byte_end source) _, fields, ?_,
    fun x hx => readCell_unpackCells_outside room hx, rfl, ⟨rfl, fun _ => rfl⟩, registersKept_of_eq rfl, rfl, rfl⟩
  rintro rfl i hi
  exact (fields i hi).trans_lt ((field_lt _ _ i).trans_le
    (Nat.pow_le_pow_right (by decide) (le_elemWidth_of_mem_wset .c32 _ width)))

/-- Settles O34: `E_ARG` first, then `E_SRCSHORT`, then `E_DSTFULL`. -/
theorem unpackFirstFailedCheck : Obligations.UnpackFirstFailedCheck := by
  intro c s
  rw [show 128 = maxPartition from rfl]
  refine ⟨fun unmet => ?_, fun met short => ?_, fun met source full => ?_⟩
  · refine exec_unpack_of_error (firstError_eq 0 4 (by simp) (by simp) fun met => unmet ?_) (by simp)
    simpa [and_assoc] using met
  · refine exec_unpack_of_error (firstError_eq 4 1 ?_ (by simp) ?_) (by simp)
    · simpa [and_assoc] using met
    · simp [runBytes, Nat.not_le.2 short]
  · refine exec_unpack_of_error (firstError_eq 5 1 ?_ (by simp) ?_) (by simp)
    · simpa [and_assoc, runBytes, source] using met
    · simp [Nat.not_le.2 full]

/-! ### PACK and then UNPACK -/

/-- PACK ends well only where its checks hold. -/
theorem exec_pack_ok {t : State} (h : exec (.pack c) s = .next t) (succeeded : t.err = .ok) :
    packError c s = .ok ∧ t.result = BitVec.ofNat 64 (runBytes (opN s) (opW s)) ∧
      t.b = writeCells s.b (opBptr s) (packBits (sourceElems c s) (opW s)) := by
  by_cases ok : packError c s = .ok
  · obtain rfl := Host.Outcome.next.inj ((exec_pack_of_ok ok).symm.trans h)
    exact ⟨ok, rfl, rfl⟩
  · obtain rfl := Host.Outcome.next.inj ((exec_pack_of_error rfl ok).symm.trans h)
    exact absurd succeeded ok

/-- Settles O35: the run that UNPACK reads is the run that PACK wrote, whose fields are the low bits of the elements. -/
theorem unpackAfterPackRestoresTheElements : Obligations.UnpackAfterPackRestoresTheElements := by
  intro c s t u packed succeeded width n_eq w_eq elem_window byte_window room inside same
  obtain ⟨ok, result, memory⟩ := exec_pack_ok packed succeeded
  obtain ⟨⟨-, -, pos, le_max, -, -⟩, fits⟩ := packError_eq_ok.1 ok
  have count := length_sourceElems c s
  have size : t.result.toNat = runBytes (opN s) (opW s) := by rw [result, toNat_ofNat_of_lt (lt_of_byte_end fits)]
  have opN_eq : opN u = opN s := by rw [opN, opN, n_eq]
  have opW_eq : opW u = opW s := by rw [opW, opW, w_eq]
  rw [size] at inside same ⊢
  have run : readCells u.b (opBptr u) (runBytes (opN s) (opW s)) = packBits (sourceElems c s) (opW s) := by
    rw [← readCells_packed s.b c s, ← memory]
    exact List.map_congr_left fun k hk => same k (List.mem_range.1 hk)
  have unpacks : unpackError c u = .ok := unpackError_eq_ok.2
    ⟨⟨elem_window, byte_window, opW_eq ▸ width, opN_eq ▸ pos, opN_eq ▸ le_max⟩, by rwa [opN_eq, opW_eq], room⟩
  refine ⟨_, exec_unpack_of_ok unpacks, ?_, fun i hi => ?_⟩
  · rw [opN_eq, opW_eq]
    exact succeededWith_complete (lt_of_byte_end inside) _
  · rw [complete_e, opN_eq, opW_eq, toNat_readCell_unpackCells (le_cell_of_mem_wset width) hi, run,
      field_packBits _ _ i (by rwa [count]), getD_sourceElems hi]

end

end Sys2Proof.Machine
end

section
/-! The partitioner (42_partition.md R190, R191, R195, R198) and the width of a run (40_pack.md R133): the table it makes, and what
PARTITION stores of it. -/

namespace Sys2Proof.Machine

/-! ### The width of a run -/

/-- Settles O25: the width is in `Wset` and holds every element; a run of zeros has width 0 and no bytes. -/
theorem runWidthLosesNothing : Obligations.RunWidthLosesNothing := by
  intro c s fits
  refine ⟨runWidth_mem_wset fits, lt_two_pow_runWidth fits, fun zeros => ?_⟩
  have no_bits : maxBits s = 0 := Nat.le_zero.1 ((maxBits_le_iff s 0).2 fun x hx => by rw [zeros x hx, bitsNeeded_zero])
  have width : runWidth c s = 0 := by
    rw [runWidth, no_bits]
    exact roundUp_of_mem_wset c 0 (by cases c <;> decide)
  refine ⟨width, List.length_eq_zero_iff.1 ?_⟩
  rw [width, length_packBits, runBytes, Nat.mul_zero]
  rfl

/-! ### Valid tables -/

/-- Two successive boundaries of a valid table are one partition apart (R198). -/
theorem boundaryStep_of_isChain {t : List Nat} (chain : t.IsChain boundaryStep) {i : Nat} (hi : i + 1 < t.length) :
    boundaryStep (t.getD i 0) (t.getD (i + 1) 0) := by
  rw [List.getD_eq_getElem _ _ hi, List.getD_eq_getElem _ _ (by omega)]
  exact List.isChain_iff_getElem.1 chain i hi

/-- No boundary lies beyond the last. -/
theorem le_of_mem_of_isChain {t : List Nat} {m : Nat} (chain : t.IsChain boundaryStep) (last : t.getLast? = some m) :
    ∀ x ∈ t, x ≤ m := by
  have rising : t.Pairwise (· < ·) := (chain.imp fun _ _ step => step.1).pairwise
  obtain ⟨front, rfl⟩ := List.getLast?_eq_some_iff.1 last
  obtain ⟨-, -, below⟩ := List.pairwise_append.1 rising
  intro x hx
  rcases List.mem_append.1 hx with hx | hx
  · exact (below x hx m (by simp)).le
  · exact (List.mem_singleton.1 hx).le

/-- Settles O37: a computed table is valid, and a valid table is a chain from 0 to the number of elements. -/
theorem computedTableIsValid : Obligations.ComputedTableIsValid := by
  intro c s nonempty
  have valid := validParts_computePartition c s (List.length_pos_iff.2 nonempty)
  obtain ⟨⟨two, le⟩, head, last, chain⟩ := (validParts_iff _ _).1 valid
  exact ⟨valid, head, last, two, le, fun i hi => boundaryStep_of_isChain chain hi⟩

/-! ### Seeding -/

/-- Where every reference is to the element before, the backtrack passes every boundary (R195, R196). -/
theorem backtrack_of_singletons {refs : List Nat} {fuel j : Nat} (parts : List Nat) (enough : j ≤ fuel)
    (singletons : ∀ i, 1 ≤ i → i ≤ j → refs.getD i 0 = i - 1) :
    backtrack refs fuel j (j :: parts) = List.range (j + 1) ++ parts := by
  induction fuel generalizing j parts with
  | zero =>
    obtain rfl : j = 0 := by omega
    rfl
  | succ fuel ih =>
    cases j with
    | zero => exact backtrack_zero _ _ _
    | succ j =>
      have ref : refs.getD (j + 1) 0 = j := singletons (j + 1) (by omega) le_rfl
      rw [backtrack, if_neg (Nat.succ_ne_zero j), ref,
        ih (j := j) ((j + 1) :: parts) (by omega) fun i hi hij => singletons i hi (by omega), List.range_succ (n := j + 1),
        List.append_assoc, List.singleton_append]

/-- R195: entry `j < 128` of the arrays is that of a singleton. -/
theorem plan_seed (c : Codec) (s : List Elem) {j : Nat} (pos : 1 ≤ j) (short : j < maxPartition) (hn : j ≤ s.length) :
    (plan c s).cost.getD j 0 = (plan c s).cost.getD (j - 1) 0 + cdiv (bitsNeeded (s.getD (j - 1) 0)) 8 ∧
      (plan c s).refs.getD j 0 = j - 1 := by
  obtain ⟨k, rfl⟩ : ∃ k, j = k + 1 := ⟨j - 1, by omega⟩
  obtain ⟨cost, refs⟩ := getD_plan_succ c s hn (if_pos short)
  rw [cost, refs, Nat.add_sub_cancel, (getD_plan c s le_rfl (by omega)).1]
  exact ⟨rfl, rfl⟩

/-- Settles O39: the references of fewer than 128 elements are all to the element before. -/
theorem shortInputsAreSingletons : Obligations.ShortInputsAreSingletons := by
  refine fun c s => ⟨fun short => ?_, fun j pos short hn => (plan_seed c s pos short hn).symm⟩
  have table := backtrack_of_singletons (refs := (plan c s).refs) [] (le_refl s.length)
    fun i pos hi => (plan_seed c s pos (hi.trans_lt short) hi).2
  rwa [List.append_nil] at table

/-! ### PARTITION -/

section
variable {c : Codec} {s : State} {parts : List Nat}

theorem exec_partition_of_ok (ok : partitionError s = .ok) : exec (.partition c) s = .next
    (complete ((computePartition c (sourceElems c s)).length - 1)
      { storeParts (computePartition c (sourceElems c s)) s with work := workAfterPlan c (sourceElems c s) s.work }) :=
  if_pos ok

theorem exec_partition_of_error (failed : partitionError s ≠ .ok) :
    exec (.partition c) s = .next (errorReport .arg s) := by
  rw [← raise_unchanged_eq_errorReport, ← partitionError_eq_arg failed]
  exact if_neg failed

/-- A table whose entries and count fit 17 bits stands in P-space and `PCNT` as it is (R190, R212). -/
theorem storeParts_entries (fits : ∀ x ∈ parts, x < 2 ^ 17) (count : parts.length ≤ 2 ^ 17) (s : State) :
    (∀ i, i < parts.length → (readCell (storeParts parts s).p i).toNat = parts.getD i 0) ∧
      (storeParts parts s).pcnt.toNat = parts.length - 1 := by
  refine ⟨fun i hi => ?_, ?_⟩
  · have stored := readCell_writeCells_inside s.p 0
      (parts.map (BitVec.ofNat 17) ++ freeEntries s.fresh parts.length (pmemSize - parts.length)) i
      (by rw [List.length_append, List.length_map]; omega)
    rw [Nat.zero_add, List.getD_append _ _ _ _ (by rwa [List.length_map])] at stored
    rw [storeParts_p, stored, List.getD_eq_getElem _ _ (by rwa [List.length_map]), List.getElem_map,
      List.getD_eq_getElem _ _ hi, BitVec.toNat_ofNat, Nat.mod_eq_of_lt (fits _ (List.getElem_mem hi))]
  · rw [storeParts_pcnt, BitVec.toNat_ofNat, Nat.mod_eq_of_lt (by omega)]

/-- A valid table over the elements of a block fits P-space and its entries (R191, R198). -/
theorem fits_of_validParts {m : Nat} (valid : validParts parts m = true) (le_max : m ≤ blockMax - overrun) :
    (∀ x ∈ parts, x < 2 ^ 17) ∧ parts.length ≤ 2 ^ 17 := by
  obtain ⟨⟨-, le⟩, -, last, chain⟩ := (validParts_iff _ _).1 valid
  unfold blockMax overrun at le_max
  refine ⟨fun x hx => ?_, by omega⟩
  have := le_of_mem_of_isChain chain last x hx
  omega

/-- Settles O36: the table is valid, so that its entries fit; each failed check is `E_ARG`. -/
theorem partitionStoresTheTable : Obligations.PartitionStoresTheTable := by
  intro c s
  have ok : partitionError s = .ok ↔ elemWindowOk s ∧ 1 ≤ opN s ∧ opN s ≤ 65520 ∧ opEptr s + opN s ≤ opElim s :=
    partitionError_eq_ok
  refine ⟨fun met => ?_, fun unmet => exec_partition_of_error (unmet ∘ ok.1)⟩
  obtain ⟨-, pos, le_max, -⟩ := id met
  have count := length_sourceElems c s
  have valid := validParts_computePartition c (sourceElems c s) (by rwa [count])
  obtain ⟨fits, short⟩ := fits_of_validParts valid (by rwa [count])
  obtain ⟨entries, pcnt⟩ := storeParts_entries fits short s
  exact ⟨_, exec_partition_of_ok (ok.2 met), succeededWith_complete (by omega) _, entries, pcnt, rfl, rfl,
    registersKept_of_eq rfl, rfl, rfl, rfl⟩

end

end Sys2Proof.Machine
end

section
/-! ENCBLK (43_block.md R210 to R213, 30_encoding.md R101, R103): the raw block, the framed block cut by either table, and the
order of the checks. -/

namespace Sys2Proof.Machine

/-! ### Blocks as they stand in memory -/

section
variable {c : Codec} {m : Mem 8} {a : Nat}

/-- Raw elements as numbers, each where its family puts it (R103). -/
theorem memRead_of_standsAt_rawBytes {s : List Elem} {k : Nat} (h : StandsAt m a (rawBytes c s))
    (fits : ∀ x ∈ s, x.toNat < 2 ^ elemWidth c) (hk : k < s.length) :
    memRead m (a + k * elemBytes c) (elemBytes c) = (s.getD k 0).toNat := by
  induction s generalizing a k with
  | nil => simp at hk
  | cons x s ih =>
    obtain ⟨first, rest⟩ := (standsAt_append m a (natToBytes (elemBytes c) x.toNat) (rawBytes c s)).1 h
    rw [length_natToBytes] at rest
    cases k with
    | zero =>
      have x_fits : x.toNat < 256 ^ elemBytes c := by
        rw [show 256 = 2 ^ 8 from rfl, ← pow_mul, ← elemWidth_eq]
        exact fits x (by simp)
      rw [Nat.zero_mul, Nat.add_zero, memRead_of_standsAt first x_fits, List.getD_cons_zero]
    | succ k =>
      rw [Nat.succ_mul, Nat.add_comm _ (elemBytes c), ← Nat.add_assoc, List.getD_cons_succ]
      exact ih rest (fun y hy => fits y (List.mem_cons_of_mem x hy)) (by simpa using hk)

/-- Each run of a block stands behind the runs before it (R101). -/
theorem standsAt_segmentRun {segs : List (List Elem)} {i : Nat} (h : StandsAt m a (packedRuns c segs))
    (hi : i < segs.length) : StandsAt m (a + dataBytes c (segs.take i)) (segmentRun c (segs.getD i [])) := by
  induction segs generalizing a i with
  | nil => simp at hi
  | cons seg segs ih =>
    rw [packedRuns_cons, standsAt_append, length_segmentRun] at h
    cases i with
    | zero => exact h.1
    | succ i =>
      rw [List.take_succ_cons, dataBytes_cons, ← Nat.add_assoc, List.getD_cons_succ]
      exact ih h.2 (by simpa using hi)

/-- R101: the bytes of a framed block, part by part. -/
theorem framedBlockAt_of_standsAt {elems : List Elem} {parts : List Nat} (input : FramedInput c elems parts)
    (h : StandsAt m a (framedBytes c elems parts)) : framedBlockAt c elems parts m a := by
  obtain ⟨size, offset⟩ := input.memRead_header h
  obtain ⟨-, -, ctrls, runs, tail⟩ := standsAt_framedBytes h
  have tail_length := input.length_tail
  refine ⟨size, offset, fun i hi => ?_, fun i hi => ?_, fun k hk => ?_⟩
  · have ctrl := (standsAt_iff _ _ _).1 ctrls i (by rwa [List.length_map])
    rw [ctrl, List.getD_eq_getElem _ _ (by rwa [List.length_map]), List.getElem_map, List.getD_eq_getElem _ _ hi]
    rfl
  · have run := standsAt_segmentRun runs hi
    rwa [StandsAt, length_segmentRun, ← Nat.add_assoc] at run
  · have elem := memRead_of_standsAt_rawBytes tail (fun x hx => input.fits x (List.mem_of_mem_drop hx))
      (k := k) (by rwa [tail_length])
    rw [← Nat.add_assoc] at elem
    rw [elem, List.getD_eq_getElem?_getD, List.getElem?_drop, ← List.getD_eq_getElem?_getD]
    rfl

end

/-! ### What ENCBLK answers -/

section
variable {c : Codec} {pext : Bool} {s : State}

theorem exec_encblk_of_ok (ok : encblkError c pext s = .ok) : exec (.encblk c pext) s = .next
    (complete (encblkBlock c pext s).size
      { storeBlockParts pext (encblkBlock c pext s).parts s with
        b := writeCells s.b (opBptr s) (encblkBlock c pext s).bytes
        work := (encblkBlock c pext s).work }) := if_pos ok

theorem exec_encblk_of_error {e : Err} (error : encblkError c pext s = e) (failed : e ≠ .ok) :
    exec (.encblk c pext) s = .next (raise (.bytes !pext) e s) := by
  rw [← error]
  exact if_neg (error ▸ failed)

/-- R290, R291: what an error of an encoder leaves. -/
theorem encodeFailed_raise (parts : Bool) (e : Err) (s : State) : encodeFailed s (raise (.bytes parts) e s) e parts := by
  refine ⟨⟨rfl, rfl, rfl, rfl⟩, raise_bytes_kept parts e s, (raise_kept_outside _ e s).1, ?_, registersKept_raise _ e s,
    raise_cur _ e s, raise_work _ e s⟩
  rintro rfl
  obtain ⟨table, pcnt⟩ := raise_bytes_false_parts e s
  exact ⟨pcnt, fun i => by rw [table]⟩

theorem encblkBlock_of_short (pext : Bool) (short : opN s < rawThreshold) :
    encblkBlock c pext s = encodeRaw c (sourceElems c s) s.work := by
  have count := length_sourceElems c s
  rw [encblkBlock, if_neg (by omega), encodeBlock, if_pos (by omega)]

theorem encblkBlock_of_host_table (long : rawThreshold ≤ opN s) :
    encblkBlock c true s = encodeFramed c (sourceElems c s) (hostParts s) s.work := if_pos ⟨rfl, long⟩

theorem encblkBlock_of_own_table (long : rawThreshold ≤ opN s) :
    encblkBlock c false s =
      encodeFramed c (sourceElems c s) (computePartition c ((sourceElems c s).take (opN s - overrun)))
        (workAfterPlan c ((sourceElems c s).take (opN s - overrun)) s.work) := by
  have count := length_sourceElems c s
  rw [encblkBlock, if_neg (by simp), encodeBlock, if_neg (by omega), count]

theorem size_encodeRaw (k : Work) : (encodeRaw c (sourceElems c s) k).size = opN s * elemBytes c := by
  rw [encodeRaw, length_sourceElems]

/-- The block stands at `BPTR` where ENCBLK wrote it, and no other byte is touched. -/
theorem encblk_block_written (checked : EncblkChecked pext s) :
    StandsAt (writeCells s.b (opBptr s) (encblkBlock c pext s).bytes) (opBptr s) (encblkBlock c pext s).bytes ∧
      ∀ x, ¬(opBptr s ≤ x ∧ x < opBptr s + (encblkBlock c pext s).size) →
        readCell (writeCells s.b (opBptr s) (encblkBlock c pext s).bytes) x = readCell s.b x := by
  refine ⟨standsAt_writeCells _ _ _, fun x hx => readCell_writeCells_outside _ _ _ _ ?_⟩
  rwa [(encblkBlock_bytes c checked).1]

/-- Settles O41: the raw block stands at `BPTR`, and no table is stored for it. -/
theorem encblkWritesARawBlock : Obligations.EncblkWritesARawBlock := by
  intro c pext s elem_window byte_window pos short source room
  have checked : EncblkChecked pext s :=
    ⟨pos, short.le.trans (by decide), fun _ long => absurd short (Nat.not_lt.2 long)⟩
  have block := encblkBlock_of_short (c := c) pext short
  have ok : encblkError c pext s = .ok := encblkError_eq_ok.2
    ⟨⟨elem_window, byte_window, source⟩, checked, by rwa [block, size_encodeRaw]⟩
  obtain ⟨stands, outside⟩ := encblk_block_written (c := c) checked
  have answer := exec_encblk_of_ok ok
  have no_table : storeBlockParts pext none s = s := by cases pext <;> rfl
  rw [block] at stands outside answer
  rw [size_encodeRaw] at outside answer
  rw [show (encodeRaw c (sourceElems c s) s.work).parts = none from rfl, no_table] at answer
  refine ⟨_, answer, succeededWith_complete (lt_of_byte_end room) _, fun k hk => ?_, outside, rfl, ⟨rfl, fun _ => rfl⟩,
    registersKept_of_eq rfl, rfl, rfl⟩
  rw [← getD_sourceElems hk]
  exact memRead_of_standsAt_rawBytes stands (fits_sourceElems c s) (by rwa [length_sourceElems])

/-- A framed block that fits: its parts stand in their places (R101, R213). -/
theorem encblk_framed_written {parts : List Nat} {k : Work} (checked : EncblkChecked pext s)
    (long : rawThreshold ≤ opN s) (valid : validParts parts (opN s - overrun) = true)
    (block : encblkBlock c pext s = encodeFramed c (sourceElems c s) parts k) :
    framedBlockAt c (sourceElems c s) parts (writeCells s.b (opBptr s) (encblkBlock c pext s).bytes) (opBptr s) := by
  have count := length_sourceElems c s
  have stands := (encblk_block_written (c := c) checked).1
  have input : FramedInput c (sourceElems c s) parts :=
    ⟨by rwa [count], by rw [count]; exact checked.le_blockMax, by rwa [count], fits_sourceElems c s⟩
  rw [show (encblkBlock c pext s).bytes = framedBytes c (sourceElems c s) parts by rw [block, encodeFramed]] at stands ⊢
  exact framedBlockAt_of_standsAt input stands

theorem validParts_own_table (c : Codec) (long : rawThreshold ≤ opN s) :
    validParts (computePartition c ((sourceElems c s).take (opN s - overrun))) (opN s - overrun) = true := by
  have front : ((sourceElems c s).take (opN s - overrun)).length = opN s - overrun := by
    rw [List.length_take, length_sourceElems]; omega
  have valid := validParts_computePartition c ((sourceElems c s).take (opN s - overrun))
    (by rw [front]; unfold rawThreshold at long; unfold overrun; omega)
  rwa [front] at valid

/-- Settles O42: the engine's own table is valid, so that the framed block stands in its places and the table in P-space. -/
theorem encblkWritesAFramedBlock : Obligations.EncblkWritesAFramedBlock := by
  rintro c s elems parts elem_window byte_window long le_blockMax source rfl rfl room
  have checked : EncblkChecked false s := ⟨by omega, le_blockMax, by simp⟩
  have block := encblkBlock_of_own_table (c := c) long
  have valid := validParts_own_table c long
  have ok : encblkError c false s = .ok := encblkError_eq_ok.2
    ⟨⟨elem_window, byte_window, source⟩, checked, by rwa [block]⟩
  obtain ⟨fits, short⟩ := fits_of_validParts valid (by unfold blockMax overrun; omega)
  obtain ⟨entries, pcnt⟩ := storeParts_entries fits short s
  have written := encblk_framed_written checked long valid block
  have outside := (encblk_block_written (c := c) checked).2
  have answer := exec_encblk_of_ok ok
  rw [block] at written outside answer
  exact ⟨_, answer, succeededWith_complete (lt_of_byte_end room) _, written, outside, entries, pcnt, rfl,
    registersKept_of_eq rfl, rfl⟩

theorem hostParts_eq (s : State) : hostParts s = (List.range (opPcnt s + 1)).map fun i => (readCell s.p i).toNat := by
  simp [hostParts, readCells, Function.comp_def]

/-- The packer does not touch the partitioner's arrays (R40). -/
theorem encodeFramed_arrays (c : Codec) (elems : List Elem) (parts : List Nat) (k : Work) :
    (encodeFramed c elems parts k).work.cost = k.cost ∧ (encodeFramed c elems parts k).work.refs = k.refs := by
  unfold encodeFramed
  generalize segments elems parts = segs
  induction segs generalizing k with
  | nil => exact ⟨rfl, rfl⟩
  | cons seg segs ih =>
    obtain ⟨cost, refs⟩ := workAfterRun_arrays c seg (runWidth c seg) k
    obtain ⟨cost', refs'⟩ := ih (workAfterRun c seg (runWidth c seg) k)
    exact ⟨cost'.trans cost, refs'.trans refs⟩

/-- Settles O43: with the host's valid table the block stands in its places, and no table is stored. -/
theorem encblkUsesTheHostsTable : Obligations.EncblkUsesTheHostsTable := by
  rintro c s elems parts elem_window byte_window long le_blockMax source rfl rfl valid room
  rw [← hostParts_eq] at valid room ⊢
  have checked : EncblkChecked true s := ⟨by omega, le_blockMax, fun _ _ => valid⟩
  have block := encblkBlock_of_host_table (c := c) long
  have ok : encblkError c true s = .ok := encblkError_eq_ok.2
    ⟨⟨elem_window, byte_window, source⟩, checked, by rwa [block]⟩
  obtain ⟨cost, refs⟩ := encodeFramed_arrays c (sourceElems c s) (hostParts s) s.work
  have written := encblk_framed_written checked long valid block
  have outside := (encblk_block_written (c := c) checked).2
  have answer := exec_encblk_of_ok ok
  rw [block] at written outside answer
  exact ⟨_, answer, succeededWith_complete (lt_of_byte_end room) _, written, outside, rfl, ⟨rfl, fun _ => rfl⟩,
    registersKept_of_eq rfl, rfl, cost, refs⟩

/-! ### The order of the checks -/

/-- The checks of ENCBLK that come before its table (R210, R261). -/
abbrev encblkArgsOk (s : State) : Prop :=
  elemWindowOk s ∧ byteWindowOk s ∧ 1 ≤ opN s ∧ opN s ≤ blockMax ∧ opEptr s + opN s ≤ opElim s

theorem encblkError_eq_arg (unmet : ¬ encblkArgsOk s) : encblkError c pext s = .arg := by
  refine firstError_eq 0 4 (by simp) (by simp) fun met => unmet ?_
  simpa [and_assoc] using met

theorem encblkError_eq_part (met : encblkArgsOk s) (long : rawThreshold ≤ opN s)
    (invalid : validParts (hostParts s) (opN s - overrun) = false) : encblkError c true s = .part := by
  refine firstError_eq 4 1 ?_ (by simp) ?_
  · simpa [and_assoc] using met
  · simp [invalid, Nat.not_lt.2 long]

theorem encblkError_eq_dstfull (met : encblkArgsOk s)
    (table : pext = true → rawThreshold ≤ opN s → validParts (hostParts s) (opN s - overrun) = true)
    (full : opBlim s < opBptr s + (encblkBlock c pext s).size) : encblkError c pext s = .dstfull := by
  have table_ok : (!pext || decide (opN s < rawThreshold) || validParts (hostParts s) (opN s - overrun)) = true := by
    cases pext with
    | false => rfl
    | true =>
      by_cases short : opN s < rawThreshold
      · simp [short]
      · simp [table rfl (Nat.le_of_not_lt short)]
  refine firstError_eq 5 1 ?_ (by simp) ?_
  · simpa [and_assoc, table_ok] using met
  · simp [Nat.not_le.2 full]

/-- Settles O44: `E_ARG`, then `E_PART`, then `E_DSTFULL` for the size of the block, which is one of three. -/
theorem encblkFirstFailedCheck : Obligations.EncblkFirstFailedCheck := by
  rintro c pext s elems parts host rfl rfl rfl
  rw [← hostParts_eq]
  refine ⟨fun unmet => ?_, fun met => ⟨?_, fun short full => ?_, ?_, ?_⟩⟩
  · rw [exec_encblk_of_error (encblkError_eq_arg unmet) (by simp), raise_of_leavesMemory _ _ _ rfl]
    rfl
  · rintro rfl long invalid
    rw [exec_encblk_of_error (encblkError_eq_part met long invalid) (by simp), raise_of_leavesMemory _ _ _ rfl]
    rfl
  · refine ⟨_, exec_encblk_of_error (encblkError_eq_dstfull met (fun _ long => absurd short (Nat.not_lt.2 long)) ?_) (by simp),
      encodeFailed_raise _ _ _⟩
    rwa [encblkBlock_of_short pext short, size_encodeRaw]
  · rintro rfl long full
    refine ⟨_, exec_encblk_of_error (encblkError_eq_dstfull met (by simp) ?_) (by simp), encodeFailed_raise _ _ _⟩
    rwa [encblkBlock_of_own_table long]
  · rintro rfl long valid full
    refine ⟨_, exec_encblk_of_error (encblkError_eq_dstfull met (fun _ _ => valid) ?_) (by simp), encodeFailed_raise _ _ _⟩
    rwa [encblkBlock_of_host_table long]

end

end Sys2Proof.Machine
end

section
/-! DECBLK, DECFRM and the turns of a framed decode (43_block.md R217 to R221, 44_frame.md R242, 41_unpack.md R151): what each
reads and writes, and the order of the checks. -/

namespace Sys2Proof.Machine

section
variable {c : Codec} {s : State} {a e0 rem : Nat}

/-! ### Raw elements -/

theorem memRead_lt (m : Mem 8) (a n : Nat) : memRead m a n < 256 ^ n := by
  induction n with
  | zero => simp
  | succ n ih =>
    have last : (readCell m (a + n)).toNat < 256 := (readCell m (a + n)).isLt
    rw [memRead_succ, pow_succ]
    omega

theorem memRead_elem_lt (m : Mem 8) (a : Nat) (c : Codec) : memRead m a (elemBytes c) < 2 ^ 64 :=
  (memRead_lt m a _).trans_le ((Nat.pow_le_pow_right (by decide) (elemBytes_le c)).trans (by decide))

/-- R218: a raw element is read big-endian. -/
theorem toNat_readCell_decodeRaw {n b e k : Nat} (hk : k < n) :
    (readCell (decodeRaw c n b e s).e (e + k)).toNat = memRead s.b (b + k * elemBytes c) (elemBytes c) := by
  have elem : (rawElems c s.b b n).getD k 0 = BitVec.ofNat 64 (memRead s.b (b + k * elemBytes c) (elemBytes c)) := by
    simp [rawElems, List.getD, hk]
  rw [decodeRaw_e, readCell_writeCells_inside _ _ _ _ (by rwa [length_rawElems]), elem,
    toNat_ofNat_of_lt (memRead_elem_lt _ _ c)]

theorem readCell_decodeRaw_outside {n b e x : Nat} (outside : ¬(e ≤ x ∧ x < e + n)) :
    readCell (decodeRaw c n b e s).e x = readCell s.e x :=
  readCell_writeCells_outside _ _ _ _ (by rwa [length_rawElems])

/-! ### The next block -/

/-- Fewer than 144 elements are read raw, and the decode ends behind them (R218, R242). -/
theorem beginBlock_short (c : Codec) (e0 : Nat) (short : rem < rawThreshold) (inside : a + rem * elemBytes c ≤ opBlim s) :
    ∃ e, beginBlock c a e0 rem s = complete (a + rem * elemBytes c - opBptr s) { s with e := e } ∧
      (∀ k, k < rem → (readCell e (e0 + k)).toNat = memRead s.b (a + k * elemBytes c) (elemBytes c)) ∧
      ∀ x, ¬(e0 ≤ x ∧ x < e0 + rem) → readCell e x = readCell s.e x := by
  by_cases none_left : rem = 0
  · subst none_left
    exact ⟨s.e, by rw [beginBlock, if_pos rfl, Nat.zero_mul, Nat.add_zero], by simp, fun _ _ => rfl⟩
  · exact ⟨_, by rw [beginBlock, if_neg none_left, if_pos short, if_pos inside]; rfl,
      fun k hk => toNat_readCell_decodeRaw hk, fun x hx => readCell_decodeRaw_outside hx⟩

theorem beginBlock_srcshort (c : Codec) (e0 : Nat) (start : a ≤ opBlim s) (short : rem < rawThreshold)
    (beyond : opBlim s < a + rem * elemBytes c) : beginBlock c a e0 rem s = raise .elems .srcshort s := by
  have some_left : rem ≠ 0 := by
    rintro rfl
    omega
  rw [beginBlock, if_neg some_left, if_pos short, if_neg (by omega)]

/-- More elements are a framed block, which is entered when its header passes its checks (R219, R242). -/
theorem beginBlock_enters (e0 : Nat) (long : rawThreshold ≤ rem) (header : a + 8 ≤ opBlim s)
    (offset : 8 ≤ memRead s.b (a + 4) 4) (size : memRead s.b (a + 4) 4 + 16 * elemBytes c ≤ memRead s.b a 4)
    (inside : a + memRead s.b a 4 ≤ opBlim s) :
    beginBlock c a e0 rem s =
      { s with phase := .control, cur := blockCursor c (min rem blockMax) a e0 (rem - min rem blockMax) s } := by
  have ok : headerError c a s = .ok := (headerError_eq_ok c a s).2 ⟨header, offset, size, inside⟩
  rw [beginBlock, if_neg (by unfold rawThreshold at long; omega), if_neg (by omega), if_pos ok]

theorem beginBlock_header_error {e : Err} (e0 : Nat) (long : rawThreshold ≤ rem) (error : headerError c a s = e)
    (failed : e ≠ .ok) : beginBlock c a e0 rem s = raise .elems e s := by
  rw [beginBlock, if_neg (by unfold rawThreshold at long; omega), if_neg (by omega), if_neg (error ▸ failed), error]

/-- R221: no header in the window. -/
theorem headerError_no_header (c : Codec) (beyond : opBlim s < a + 8) : headerError c a s = .srcshort :=
  firstError_eq 0 1 (by simp) (by simp) (by simp [Nat.not_le.2 beyond])

/-- R221: a header that cannot be. -/
theorem headerError_bad_header (header : a + 8 ≤ opBlim s)
    (bad : ¬(8 ≤ memRead s.b (a + 4) 4 ∧ memRead s.b (a + 4) 4 + 16 * elemBytes c ≤ memRead s.b a 4)) :
    headerError c a s = .frame :=
  firstError_eq 1 1 (by simp [header]) (by simp) (by simpa using bad)

/-- R221: no room for the block. -/
theorem headerError_no_block (header : a + 8 ≤ opBlim s)
    (good : 8 ≤ memRead s.b (a + 4) 4 ∧ memRead s.b (a + 4) 4 + 16 * elemBytes c ≤ memRead s.b a 4)
    (beyond : opBlim s < a + memRead s.b a 4) : headerError c a s = .srcshort :=
  firstError_eq 2 1 (by simp [header, good]) (by simp) (by simp [Nat.not_le.2 beyond])

/-- R290, R291: what an error of a decoder leaves. -/
theorem decodeFailed_raise (e : Err) (s : State) : decodeFailed s (raise .elems e s) e := by
  obtain ⟨bytes, table, pcnt⟩ := raise_elems_kept e s
  exact ⟨⟨rfl, rfl, rfl, rfl⟩, bytes, (raise_kept_outside .elems e s).2, ⟨pcnt, fun i => by rw [table]⟩,
    registersKept_raise _ e s, raise_cur _ e s, raise_work _ e s⟩

/-- A block that cannot begin fails the decode (R218, R219, R221), at its first check that fails. -/
theorem decodeFailed_beginBlock {e : Err} (h : beginBlock c a e0 rem s = raise .elems e s) :
    decodeFailed s (beginBlock c a e0 rem s) e := h ▸ decodeFailed_raise e s

/-! ### DECBLK -/

theorem exec_decblk_of_ok (ok : decblkError s = .ok) :
    exec (.decblk c) s = .next (beginBlock c (opBptr s) (opEptr s) (opN s) s) := if_pos ok

theorem exec_decblk_of_error {e : Err} (error : decblkError s = e) (failed : e ≠ .ok) :
    exec (.decblk c) s = .next (raise .elems e s) := by
  rw [← error]
  exact if_neg (error ▸ failed)

/-- Settles O46: the block is short, and its elements are read where they stand. -/
theorem decblkReadsARawBlock : Obligations.DecblkReadsARawBlock := by
  intro c s elem_window byte_window pos short room inside
  have ok : decblkError s = .ok :=
    decblkError_eq_ok.2 ⟨⟨elem_window, byte_window, pos, short.le.trans (by decide)⟩, room⟩
  obtain ⟨e, block, elems, outside⟩ := beginBlock_short c (opEptr s) short inside
  rw [Nat.add_sub_cancel_left] at block
  exact ⟨_, (exec_decblk_of_ok ok).trans (congrArg _ block), succeededWith_complete (lt_of_byte_end inside) _, elems, outside,
    rfl, ⟨rfl, fun _ => rfl⟩, registersKept_of_eq rfl, rfl, rfl⟩

/-- Settles O47: the header passes its checks, and the block is the whole command. -/
theorem decblkEntersAFramedBlock : Obligations.DecblkEntersAFramedBlock := by
  intro c s elem_window byte_window long le_blockMax room header offset size inside
  have ok : decblkError s = .ok := decblkError_eq_ok.2 ⟨⟨elem_window, byte_window, by omega, le_blockMax⟩, room⟩
  have block := beginBlock_enters (opEptr s) long header offset size inside
  rw [show min (opN s) blockMax = opN s from Nat.min_eq_left le_blockMax, Nat.sub_self] at block
  exact (exec_decblk_of_ok ok).trans (congrArg _ block)

/-- Settles O48: the checks of the command, and then those of its one block. -/
theorem decblkFirstFailedCheck : Obligations.DecblkFirstFailedCheck := by
  intro c s
  rw [show 65536 = blockMax from rfl]
  refine ⟨fun unmet => ?_, fun met => ⟨fun full => ?_, fun room => ?_⟩⟩
  · rw [exec_decblk_of_error (e := .arg) ?_ (by simp), raise_of_leavesMemory _ _ _ rfl]
    · rfl
    · refine firstError_eq 0 3 (by simp) (by simp) fun met => unmet ?_
      simpa [and_assoc] using met
  · refine ⟨_, exec_decblk_of_error (firstError_eq 3 1 ?_ (by simp) ?_) (by simp), decodeFailed_raise _ _⟩
    · simpa [and_assoc] using met
    · simp [Nat.not_le.2 full]
  · have begun := exec_decblk_of_ok (c := c) (decblkError_eq_ok.2 ⟨met, room⟩)
    obtain ⟨-, ⟨byte_window, -⟩, -⟩ := met
    exact
      ⟨fun short beyond => ⟨_, begun, decodeFailed_beginBlock (beginBlock_srcshort c _ byte_window short beyond)⟩,
       fun long beyond => ⟨_, begun, decodeFailed_beginBlock
        (beginBlock_header_error _ long (headerError_no_header c beyond) (by simp))⟩,
       fun long header bad => ⟨_, begun, decodeFailed_beginBlock
        (beginBlock_header_error _ long (headerError_bad_header header bad) (by simp))⟩,
       fun long header good beyond => ⟨_, begun, decodeFailed_beginBlock
        (beginBlock_header_error _ long (headerError_no_block header good beyond) (by simp))⟩⟩

/-! ### DECFRM -/

theorem exec_decfrm_of_ok (ok : decfrmError c s = .ok) :
    exec (.decfrm c) s = .next (beginBlock c (opBptr s + 8) (opEptr s) (opN s) s) := if_pos ok

theorem exec_decfrm_of_error {e : Err} (error : decfrmError c s = e) (failed : e ≠ .ok) :
    exec (.decfrm c) s = .next (raise .elems e s) := by
  rw [← error]
  exact if_neg (error ▸ failed)

/-- Settles O57: behind the magic the stream begins with its first block, which is the last where it is short. -/
theorem decfrmReadsTheStream : Obligations.DecfrmReadsTheStream := by
  intro c s elem_window byte_window room magic_room magic
  have begun := exec_decfrm_of_ok (decfrmError_eq_ok.2 ⟨⟨elem_window, byte_window, room, magic_room⟩, magic⟩)
  refine ⟨fun short inside => ?_, fun long header offset size inside => ?_⟩
  · obtain ⟨e, block, elems, outside⟩ := beginBlock_short c (opEptr s) short inside
    rw [Nat.add_assoc] at inside
    rw [Nat.add_assoc, Nat.add_sub_cancel_left] at block
    exact ⟨_, begun.trans (congrArg _ block), succeededWith_complete (lt_of_byte_end inside) _, elems, outside, rfl,
      ⟨rfl, fun _ => rfl⟩, registersKept_of_eq rfl, rfl, rfl⟩
  · exact begun.trans (congrArg _ (beginBlock_enters (a := opBptr s + 8) (opEptr s) long header offset size inside))

/-- Settles O58: the checks of the command, and then those of its first block. -/
theorem decfrmFirstFailedCheck : Obligations.DecfrmFirstFailedCheck := by
  intro c s
  refine ⟨fun unmet => ?_, fun met full => ?_, fun met beyond => ?_, fun met other => ?_, fun met => ?_⟩
  · rw [exec_decfrm_of_error (e := .arg) ?_ (by simp), raise_of_leavesMemory _ _ _ rfl]
    · rfl
    · refine firstError_eq 0 2 (by simp) (by simp) fun met => unmet ?_
      simpa [and_assoc] using met
  · refine ⟨_, exec_decfrm_of_error (firstError_eq 2 1 ?_ (by simp) ?_) (by simp), decodeFailed_raise _ _⟩
    · simpa [and_assoc] using met
    · simp [Nat.not_le.2 full]
  · refine ⟨_, exec_decfrm_of_error (firstError_eq 3 1 ?_ (by simp) ?_) (by simp), decodeFailed_raise _ _⟩
    · simpa [and_assoc] using met
    · simp [Nat.not_le.2 beyond]
  · refine ⟨_, exec_decfrm_of_error (firstError_eq 4 1 ?_ (by simp) ?_) (by simp), decodeFailed_raise _ _⟩
    · simpa [and_assoc] using met
    · simp [other]
  · obtain ⟨elem_window, byte_window, room, magic_room, magic⟩ := met
    have begun := exec_decfrm_of_ok (decfrmError_eq_ok.2 ⟨⟨elem_window, byte_window, room, magic_room⟩, magic⟩)
    exact
      ⟨fun short beyond => ⟨_, begun, decodeFailed_beginBlock (beginBlock_srcshort c _ magic_room short beyond)⟩,
       fun long beyond => ⟨_, begun, decodeFailed_beginBlock
        (beginBlock_header_error _ long (headerError_no_header c beyond) (by simp))⟩,
       fun long header bad => ⟨_, begun, decodeFailed_beginBlock
        (beginBlock_header_error _ long (headerError_bad_header header bad) (by simp))⟩,
       fun long header good beyond => ⟨_, begun, decodeFailed_beginBlock
        (beginBlock_header_error _ long (headerError_no_block header good beyond) (by simp))⟩⟩

/-! ### The control bytes -/

/-- The control bytes of the length code `p` that have an unpacker, with their widths (R95). -/
def unpackers (p : BitVec 4) : List (Instr × Nat) :=
  [(.unpack0 p, 0), (.unpack1 p, 1), (.unpack2 p, 2), (.unpack3 p, 3), (.unpack4 p, 4), (.unpack5 p, 5), (.unpack6 p, 6),
    (.unpack7 p, 7), (.unpack8 p, 8), (.unpack9 p, 9), (.unpack10 p, 10), (.unpack11 p, 11), (.unpack12 p, 12),
    (.unpack16 p, 16), (.unpack32 p, 32), (.unpack64 p, 64)]

theorem exec_of_mem_unpackers {p : BitVec 4} {x : Instr × Nat} (hx : x ∈ unpackers p) (s : State) :
    exec x.1 s = unpackPartition x.2 p s := by
  unfold unpackers at hx
  fin_cases hx <;> rfl

theorem unpackPartition_of_error {w : Nat} {p : BitVec 4} {e : Err} (error : ctrlError w p s = e) (failed : e ≠ .ok) :
    unpackPartition w p s = .next (raise .elems e s) := by
  rw [unpackPartition, if_neg (error ▸ failed), error]

/-- Settles O49: the sixteen are one meaning with a width, which is UNPACK below `dlimit`. -/
theorem controlBytesDecodeTheirPartition : Obligations.ControlBytesDecodeTheirPartition := by
  rintro p s l rfl x hx width run room
  have ok : ctrlError x.2 p s = .ok := (ctrlError_eq_ok _ _ _).2 ⟨width, run, room⟩
  refine ⟨_, (exec_of_mem_unpackers hx s).trans (if_pos ok),
    fun i hi => toNat_readCell_unpackCells (le_cell_of_mem_wset width) hi,
    fun y hy => readCell_unpackCells_outside room hy, rfl, rfl, rfl, rfl, rfl, rfl, ⟨rfl, fun _ => rfl⟩,
    registersKept_of_eq rfl, rfl⟩

/-- Settles O50: the width, the run, the elements. -/
theorem controlByteErrorsInOrder : Obligations.ControlByteErrorsInOrder := by
  rintro p s l rfl
  refine ⟨⟨_, rfl, decodeFailed_raise _ _⟩, fun x hx => ?_⟩
  rw [exec_of_mem_unpackers hx]
  refine ⟨fun no_unpacker => ?_, fun width beyond => ?_, fun width run full => ?_⟩
  · exact ⟨_, unpackPartition_of_error (firstError_eq 0 1 (by simp) (by simp) (by simp [no_unpacker])) (by simp),
      decodeFailed_raise _ _⟩
  · exact ⟨_, unpackPartition_of_error (firstError_eq 1 1 (by simp [width]) (by simp)
      (by simp [runBytes, Nat.not_le.2 beyond])) (by simp), decodeFailed_raise _ _⟩
  · exact ⟨_, unpackPartition_of_error (firstError_eq 2 1 (by simp [width, runBytes, run]) (by simp)
      (by simp [Nat.not_le.2 full])) (by simp), decodeFailed_raise _ _⟩

/-! ### The end of a framed block -/

/-- The state with the tail in place (R219). -/
abbrev withTail (s : State) : State := decodeRaw s.cur.codec overrun s.cur.byte s.cur.elem s

theorem finishBlock_of_ends
    (ends : s.cur.elem + 16 = s.cur.dlimit ∧ s.cur.byte + 16 * elemBytes s.cur.codec = s.cur.slimit) :
    finishBlock s = beginBlock s.cur.codec s.cur.slimit s.cur.dlimit s.cur.rem (withTail s) :=
  if_pos ((tailError_eq_ok s).2 ends)

/-- The end of a block has no other error (R219). -/
theorem tailError_eq_frame (failed : tailError s ≠ .ok) : tailError s = .frame := by
  obtain ⟨x, mem, -, source⟩ := firstError_mem _ failed
  rw [tailError, ← source]
  revert x
  simp

/-- Settles O51: the tail where the cursors are, and then the next block as any other. -/
theorem tailEndsTheBlock : Obligations.TailEndsTheBlock := by
  intro s host phase used_up
  rw [step_blockEnd host phase used_up]
  refine ⟨fun ends short inside => ?_, fun ends long header offset size inside => ?_, fun elsewhere => ?_⟩
  · obtain ⟨elems_end, -⟩ := id ends
    obtain ⟨e, block, elems, outside⟩ := beginBlock_short (s := withTail s) s.cur.codec s.cur.dlimit short inside
    have small : s.cur.slimit + s.cur.rem * elemBytes s.cur.codec - opBptr s < 2 ^ 64 := by
      have limit : opBlim s < 2 ^ 64 := s.latch.blim.isLt
      omega
    rw [finishBlock_of_ends ends, block]
    refine ⟨_, rfl, succeededWith_complete small _, fun k hk => ?_, elems, fun x hx => ?_, rfl, ⟨rfl, fun _ => rfl⟩,
      registersKept_of_eq rfl, rfl⟩
    · rw [complete_e, outside _ (by omega)]
      exact toNat_readCell_decodeRaw hk
    · rw [complete_e, outside x (by omega)]
      exact readCell_decodeRaw_outside (by unfold overrun; omega)
  · have block := beginBlock_enters (s := withTail s) s.cur.dlimit long header offset size inside
    rw [finishBlock_of_ends ends, block]
    exact ⟨_, rfl, rfl, fun k hk => toNat_readCell_decodeRaw hk, fun x hx => readCell_decodeRaw_outside hx, rfl, rfl, rfl, rfl,
      rfl, ⟨rfl, fun _ => rfl⟩, registersKept_of_eq rfl, rfl⟩
  · have error := tailError_eq_frame (elsewhere ∘ (tailError_eq_ok s).1)
    rw [finishBlock, if_neg (by simp [error]), error]
    exact ⟨_, rfl, decodeFailed_raise _ _⟩

/-- The tail lies in the destination, so that an error behind it is an error of the command (R290, R291). -/
theorem decodeFailed_withTail {t : State} {e : Err} (cursors : cursorOk s) (elems_end : s.cur.elem + 16 = s.cur.dlimit)
    (failed : decodeFailed (withTail s) t e) : decodeFailed s t e := by
  obtain ⟨ended, bytes, outside, parts, registers, cur, work⟩ := failed
  obtain ⟨-, -, -, -, -, -, -, -, first, -, count, room⟩ := cursors
  refine ⟨ended, bytes, fun x hx => ?_, parts, registers, cur, work⟩
  rw [outside x hx]
  refine readCell_decodeRaw_outside ?_
  unfold overrun
  unfold elemDestEnd at hx
  omega

/-- Settles O52: the checks of the block that begins behind the tail. -/
theorem nextBlockFirstFailedCheck : Obligations.NextBlockFirstFailedCheck := by
  intro s host phase cursors used_up ends
  rw [step_blockEnd host phase used_up, finishBlock_of_ends ends]
  have start : s.cur.slimit ≤ opBlim s := by obtain ⟨-, -, -, -, -, -, inside, -⟩ := cursors; exact inside
  have report {e : Err} (block : beginBlock s.cur.codec s.cur.slimit s.cur.dlimit s.cur.rem (withTail s) =
      raise .elems e (withTail s)) :
      ∃ t, Host.Outcome.next (φ := Fault) (ρ := Refusal)
        (beginBlock s.cur.codec s.cur.slimit s.cur.dlimit s.cur.rem (withTail s)) = .next t ∧ decodeFailed s t e :=
    ⟨_, rfl, decodeFailed_withTail cursors ends.1 (decodeFailed_beginBlock block)⟩
  exact
    ⟨fun short beyond => report (beginBlock_srcshort _ _ start short beyond),
     fun long beyond => report (beginBlock_header_error _ long (headerError_no_header _ beyond) (by simp)),
     fun long header bad => report (beginBlock_header_error _ long (headerError_bad_header header bad) (by simp)),
     fun long header good beyond =>
      report (beginBlock_header_error _ long (headerError_no_block header good beyond) (by simp))⟩

end

end Sys2Proof.Machine
end

section
/-! ENCFRM (44_frame.md R240, R241, 30_encoding.md R105): the stream it writes as one sequence of bytes, and what an encoder of
codec-32 reads of E-space (10_state.md R31, 40_pack.md R131). -/

namespace Sys2Proof.Machine

/-! ### The blocks of a stream as bytes -/

/-- Packer and partitioner leave no trace in the bytes (R268). -/
theorem bytes_encodeBlock_work (c : Codec) (elems : List Elem) (k k' : Work) :
    (encodeBlock c elems k).bytes = (encodeBlock c elems k').bytes := by
  unfold encodeBlock
  split <;> rfl

/-- The bytes of the blocks of the `n` elements from cell `e`: block `j` has those from `65536·j` on, at most 65536 (R104). -/
def streamBytes (c : Codec) (m : Mem 64) (k : Work) (e n : Nat) : List Byte :=
  (List.range (cdiv n blockMax)).flatMap fun j =>
    (encodeBlock c (readElems c m (e + blockMax * j) (min blockMax (n - blockMax * j))) k).bytes

section
variable {c : Codec} {m : Mem 64} {lim full e b rem : Nat} {k k' : Work}

theorem streamBytes_zero : streamBytes c m k e 0 = [] := rfl

theorem streamBytes_last (some_left : rem ≠ 0) (few : rem < blockMax) :
    streamBytes c m k e rem = (encodeBlock c (readElems c m e rem) k).bytes := by
  have one : cdiv rem blockMax = 1 := by
    unfold cdiv
    unfold blockMax at few ⊢
    omega
  simp [streamBytes, one, few.le]

theorem streamBytes_add (rest : Nat) :
    streamBytes c m k e (blockMax + rest) =
      (encodeBlock c (readElems c m e blockMax) k).bytes ++ streamBytes c m k (e + blockMax) rest := by
  have one_more : cdiv (blockMax + rest) blockMax = cdiv rest blockMax + 1 := by
    unfold cdiv blockMax
    omega
  have next_cell (j : Nat) : e + blockMax * (j + 1) = e + blockMax + blockMax * j := by rw [Nat.mul_succ]; omega
  have next_count (j : Nat) : blockMax + rest - blockMax * (j + 1) = rest - blockMax * j := by rw [Nat.mul_succ]; omega
  simp [streamBytes, one_more, List.range_succ_eq_map, List.flatMap_map, next_cell, next_count]

/-- R241: what the engine encodes are these bytes. -/
theorem bytes_of_encodeBlocks {r : List Byte × Bool × Work} (found : encodeBlocks c m lim full e b rem k = some r)
    (count : rem / blockMax = full) : r.1 = streamBytes c m k' e rem := by
  induction full generalizing e b rem k r with
  | zero =>
    have few := lt_blockMax_of_div_eq_zero count
    obtain ⟨rfl, bytes⟩ | ⟨fit, bytes⟩ := encodeBlocks_zero_eq_some found
    · exact bytes
    · by_cases none_left : rem = 0
      · have nothing : r = ([], false, k) := by simpa [encodeBlocks, none_left, eq_comm] using found
        rw [nothing, none_left, streamBytes_zero]
      · rw [bytes, streamBytes_last none_left few, bytes_encodeBlock_work]
  | succ full ih =>
    obtain ⟨-, r', others, bytes⟩ := encodeBlocks_succ_eq_some found
    obtain ⟨rest, rfl, fewer⟩ := exists_add_of_div_blockMax_eq_succ count
    rw [Nat.add_sub_cancel_left] at others
    rw [bytes, ih others fewer, streamBytes_add, bytes_encodeBlock_work c _ k k']

/-- R240: where the bytes fit below the limit, so does every block. -/
theorem isSome_encodeBlocks_of_fits (count : rem / blockMax = full)
    (fits : b + (streamBytes c m k' e rem).length ≤ lim) : (encodeBlocks c m lim full e b rem k).isSome = true := by
  induction full generalizing e b rem k with
  | zero =>
    by_cases none_left : rem = 0
    · simp [encodeBlocks, none_left]
    · rw [streamBytes_last none_left (lt_blockMax_of_div_eq_zero count), bytes_encodeBlock_work c _ k' k,
        length_encodeBlock] at fits
      simp [encodeBlocks, none_left, fits]
  | succ full ih =>
    obtain ⟨rest, rfl, fewer⟩ := exists_add_of_div_blockMax_eq_succ count
    rw [streamBytes_add, bytes_encodeBlock_work c _ k' k, List.length_append, length_encodeBlock] at fits
    obtain ⟨r, others⟩ := Option.isSome_iff_exists.1 (ih (e := e + blockMax)
      (b := b + (encodeBlock c (readElems c m e blockMax) k).size)
      (k := (encodeBlock c (readElems c m e blockMax) k).work) fewer (by omega))
    simp [encodeBlocks, others, show b + (encodeBlock c (readElems c m e blockMax) k).size ≤ lim by omega]

/-- A stream of fewer than 144 elements has no framed block (R240). -/
theorem framed_of_short {r : List Byte × Bool × Work} (short : rem < rawThreshold)
    (found : encodeBlocks c m lim 0 e b rem k = some r) : r.2.1 = false := by
  simp only [encodeBlocks] at found
  split at found
  · exact Option.some.inj found ▸ rfl
  · split at found
    · obtain rfl := Option.some.inj found
      rw [encodeBlock, if_pos (by rwa [length_readElems])]
      rfl
    · cases found

end

/-! ### ENCFRM -/

section
variable {c : Codec} {s : State}

theorem exec_encfrm_of_ok (ok : encfrmError c s = .ok) : exec (.encfrm c) s = .next
    (complete (streamOf c s).1.length
      { (if (streamOf c s).2.1 then havocParts s else s) with
        b := writeCells s.b (opBptr s) (streamOf c s).1
        work := (streamOf c s).2.2 }) := if_pos ok

theorem exec_encfrm_of_error {e : Err} (error : encfrmError c s = e) (failed : e ≠ .ok) :
    exec (.encfrm c) s = .next (raise (.bytes true) e s) := by
  rw [← error]
  exact if_neg (error ▸ failed)

/-- The magic and the blocks of the source elements (R105). -/
def frameBytes (c : Codec) (s : State) : List Byte :=
  natToBytes 8 (magicNumber c) ++ streamBytes c s.e s.work (opEptr s) (opN s)

theorem length_frameBytes (c : Codec) (s : State) :
    (frameBytes c s).length = 8 + (streamBytes c s.e s.work (opEptr s) (opN s)).length := by
  rw [frameBytes, List.length_append, length_natToBytes]

/-- The blocks fit where the whole stream does (R240). -/
theorem streamBlocks_isSome_iff (magic : opBptr s + 8 ≤ opBlim s) :
    (streamBlocks c s).isSome = true ↔ opBptr s + (frameBytes c s).length ≤ opBlim s := by
  rw [length_frameBytes]
  refine ⟨fun some_blocks => ?_, fun fits => isSome_encodeBlocks_of_fits (k' := s.work) rfl (by omega)⟩
  obtain ⟨r, found⟩ := Option.isSome_iff_exists.1 some_blocks
  obtain ⟨-, inside⟩ := isStream_of_encodeBlocks found rfl magic
  rw [bytes_of_encodeBlocks (k' := s.work) found rfl] at inside
  omega

theorem bytes_streamOf (ok : encfrmError c s = .ok) : (streamOf c s).1 = frameBytes c s := by
  obtain ⟨-, -, some_blocks⟩ := (encfrmError_eq_ok c s).1 ok
  obtain ⟨r, found⟩ := Option.isSome_iff_exists.1 some_blocks
  rw [streamOf, found, Option.getD_some, frameBytes, bytes_of_encodeBlocks (k' := s.work) found rfl]

theorem framed_streamOf_of_short (short : opN s < rawThreshold) : (streamOf c s).2.1 = false := by
  have no_full : opN s / blockMax = 0 := Nat.div_eq_of_lt (short.trans (by decide))
  cases found : streamBlocks c s with
  | none => simp [streamOf, found]
  | some r =>
    have framed : r.2.1 = false := by
      rw [streamBlocks, no_full] at found
      exact framed_of_short short found
    simp [streamOf, found, framed]

/-- Settles O55: the stream is written where it fits, and it is the only check behind those of the operands. -/
theorem encfrmWritesTheStream : Obligations.EncfrmWritesTheStream := by
  intro c s bytes stream
  obtain rfl : bytes = frameBytes c s := stream
  refine ⟨fun met room => ?_, fun met full => ?_, fun unmet => ?_⟩
  · have magic : opBptr s + 8 ≤ opBlim s := by rw [length_frameBytes] at room; omega
    have ok : encfrmError c s = .ok := (encfrmError_eq_ok c s).2 ⟨met, magic, (streamBlocks_isSome_iff magic).2 room⟩
    have answer := exec_encfrm_of_ok ok
    rw [bytes_streamOf ok] at answer
    refine ⟨_, answer, succeededWith_complete (lt_of_byte_end room) _, standsAt_writeCells _ _ _,
      fun x hx => readCell_writeCells_outside _ _ _ _ hx, fun short => ?_, ?_, ?_, ?_⟩
    · rw [framed_streamOf_of_short short]
      exact ⟨rfl, fun _ => rfl⟩
    all_goals cases (streamOf c s).2.1
    · rfl
    · rfl
    · exact registersKept_of_eq rfl
    · exact registersKept_of_eq rfl
    · rfl
    · rfl
  · refine ⟨_, exec_encfrm_of_error (firstError_eq 3 2 ?_ (by simp) fun fits => ?_) (by simp), encodeFailed_raise _ _ _⟩
    · simpa [and_assoc] using met
    · simp only [List.drop_succ_cons, List.drop_zero, List.take_succ_cons, List.take_zero, List.forall_mem_cons,
        decide_eq_true_eq] at fits
      obtain ⟨magic, some_blocks, -⟩ := fits
      exact absurd ((streamBlocks_isSome_iff magic).1 some_blocks) (Nat.not_le.2 full)
  · rw [exec_encfrm_of_error (e := .arg) ?_ (by simp), raise_of_leavesMemory _ _ _ rfl]
    · rfl
    · refine firstError_eq 0 3 (by simp) (by simp) fun met => unmet ?_
      simpa [and_assoc] using met

end

/-! ### What an encoder reads -/

section
variable {c : Codec} {s : State} {m : Mem 64}

theorem readElems_congr {m' : Mem 64} (same : ∀ a, readElem c m a = readElem c m' a) (a n : Nat) :
    readElems c m a n = readElems c m' a n := List.map_congr_left fun k _ => same (a + k)

theorem sourceElems_congr (same : ∀ a, readElem c m a = readElem c s.e a) :
    sourceElems c { s with e := m } = sourceElems c s := readElems_congr same _ _

theorem encodeBlocks_congr {m' : Mem 64} (same : ∀ a, readElem c m a = readElem c m' a) (lim full e b rem : Nat) (k : Work) :
    encodeBlocks c m lim full e b rem k = encodeBlocks c m' lim full e b rem k := by
  induction full generalizing e b rem k with
  | zero => simp only [encodeBlocks, readElems_congr same]
  | succ full ih => simp only [encodeBlocks, readElems_congr same, ih]

theorem encblkBlock_congr (same : ∀ a, readElem c m a = readElem c s.e a) (pext : Bool) :
    encblkBlock c pext { s with e := m } = encblkBlock c pext s := by
  simp only [encblkBlock, sourceElems_congr same]
  rfl

theorem streamOf_congr (same : ∀ a, readElem c m a = readElem c s.e a) :
    streamBlocks c { s with e := m } = streamBlocks c s ∧ streamOf c { s with e := m } = streamOf c s := by
  have blocks : streamBlocks c { s with e := m } = streamBlocks c s := encodeBlocks_congr same _ _ _ _ _ _
  exact ⟨blocks, by rw [streamOf, streamOf, blocks]⟩

/-- An error whose destination is not E-space does not look at it (R291). -/
theorem raise_withElems {d : Dest} (dest : d ≠ .elems) (e : Err) (s : State) (m : Mem 64) :
    raise d e { s with e := m } = { raise d e s with e := m } := by
  unfold raise
  cases d with
  | unchanged => cases leavesMemory e <;> rfl
  | bytes parts => cases leavesMemory e <;> cases parts <;> rfl
  | elems => exact absurd rfl dest

/-- An encoder whose checks and outcome are the same whatever E-space holds. -/
theorem exec_withElems {i : Instr} {d : Dest} {e e' : Err} {t t' : State} (dest : d ≠ .elems)
    (meaning : exec i s = if e = .ok then .next t else .next (raise d e s))
    (meaning' : exec i { s with e := m } = if e' = .ok then .next t' else .next (raise d e' { s with e := m }))
    (checks : e' = e) (runs : t' = { t with e := m }) :
    ∃ t, exec i s = .next t ∧ exec i { s with e := m } = .next { t with e := m } := by
  subst checks runs
  by_cases ok : e' = .ok
  · exact ⟨t, by rw [meaning, if_pos ok], by rw [meaning', if_pos ok]⟩
  · exact ⟨_, by rw [meaning, if_neg ok], by rw [meaning', if_neg ok, raise_withElems dest]⟩

/-- Settles O23: each encoder reads E-space through the elements of its family only. -/
theorem codecThirtyTwoIgnoresUpperHalves : Obligations.CodecThirtyTwoIgnoresUpperHalves := by
  intro s m pext same i hi
  have source := sourceElems_congr same
  have block := encblkBlock_congr same pext
  obtain ⟨blocks, stream⟩ := streamOf_congr same
  simp only [List.mem_cons, List.not_mem_nil, or_false] at hi
  rcases hi with rfl | rfl | rfl | rfl
  · refine exec_withElems (d := .unchanged) (by simp) rfl rfl rfl ?_
    rw [source]
    rfl
  · refine exec_withElems (d := .unchanged) (by simp) rfl rfl rfl ?_
    rw [source]
    rfl
  · refine exec_withElems (d := .bytes !pext) (by simp) rfl rfl ?_ ?_
    · rw [encblkError, block]
      rfl
    · rw [block]
      cases pext <;> cases (encblkBlock .c32 _ s).parts <;> rfl
  · refine exec_withElems (d := .bytes true) (by simp) rfl rfl ?_ ?_
    · rw [encfrmError, blocks]
      rfl
    · rw [stream]
      cases (streamOf .c32 s).2.1 <;> rfl

end

end Sys2Proof.Machine
end

section
/-! Stream bits in bytes (00_scope.md R12, 41_unpack.md R155 to R170, 40_pack.md R139): where the fields of each unpacker lie, and
that the source's 32-bit writer and its special cases write the bytes of `PackBits`. -/

namespace Sys2Proof.Machine

/-! ### Fields -/

section
variable (r : List Byte) {w i : Nat}

theorem sbits_add (k a b : Nat) : sbits r k (a + b) = sbits r k a * 2 ^ b + sbits r (k + a) b := by
  simp only [sbits, bitsToNat_add, Nat.add_assoc]

/-- A field of the number that the whole run is, counted from its most significant end (R12, R64). -/
theorem field_eq_div_mod (inside : (i + 1) * w ≤ 8 * r.length) :
    field r w i = bytesToNat r / 2 ^ (8 * r.length - (i + 1) * w) % 2 ^ w := by
  have split : 8 * r.length = i * w + w + (8 * r.length - (i + 1) * w) := by
    have next : (i + 1) * w = i * w + w := Nat.succ_mul i w
    omega
  have rest_lt := bitsToNat_lt (fun j => streamBit r (i * w + w + j)) (8 * r.length - (i + 1) * w)
  have field_lt : field r w i < 2 ^ w := bitsToNat_lt _ w
  conv_rhs => rw [bytesToNat_eq_bitsToNat, split, bitsToNat_add, bitsToNat_add, ← split]
  rw [Nat.mul_comm _ (2 ^ (8 * r.length - (i + 1) * w)), Nat.mul_add_div (Nat.two_pow_pos _),
    Nat.div_eq_of_lt rest_lt, Nat.add_zero, Nat.mul_comm _ (2 ^ w), Nat.mul_add_mod]
  exact (Nat.mod_eq_of_lt field_lt).symm

/-- Bits inside byte `m`: `o` above them, `d` below. -/
theorem sbits_within (m o d : Nat) (size : o + w + d = 8) :
    sbits r (8 * m + o) w = (r.getD m 0).toNat / 2 ^ d % 2 ^ w := by
  have bits (j : Nat) (hj : j < w) : streamBit r (8 * m + o + j) = ((r.getD m 0) >>> d).getLsbD (w - 1 - j) := by
    have byte : (8 * m + o + j) / 8 = m := by omega
    have bit : 7 - (8 * m + o + j) % 8 = d + (w - 1 - j) := by omega
    rw [streamBit, byte, bit, BitVec.getLsbD_ushiftRight]
  rw [sbits, bitsToNat_congr _ _ w bits, bitsToNat_getLsbD, BitVec.toNat_ushiftRight, Nat.shiftRight_eq_div_pow]

/-- Whole bytes are one big-endian number. -/
theorem sbits_bytes (m n : Nat) : sbits r (8 * m) (8 * n) = bytesToNat ((List.range n).map fun k => r.getD (m + k) 0) := by
  induction n with
  | zero => rfl
  | succ n ih =>
    have last := sbits_within (w := 8) r (m + n) 0 0 rfl
    have small : (r.getD (m + n) 0).toNat < 2 ^ 8 := (r.getD (m + n) 0).isLt
    rw [Nat.add_zero, Nat.mul_add, pow_zero, Nat.div_one, Nat.mod_eq_of_lt small] at last
    rw [Nat.mul_add, sbits_add, ih, Nat.mul_one, last]
    simp [List.range_succ, bytesToNat]

variable {r}

/-- A field inside byte `m`. -/
theorem field_within (m o d : Nat) (position : i * w = 8 * m + o) (size : o + w + d = 8) :
    field r w i = (r.getD m 0).toNat / 2 ^ d % 2 ^ w := by
  rw [field, position, sbits_within r m o d size]

/-- A field whose upper `a` bits end byte `m` and whose lower `b` bits begin the next. -/
theorem field_across (m m' o a b d : Nat) (behind : m' = m + 1) (position : i * (a + b) = 8 * m + o) (upper : o + a = 8)
    (lower : b + d = 8) :
    field r (a + b) i = (r.getD m 0).toNat % 2 ^ a * 2 ^ b + (r.getD m' 0).toNat / 2 ^ d % 2 ^ b := by
  subst behind
  have next : 8 * m + o + a = 8 * (m + 1) + 0 := by omega
  rw [field, position, sbits_add, next, sbits_within (w := a) r m o 0 upper, sbits_within r (m + 1) 0 d (by omega), pow_zero,
    Nat.div_one]

theorem toNat_byte_lt (m : Nat) : (r.getD m 0).toNat < 256 := (r.getD m 0).isLt

/-! ### The layout of each unpacker -/

/-- R155, R156. -/
theorem field_zero (i : Nat) : field r 0 i = 0 := rfl

theorem field_one (i : Nat) : field r 1 i = ((r.getD (i / 8) 0).getLsbD (7 - i % 8)).toNat := by
  simp [field, sbits, bitsToNat, streamBit]

/-- R157: four fields a byte, the first most significant. -/
theorem field_two (i : Nat) : field r 2 i = (r.getD (i / 4) 0).toNat / 4 ^ (3 - i % 4) % 4 := by
  rw [field_within (i / 4) (2 * (i % 4)) (2 * (3 - i % 4)) (by omega) (by omega), pow_mul]
  rfl

/-- R159. -/
theorem field_four (i : Nat) :
    field r 4 i = if i % 2 = 0 then (r.getD (i / 2) 0).toNat / 16 else (r.getD (i / 2) 0).toNat % 16 := by
  have small := toNat_byte_lt (r := r) (i / 2)
  by_cases even : i % 2 = 0
  · rw [if_pos even, field_within (i / 2) 0 4 (by omega) rfl]
    omega
  · rw [if_neg even, field_within (i / 2) 4 0 (by omega) rfl]
    omega

/-- R163. -/
theorem field_eight (i : Nat) : field r 8 i = (r.getD i 0).toNat := by
  have small := toNat_byte_lt (r := r) i
  rw [field_within i 0 0 (by omega) rfl]
  omega

/-- R168 to R170: whole bytes. -/
theorem field_bytes (n i : Nat) : field r (8 * n) i = bytesToNat ((List.range n).map fun k => r.getD (n * i + k) 0) := by
  have position : i * (8 * n) = 8 * (n * i) := by ring
  rw [field, position, sbits_bytes]

theorem field_sixteen (i : Nat) : field r 16 i = 256 * (r.getD (2 * i) 0).toNat + (r.getD (2 * i + 1) 0).toNat := by
  refine (field_bytes 2 i).trans ?_
  simp [List.range_succ, bytesToNat, Nat.mul_comm]

/-- R158: eight fields in three bytes. -/
theorem field_three (i : Nat) :
    field r 3 (8 * i) = (r.getD (3 * i) 0).toNat / 32 ∧
    field r 3 (8 * i + 1) = (r.getD (3 * i) 0).toNat / 4 % 8 ∧
    field r 3 (8 * i + 2) = (r.getD (3 * i) 0).toNat % 4 * 2 + (r.getD (3 * i + 1) 0).toNat / 128 ∧
    field r 3 (8 * i + 3) = (r.getD (3 * i + 1) 0).toNat / 16 % 8 ∧
    field r 3 (8 * i + 4) = (r.getD (3 * i + 1) 0).toNat / 2 % 8 ∧
    field r 3 (8 * i + 5) = (r.getD (3 * i + 1) 0).toNat % 2 * 4 + (r.getD (3 * i + 2) 0).toNat / 64 ∧
    field r 3 (8 * i + 6) = (r.getD (3 * i + 2) 0).toNat / 8 % 8 ∧
    field r 3 (8 * i + 7) = (r.getD (3 * i + 2) 0).toNat % 8 := by
  have small0 := toNat_byte_lt (r := r) (3 * i)
  have small1 := toNat_byte_lt (r := r) (3 * i + 1)
  have small2 := toNat_byte_lt (r := r) (3 * i + 2)
  refine ⟨?_, ?_, ?_, ?_, ?_, ?_, ?_, ?_⟩
  · rw [field_within (3 * i) 0 5 (by omega) rfl]; omega
  · rw [field_within (3 * i) 3 2 (by omega) rfl]; rfl
  · refine (field_across (3 * i) (3 * i + 1) 6 2 1 7 rfl (by omega) rfl rfl).trans ?_; omega
  · rw [field_within (3 * i + 1) 1 4 (by omega) rfl]; rfl
  · rw [field_within (3 * i + 1) 4 1 (by omega) rfl]; rfl
  · refine (field_across (3 * i + 1) (3 * i + 2) 7 1 2 6 rfl (by omega) rfl rfl).trans ?_; omega
  · rw [field_within (3 * i + 2) 2 3 (by omega) rfl]; rfl
  · rw [field_within (3 * i + 2) 5 0 (by omega) rfl]; omega

/-- R161: four fields in three bytes. -/
theorem field_six (i : Nat) :
    field r 6 (4 * i) = (r.getD (3 * i) 0).toNat / 4 ∧
    field r 6 (4 * i + 1) = (r.getD (3 * i) 0).toNat % 4 * 16 + (r.getD (3 * i + 1) 0).toNat / 16 ∧
    field r 6 (4 * i + 2) = (r.getD (3 * i + 1) 0).toNat % 16 * 4 + (r.getD (3 * i + 2) 0).toNat / 64 ∧
    field r 6 (4 * i + 3) = (r.getD (3 * i + 2) 0).toNat % 64 := by
  have small0 := toNat_byte_lt (r := r) (3 * i)
  have small1 := toNat_byte_lt (r := r) (3 * i + 1)
  have small2 := toNat_byte_lt (r := r) (3 * i + 2)
  refine ⟨?_, ?_, ?_, ?_⟩
  · rw [field_within (3 * i) 0 2 (by omega) rfl]; omega
  · refine (field_across (3 * i) (3 * i + 1) 6 2 4 4 rfl (by omega) rfl rfl).trans ?_; omega
  · refine (field_across (3 * i + 1) (3 * i + 2) 4 4 2 6 rfl (by omega) rfl rfl).trans ?_; omega
  · rw [field_within (3 * i + 2) 2 0 (by omega) rfl]; omega

/-- R167: two fields in three bytes. -/
theorem field_twelve (i : Nat) :
    field r 12 (2 * i) = (r.getD (3 * i) 0).toNat * 16 + (r.getD (3 * i + 1) 0).toNat / 16 ∧
    field r 12 (2 * i + 1) = (r.getD (3 * i + 1) 0).toNat % 16 * 256 + (r.getD (3 * i + 2) 0).toNat := by
  have small0 := toNat_byte_lt (r := r) (3 * i)
  have small1 := toNat_byte_lt (r := r) (3 * i + 1)
  have small2 := toNat_byte_lt (r := r) (3 * i + 2)
  refine ⟨?_, ?_⟩
  · refine (field_across (3 * i) (3 * i + 1) 0 8 4 4 rfl (by omega) rfl rfl).trans ?_; omega
  · refine (field_across (3 * i + 1) (3 * i + 2) 4 4 8 0 rfl (by omega) rfl rfl).trans ?_; omega

end

/-- Settles O30: the layout of each unpacker by its width. -/
theorem fieldLayoutPerUnpacker : Obligations.FieldLayoutPerUnpacker := fun r i =>
  ⟨fun _ inside => field_eq_div_mod r inside, field_zero i, field_one i, field_two i, field_four i, field_eight i,
    field_sixteen i, field_bytes 4 i, field_bytes 8 i, by
      obtain ⟨three0, three1, three2, three3, three4, three5, three6, three7⟩ := field_three (r := r) i
      exact ⟨three0, three1, three2, three3, three4, three5, three6, three7, by
        obtain ⟨six0, six1, six2, six3⟩ := field_six (r := r) i
        exact ⟨six0, six1, six2, six3, field_twelve i⟩⟩⟩

/-! ### The 32-bit writer -/

theorem bytesToNat_append (r t : List Byte) : bytesToNat (r ++ t) = bytesToNat r * 2 ^ (8 * t.length) + bytesToNat t := by
  induction t using List.reverseRecOn with
  | nil => simp [bytesToNat]
  | append_singleton t b ih =>
    have last (u : List Byte) : bytesToNat (u ++ [b]) = bytesToNat u * 256 + b.toNat := by simp [bytesToNat]
    rw [← List.append_assoc, last, last, ih, List.length_append, List.length_singleton, Nat.mul_add, pow_add]
    ring

theorem bytesToNat_lt (r : List Byte) : bytesToNat r < 2 ^ (8 * r.length) := by
  rw [bytesToNat_eq_bitsToNat]
  exact bitsToNat_lt _ _

/-- A byte sequence is determined by its length and its number. -/
theorem eq_of_bytesToNat_eq {r t : List Byte} (size : r.length = t.length) (number : bytesToNat r = bytesToNat t) : r = t := by
  induction r generalizing t with
  | nil => exact (List.eq_nil_of_length_eq_zero size.symm).symm
  | cons b r ih =>
    obtain ⟨d, t, rfl⟩ := List.exists_cons_of_length_eq_add_one size.symm
    have same : r.length = t.length := Nat.succ.inj size
    have lower := bytesToNat_lt r
    have lower' := bytesToNat_lt t
    have first (x : Byte) : bytesToNat [x] = x.toNat := by simp [bytesToNat]
    rw [← List.singleton_append, ← List.singleton_append (l := t), bytesToNat_append, bytesToNat_append, first, first,
      same] at number
    rw [same] at lower
    have heads : b.toNat = d.toNat := by
      have quotient := congrArg (· / 2 ^ (8 * t.length)) number
      simpa [Nat.mul_comm _ (2 ^ (8 * t.length)), Nat.mul_add_div, Nat.div_eq_of_lt lower, Nat.div_eq_of_lt lower'] using quotient
    rw [BitVec.eq_of_toNat_eq heads, ih same (by rw [heads] at number; omega)]

/-- The writer after `n` bits that spell `v`: the flushed words, and in the accumulator the last `fill` bits `residue`,
left-aligned. -/
structure Wrote (n v : Nat) (t : Writer) : Prop where
  fill : t.fill < 32
  size : 8 * t.out.length + t.fill = n
  bits : ∃ residue < 2 ^ t.fill, t.acc.toNat = residue * 2 ^ (32 - t.fill) ∧ bytesToNat t.out * 2 ^ t.fill + residue = v

theorem wrote_start : Wrote 0 0 writerStart := ⟨by decide, rfl, 0, by decide, rfl, rfl⟩

/-- One more bit below a left-aligned residue. -/
theorem toNat_acc_or {acc : BitVec 32} {fill residue : Nat} (small : fill < 32)
    (aligned : acc.toNat = residue * 2 ^ (32 - fill)) (x : Bool) :
    (acc ||| ((BitVec.ofBool x).setWidth 32 <<< (31 - fill))).toNat = (2 * residue + x.toNat) * 2 ^ (31 - fill) := by
  have up : 2 ^ (32 - fill) = 2 * 2 ^ (31 - fill) := by
    rw [← Nat.pow_succ', show (31 - fill).succ = 32 - fill by omega]
  have bit_le : x.toNat * 2 ^ (31 - fill) ≤ 2 ^ (31 - fill) := by
    simpa using Nat.mul_le_mul_right (2 ^ (31 - fill)) x.toNat_le
  have positive : 0 < 2 ^ (31 - fill) := Nat.two_pow_pos _
  have bit_lt : x.toNat * 2 ^ (31 - fill) < 2 ^ (32 - fill) := by omega
  have word : 2 ^ (32 - fill) ≤ 2 ^ 32 := Nat.pow_le_pow_right (by decide) (Nat.sub_le _ _)
  have bit : ((BitVec.ofBool x).setWidth 32 <<< (31 - fill)).toNat = x.toNat * 2 ^ (31 - fill) := by
    rw [BitVec.toNat_shiftLeft, BitVec.toNat_setWidth, BitVec.toNat_ofBool,
      Nat.mod_eq_of_lt (a := x.toNat) (by cases x <;> decide), Nat.shiftLeft_eq, Nat.mod_eq_of_lt (by omega)]
  rw [BitVec.toNat_or, bit, aligned, ← Nat.shiftLeft_eq residue, ← Nat.shiftLeft_add_eq_or_of_lt bit_lt, Nat.shiftLeft_eq, up]
  ring

theorem Wrote.pushBit {n v : Nat} {t : Writer} (h : Wrote n v t) (x : Bool) : Wrote (n + 1) (2 * v + x.toNat) (pushBit t x) := by
  obtain ⟨fill, size, residue, lt, aligned, spells⟩ := h
  have acc := toNat_acc_or fill aligned x
  have bit := x.toNat_le
  have grown : 2 * residue + x.toNat < 2 ^ (t.fill + 1) := by rw [pow_succ]; omega
  have value : bytesToNat t.out * 2 ^ (t.fill + 1) + (2 * residue + x.toNat) = 2 * v + x.toNat := by
    rw [← spells, pow_succ]; ring
  unfold Machine.pushBit
  by_cases full : t.fill + 1 = 32
  · have last : 31 - t.fill = 0 := by omega
    rw [last, pow_zero, Nat.mul_one] at acc
    rw [full] at grown value
    have word : 2 * residue + x.toNat < 256 ^ 4 := by simpa using grown
    rw [if_pos full, last, acc]
    have words : (t.out ++ natToBytes 4 (2 * residue + x.toNat)).length = t.out.length + 4 := by simp
    refine ⟨Nat.two_pow_pos 5, ?_, 0, Nat.one_pos, (Nat.zero_mul _).symm, ?_⟩
    · show 8 * (t.out ++ natToBytes 4 (2 * residue + x.toNat)).length + 0 = n + 1
      omega
    · show bytesToNat (t.out ++ natToBytes 4 (2 * residue + x.toNat)) * 2 ^ 0 + 0 = 2 * v + x.toNat
      rw [bytesToNat_append, bytesToNat_natToBytes 4 _ word, length_natToBytes, pow_zero, Nat.mul_one, Nat.add_zero]
      exact value
  · rw [if_neg full]
    have below : 32 - (t.fill + 1) = 31 - t.fill := by omega
    exact ⟨show t.fill + 1 < 32 by omega, show 8 * t.out.length + (t.fill + 1) = n + 1 by omega, _, grown,
      by rw [below]; exact acc, value⟩

/-- The bits `f 0`, …, `f (k - 1)` enter one after another. -/
theorem Wrote.pushBits {n v : Nat} {t : Writer} (h : Wrote n v t) (f : Nat → Bool) (k : Nat) :
    Wrote (n + k) (v * 2 ^ k + bitsToNat f k) ((List.range k).foldl (fun t j => Machine.pushBit t (f j)) t) := by
  induction k with
  | zero => simpa [bitsToNat] using h
  | succ k ih =>
    have value : v * 2 ^ (k + 1) + bitsToNat f (k + 1) = 2 * (v * 2 ^ k + bitsToNat f k) + (f k).toNat := by
      rw [bitsToNat, pow_succ]; ring
    rw [List.range_succ, List.foldl_append, value, ← Nat.add_assoc]
    exact ih.pushBit (f k)

theorem wrote_writerRun (s : List Elem) (w : Nat) : Wrote (s.length * w) (concatLowBits w s) (writerRun s w) := by
  induction s using List.reverseRecOn with
  | nil => simpa [concatLowBits, writerRun] using wrote_start
  | append_singleton s x ih =>
    have run : writerRun (s ++ [x]) w = pushElem w (writerRun s w) x := by simp [writerRun]
    have element := ih.pushBits (fun j => x.getLsbD (w - 1 - j)) w
    rw [bitsToNat_getLsbD] at element
    rw [run, concatLowBits_concat, List.length_append, List.length_singleton, Nat.succ_mul]
    exact element

/-- The first bytes of a number. -/
theorem take_natToBytes {k n : Nat} (h : k ≤ n) (v : Nat) : (natToBytes n v).take k = natToBytes k (v / 256 ^ (n - k)) := by
  have step (j : Nat) (hj : j < k) : v / 256 ^ (n - 1 - j) = v / 256 ^ (n - k) / 256 ^ (k - 1 - j) := by
    rw [Nat.div_div_eq_div_mul, ← pow_add, show n - k + (k - 1 - j) = n - 1 - j by omega]
  rw [natToBytes, natToBytes, ← List.map_take, List.take_range, Nat.min_eq_left h]
  exact List.map_congr_left fun j hj => by rw [step j (List.mem_range.1 hj)]

/-- What a writer that holds `n` bits writes in the end: they, and zeros up to a whole byte. -/
theorem Wrote.bytes {n v : Nat} {t : Writer} (h : Wrote n v t) :
    (t.out ++ (natToBytes 4 t.acc.toNat).take (cdiv t.fill 8)).length = cdiv n 8 ∧
    bytesToNat (t.out ++ (natToBytes 4 t.acc.toNat).take (cdiv t.fill 8)) = v * 2 ^ (8 * cdiv n 8 - n) := by
  obtain ⟨fill, size, residue, lt, aligned, spells⟩ := h
  obtain ⟨k, residual⟩ : ∃ k, cdiv t.fill 8 = k := ⟨_, rfl⟩
  have room : t.fill ≤ 8 * k ∧ k ≤ 4 := by rw [← residual, cdiv]; omega
  have whole : cdiv n 8 = t.out.length + k := by rw [← residual, cdiv, cdiv]; omega
  have padding : 8 * (t.out.length + k) - n = 8 * k - t.fill := by omega
  have bytes_eq (a : Nat) : (256 : Nat) ^ a = 2 ^ (8 * a) := pow_mul 2 8 a ▸ rfl
  have last : t.acc.toNat / 256 ^ (4 - k) = residue * 2 ^ (8 * k - t.fill) := by
    have split : 32 - t.fill = 8 * k - t.fill + 8 * (4 - k) := by omega
    rw [aligned, bytes_eq, split, pow_add, ← Nat.mul_assoc, Nat.mul_div_cancel _ (Nat.two_pow_pos _)]
  have joined : 2 ^ t.fill * 2 ^ (8 * k - t.fill) = 2 ^ (8 * k) := by
    rw [← pow_add, show t.fill + (8 * k - t.fill) = 8 * k by omega]
  have last_lt : residue * 2 ^ (8 * k - t.fill) < 256 ^ k := by
    rw [bytes_eq, ← joined]
    exact Nat.mul_lt_mul_of_pos_right lt (Nat.two_pow_pos _)
  rw [residual, take_natToBytes room.2, last, whole, padding]
  refine ⟨by simp, ?_⟩
  rw [bytesToNat_append, bytesToNat_natToBytes k _ last_lt, length_natToBytes, ← joined, ← spells]
  ring

theorem writeBits_eq_packBits (s : List Elem) (w : Nat) : writeBits s w = packBits s w := by
  obtain ⟨size, number⟩ := (wrote_writerRun s w).bytes
  exact eq_of_bytesToNat_eq (size.trans (length_packBits s w).symm) (number.trans (bytesToNat_packBits s w).symm)

/-- R139's two special cases: nothing at width 0, whole elements at the element width. -/
theorem packBits_zero (s : List Elem) : packBits s 0 = [] :=
  List.eq_nil_of_length_eq_zero (by simp [runBytes, cdiv])

theorem bytesToNat_rawBytes (c : Codec) (s : List Elem) (fits : ∀ x ∈ s, x.toNat < 2 ^ elemWidth c) :
    bytesToNat (rawBytes c s) = concatLowBits (elemWidth c) s := by
  have width : elemWidth c = 8 * elemBytes c := by cases c <;> rfl
  induction s using List.reverseRecOn with
  | nil => rfl
  | append_singleton s x ih =>
    have small : x.toNat < 2 ^ elemWidth c := fits x (by simp)
    have bytes : x.toNat < 256 ^ elemBytes c := by rwa [width, pow_mul] at small
    have last : rawBytes c (s ++ [x]) = rawBytes c s ++ natToBytes (elemBytes c) x.toNat := by simp [rawBytes]
    rw [last, bytesToNat_append, ih fun y hy => fits y (by simp [hy]), bytesToNat_natToBytes _ _ bytes, length_natToBytes,
      ← width, concatLowBits_concat, Nat.mod_eq_of_lt small]

theorem packBits_elemWidth (c : Codec) (s : List Elem) (fits : ∀ x ∈ s, x.toNat < 2 ^ elemWidth c) :
    packBits s (elemWidth c) = rawBytes c s := by
  have bits : s.length * elemWidth c = 8 * (s.length * elemBytes c) := by
    rw [show elemWidth c = 8 * elemBytes c by cases c <;> rfl]; ring
  have whole : runBytes s.length (elemWidth c) = s.length * elemBytes c := by rw [runBytes, bits, cdiv]; omega
  refine eq_of_bytesToNat_eq ?_ ?_
  · rw [length_packBits, whole, length_rawBytes]
  · rw [bytesToNat_packBits, bytesToNat_rawBytes c s fits, whole, bits, Nat.sub_self, pow_zero, Nat.mul_one]

/-- Settles O29: by the numbers of the byte sequences; the writer keeps `Wrote` at every bit. -/
theorem writerMechanismEqualsPackBits : Obligations.WriterMechanismEqualsPackBits := fun c s w _ fits =>
  ⟨writeBits_eq_packBits s w, packBits_zero s, packBits_elemWidth c s fits⟩

end Sys2Proof.Machine
end

section
/-! R62: nothing outside the windows of the command influences the engine. Two states whose cells differ at most there answer to
each turn with two such states: they read the same, their checks agree, and they write the same. -/

namespace Sys2Proof.Machine

/-- The same engine with other cells in E-space and B-space. -/
abbrev withCells (s : State) (e : Mem 64) (b : Mem 8) : State := { s with e := e, b := b }

/-- The cells `e` and `b` agree with those of `s` inside the windows. -/
structure SeesSame (s : State) (e : Mem 64) (b : Mem 8) : Prop where
  elems : ∀ x, opEptr s ≤ x → x < opElim s → readCell e x = readCell s.e x
  bytes : ∀ x, opBptr s ≤ x → x < opBlim s → readCell b x = readCell s.b x

/-- Both runs answer, with states that agree inside the windows. -/
def SameOutcome (r r' : Result) : Prop := ∃ t t', r = .next t ∧ r' = .next t' ∧ sameInsideWindows t t'

theorem readCell_writeCells_congr {w : Nat} {m m' : Mem w} {x : Nat} (a : Nat) (vs : List (BitVec w))
    (same : readCell m' x = readCell m x) : readCell (writeCells m' a vs) x = readCell (writeCells m a vs) x := by
  rw [readCell_writeCells, readCell_writeCells, same]

/-- A check matters only where those before it hold (R14, R292). -/
theorem firstError_cons_congr {p : Prop} [Decidable p] {l l' : List (Bool × Err)} (x : Err)
    (rest : p → firstError l' = firstError l) : firstError ((decide p, x) :: l') = firstError ((decide p, x) :: l) := by
  by_cases holds : p
  · simp [firstError, holds, rest holds]
  · simp [firstError, holds]

/-! ### What is read -/

section
variable {s : State} {e : Mem 64} {b : Mem 8} {c : Codec} {a n : Nat}

theorem SeesSame.readCells (h : SeesSame s e b) (lower : opBptr s ≤ a) (upper : a + n ≤ opBlim s) :
    readCells b a n = Machine.readCells s.b a n :=
  List.map_congr_left fun k hk => h.bytes _ (by omega) (by have := List.mem_range.1 hk; omega)

theorem SeesSame.memRead (h : SeesSame s e b) (lower : opBptr s ≤ a) (upper : a + n ≤ opBlim s) :
    memRead b a n = Machine.memRead s.b a n := by
  rw [Machine.memRead, h.readCells lower upper, Machine.memRead]

theorem SeesSame.rawElems (h : SeesSame s e b) (lower : opBptr s ≤ a) (upper : a + n * elemBytes c ≤ opBlim s) :
    rawElems c b a n = Machine.rawElems c s.b a n := by
  refine List.map_congr_left fun k hk => ?_
  have inside : (k + 1) * elemBytes c ≤ n * elemBytes c := Nat.mul_le_mul_right _ (List.mem_range.1 hk)
  rw [Nat.succ_mul] at inside
  rw [h.memRead (by omega) (by omega)]

theorem SeesSame.readElems (h : SeesSame s e b) (lower : opEptr s ≤ a) (upper : a + n ≤ opElim s) :
    readElems c e a n = Machine.readElems c s.e a n := by
  refine List.map_congr_left fun k hk => ?_
  have cell := h.elems (a + k) (by omega) (by have := List.mem_range.1 hk; omega)
  cases c <;> simp [readElem, cell]

theorem SeesSame.sourceElems (h : SeesSame s e b) (c : Codec) (inside : opEptr s + opN s ≤ opElim s) :
    sourceElems c (withCells s e b) = Machine.sourceElems c s := h.readElems le_rfl inside

theorem SeesSame.encblkBlock (h : SeesSame s e b) (c : Codec) (pext : Bool) (inside : opEptr s + opN s ≤ opElim s) :
    encblkBlock c pext (withCells s e b) = Machine.encblkBlock c pext s := by
  rw [Machine.encblkBlock, h.sourceElems c inside]
  rfl

theorem SeesSame.encodeBlocks (h : SeesSame s e b) {full rem : Nat} (count : rem / blockMax = full) (lower : opEptr s ≤ a)
    (upper : a + rem ≤ opElim s) (lim start : Nat) (k : Work) :
    encodeBlocks c e lim full a start rem k = Machine.encodeBlocks c s.e lim full a start rem k := by
  induction full generalizing a start rem k with
  | zero => simp only [Machine.encodeBlocks, h.readElems (c := c) lower upper]
  | succ full ih =>
    obtain ⟨rest, rfl, fewer⟩ := exists_add_of_div_blockMax_eq_succ count
    have first : Machine.readElems c e a blockMax = Machine.readElems c s.e a blockMax := h.readElems lower (by omega)
    have others (start : Nat) (k : Work) := ih (a := a + blockMax) fewer (by omega) (by omega) start k
    simp only [Machine.encodeBlocks, first, Nat.add_sub_cancel_left, others]

theorem SeesSame.streamBlocks (h : SeesSame s e b) (c : Codec) (inside : opEptr s + opN s ≤ opElim s) :
    streamBlocks c (withCells s e b) = Machine.streamBlocks c s := h.encodeBlocks rfl le_rfl inside _ _ _

theorem SeesSame.streamOf (h : SeesSame s e b) (c : Codec) (inside : opEptr s + opN s ≤ opElim s) :
    streamOf c (withCells s e b) = Machine.streamOf c s := by
  rw [Machine.streamOf, h.streamBlocks c inside, Machine.streamOf]

/-! ### The checks that look at cells -/

theorem SeesSame.encblkError (h : SeesSame s e b) (c : Codec) (pext : Bool) :
    encblkError c pext (withCells s e b) = Machine.encblkError c pext s := by
  refine firstError_cons_congr _ fun _ => firstError_cons_congr _ fun _ => firstError_cons_congr _ fun _ =>
    firstError_cons_congr _ fun inside => ?_
  rw [h.encblkBlock c pext inside]
  rfl

theorem SeesSame.encfrmError (h : SeesSame s e b) (c : Codec) :
    encfrmError c (withCells s e b) = Machine.encfrmError c s := by
  refine firstError_cons_congr _ fun _ => firstError_cons_congr _ fun _ => firstError_cons_congr _ fun inside => ?_
  rw [h.streamBlocks c inside]
  rfl

theorem SeesSame.decfrmError (h : SeesSame s e b) (c : Codec) :
    decfrmError c (withCells s e b) = Machine.decfrmError c s := by
  refine firstError_cons_congr _ fun _ => firstError_cons_congr _ fun _ => firstError_cons_congr _ fun _ =>
    firstError_cons_congr _ fun magic => ?_
  have word : Machine.memRead b (opBptr s) 8 = Machine.memRead s.b (opBptr s) 8 := h.memRead le_rfl magic
  exact congrArg (fun v => firstError [(decide (v = magicNumber c), .magic)]) word

theorem SeesSame.headerError (h : SeesSame s e b) (c : Codec) (lower : opBptr s ≤ a) :
    headerError c a (withCells s e b) = Machine.headerError c a s := by
  refine firstError_cons_congr _ fun header => ?_
  have size : Machine.memRead b a 4 = Machine.memRead s.b a 4 :=
    h.memRead lower (Nat.le_trans (by omega) header)
  have offset : Machine.memRead b (a + 4) 4 = Machine.memRead s.b (a + 4) 4 :=
    h.memRead (by omega) (Nat.le_trans (by omega) header)
  exact congrArg₂ (fun n k => firstError [(decide (8 ≤ k ∧ k + 16 * elemBytes c ≤ n), .frame),
    (decide (a + n ≤ opBlim s), .srcshort)]) size offset

/-! ### What is written -/

theorem SeesSame.raise (h : SeesSame s e b) (d : Dest) (x : Err) :
    sameInsideWindows (raise d x s) (Machine.raise d x (withCells s e b)) := by
  unfold Machine.raise
  cases leavesMemory x with
  | true => exact ⟨rfl, h.elems, h.bytes⟩
  | false =>
    cases d with
    | unchanged => exact ⟨rfl, h.elems, h.bytes⟩
    | elems => exact ⟨rfl, fun x lower upper => readCell_writeCells_congr _ _ (h.elems x lower upper), h.bytes⟩
    | bytes parts =>
      have written (x : Nat) (lower : opBptr s ≤ x) (upper : x < opBlim s) :=
        readCell_writeCells_congr (opBptr s) (freeBytes s.fresh (opBptr s) (opBlim s - opBptr s)) (h.bytes x lower upper)
      cases parts with
      | true => exact ⟨rfl, h.elems, written⟩
      | false => exact ⟨rfl, h.elems, written⟩

theorem SeesSame.decodeRaw (h : SeesSame s e b) (e0 : Nat) (lower : opBptr s ≤ a) (upper : a + n * elemBytes c ≤ opBlim s) :
    ∃ e', decodeRaw c n a e0 (withCells s e b) = withCells (Machine.decodeRaw c n a e0 s) e' b ∧
      SeesSame (Machine.decodeRaw c n a e0 s) e' b := by
  refine ⟨writeCells e e0 (Machine.rawElems c s.b a n), ?_, fun x lower upper => ?_, h.bytes⟩
  · simp only [Machine.decodeRaw, h.rawElems lower upper]
  · exact readCell_writeCells_congr _ _ (h.elems x lower upper)

theorem SeesSame.unpackCells (h : SeesSame s e b) {w : Nat} (e0 lim : Nat) (lower : opBptr s ≤ a)
    (upper : a + runBytes n w ≤ opBlim s) :
    ∃ e', unpackCells w n a e0 lim (withCells s e b) = withCells (Machine.unpackCells w n a e0 lim s) e' b ∧
      SeesSame (Machine.unpackCells w n a e0 lim s) e' b := by
  refine ⟨writeCells e e0 (unpackBits (Machine.readCells s.b a (runBytes n w)) w n ++
    freeElems s.fresh (e0 + n) (specEnd w n e0 lim - (e0 + n))), ?_, fun x lower upper => ?_, h.bytes⟩
  · simp only [Machine.unpackCells, h.readCells lower upper]
  · exact readCell_writeCells_congr _ _ (h.elems x lower upper)

/-! ### The blocks of a decode -/

theorem SeesSame.beginBlock (h : SeesSame s e b) (c : Codec) (e0 rem : Nat) (lower : opBptr s ≤ a) :
    sameInsideWindows (beginBlock c a e0 rem s) (Machine.beginBlock c a e0 rem (withCells s e b)) := by
  unfold Machine.beginBlock
  rw [h.headerError c lower]
  by_cases none_left : rem = 0
  · rw [if_pos none_left, if_pos none_left]
    exact ⟨rfl, h.elems, h.bytes⟩
  rw [if_neg none_left, if_neg none_left]
  by_cases short : rem < rawThreshold
  · rw [if_pos short, if_pos short]
    by_cases inside : a + rem * elemBytes c ≤ opBlim s
    · obtain ⟨e', decoded, sees⟩ := h.decodeRaw e0 lower inside
      rw [if_pos inside, if_pos (show a + rem * elemBytes c ≤ opBlim (withCells s e b) from inside), decoded]
      exact ⟨rfl, sees.elems, sees.bytes⟩
    · rw [if_neg inside, if_neg (show ¬a + rem * elemBytes c ≤ opBlim (withCells s e b) from inside)]
      exact h.raise _ _
  rw [if_neg short, if_neg short]
  by_cases ok : Machine.headerError c a s = .ok
  · obtain ⟨header, -⟩ := (headerError_eq_ok c a s).1 ok
    have size : Machine.memRead b a 4 = Machine.memRead s.b a 4 := h.memRead lower (by omega)
    have offset : Machine.memRead b (a + 4) 4 = Machine.memRead s.b (a + 4) 4 := h.memRead (by omega) (by omega)
    rw [if_pos ok, if_pos ok]
    simp only [blockCursor, size, offset]
    exact ⟨rfl, h.elems, h.bytes⟩
  · rw [if_neg ok, if_neg ok]
    exact h.raise _ _

theorem SeesSame.finishBlock (h : SeesSame s e b) (cursors : cursorOk s) :
    sameInsideWindows (finishBlock s) (Machine.finishBlock (withCells s e b)) := by
  obtain ⟨-, -, -, first_byte, block, byte_le, limit, -⟩ := cursors
  unfold Machine.finishBlock
  by_cases ok : tailError s = .ok
  · obtain ⟨-, ends⟩ := (tailError_eq_ok s).1 ok
    obtain ⟨e', decoded, sees⟩ := h.decodeRaw (c := s.cur.codec) (n := overrun) (a := s.cur.byte) s.cur.elem (by omega)
      (show s.cur.byte + 16 * elemBytes s.cur.codec ≤ opBlim s by omega)
    rw [if_pos ok, if_pos (show tailError (withCells s e b) = .ok from ok), decoded]
    exact sees.beginBlock s.cur.codec s.cur.dlimit s.cur.rem (show opBptr s ≤ s.cur.slimit by omega)
  · rw [if_neg ok, if_neg (show tailError (withCells s e b) ≠ .ok from ok)]
    exact h.raise _ _

/-! ### Instructions and turns -/

/-- A meaning whose checks agree, and whose outcomes do where they hold. -/
theorem SeesSame.checked (h : SeesSame s e b) {d : Dest} {x x' : Err} {t t' : State} (checks : x' = x)
    (run : x = .ok → sameInsideWindows t t') :
    SameOutcome (if x = .ok then .next t else .next (Machine.raise d x s))
      (if x' = .ok then .next t' else .next (Machine.raise d x' (withCells s e b))) := by
  subst checks
  by_cases ok : x' = .ok
  · exact ⟨t, t', if_pos ok, if_pos ok, run ok⟩
  · exact ⟨_, _, if_neg ok, if_neg ok, h.raise d x'⟩

theorem SeesSame.unpackPartition (h : SeesSame s e b) (cursors : cursorOk s) (w : Nat) (p : BitVec 4) :
    SameOutcome (unpackPartition w p s) (Machine.unpackPartition w p (withCells s e b)) := by
  obtain ⟨-, -, -, first_byte, block, byte_le, limit, -⟩ := cursors
  refine h.checked rfl fun ok => ?_
  obtain ⟨-, run, -⟩ := (ctrlError_eq_ok w p s).1 ok
  obtain ⟨e', decoded, sees⟩ := h.unpackCells (n := partitionLength p) (w := w) s.cur.elem s.cur.dlimit
    (show opBptr s ≤ s.cur.byte by omega) (by omega)
  rw [decoded]
  exact ⟨rfl, sees.elems, sees.bytes⟩

theorem SeesSame.exec (h : SeesSame s e b) {i : Instr} (cursors : isCtrl i = true → cursorOk s) :
    SameOutcome (exec i s) (Machine.exec i (withCells s e b)) := by
  have report (d : Dest) (x : Err) :
      SameOutcome (.next (Machine.raise d x s)) (.next (Machine.raise d x (withCells s e b))) :=
    ⟨_, _, rfl, rfl, h.raise d x⟩
  have written (vs : List Byte) (x : Nat) (lower : opBptr s ≤ x) (upper : x < opBlim s) :=
    readCell_writeCells_congr (opBptr s) vs (h.bytes x lower upper)
  cases i with
  | pack c =>
    refine h.checked rfl fun ok => ?_
    obtain ⟨⟨-, -, -, -, -, inside⟩, -⟩ := packError_eq_ok.1 ok
    rw [h.sourceElems c inside]
    exact ⟨rfl, h.elems, written _⟩
  | unpack c =>
    refine h.checked rfl fun ok => ?_
    obtain ⟨-, inside, -⟩ := unpackError_eq_ok.1 ok
    obtain ⟨e', decoded, sees⟩ := h.unpackCells (opEptr s) (opElim s) le_rfl inside
    have same : sameInsideWindows (Machine.unpackCells (opW s) (opN s) (opBptr s) (opEptr s) (opElim s) s)
        (Machine.unpackCells (opW s) (opN s) (opBptr s) (opEptr s) (opElim s) (withCells s e b)) := by
      rw [decoded]
      exact ⟨rfl, sees.elems, sees.bytes⟩
    exact ⟨congrArg (complete _) same.1, same.2⟩
  | partition c =>
    refine h.checked rfl fun ok => ?_
    obtain ⟨-, -, -, inside⟩ := partitionError_eq_ok.1 ok
    rw [h.sourceElems c inside]
    exact ⟨rfl, h.elems, h.bytes⟩
  | encblk c pext =>
    refine h.checked (h.encblkError c pext) fun ok => ?_
    obtain ⟨⟨-, -, inside⟩, -⟩ := encblkError_eq_ok.1 ok
    rw [h.encblkBlock c pext inside]
    cases pext with
    | true => exact ⟨rfl, h.elems, written _⟩
    | false =>
      cases (Machine.encblkBlock c false s).parts with
      | none => exact ⟨rfl, h.elems, written _⟩
      | some parts => exact ⟨rfl, h.elems, written _⟩
  | encfrm c =>
    refine h.checked (h.encfrmError c) fun ok => ?_
    obtain ⟨⟨-, -, inside⟩, -⟩ := (encfrmError_eq_ok c s).1 ok
    rw [h.streamOf c inside]
    cases (Machine.streamOf c s).2.1 with
    | true => exact ⟨rfl, h.elems, written _⟩
    | false => exact ⟨rfl, h.elems, written _⟩
  | decblk c => exact h.checked rfl fun _ => h.beginBlock c _ _ le_rfl
  | decfrm c => exact h.checked (h.decfrmError c) fun _ => h.beginBlock c _ _ (Nat.le_add_right _ _)
  | bound c =>
    by_cases fits : boundOf c (opN s) < 2 ^ 64
    · exact ⟨_, _, if_pos fits, if_pos fits, ⟨rfl, h.elems, h.bytes⟩⟩
    · exact ⟨_, _, if_neg fits, if_neg fits, h.raise _ _⟩
  | reservedOp0 r | reservedOp9 r | reservedOpA r | reservedOpB r | reservedOpC r | reservedOpD r | reservedOpE r
  | reservedOpF r => exact report _ _
  | ctrlInvalid p => exact report _ _
  | unpack0 p | unpack1 p | unpack2 p | unpack3 p | unpack4 p | unpack5 p | unpack6 p | unpack7 p | unpack8 p | unpack9 p
  | unpack10 p | unpack11 p | unpack12 p | unpack16 p | unpack32 p | unpack64 p => exact h.unpackPartition (cursors rfl) _ p

theorem SeesSame.engineStep (h : SeesSame s e b) (cursors : s.phase = .control → cursorOk s) :
    SameOutcome (engineStep s) (Machine.engineStep (withCells s e b)) := by
  cases phase : s.phase with
  | idle => exact ⟨_, _, engineStep_idle phase, engineStep_idle phase, ⟨rfl, h.elems, h.bytes⟩⟩
  | command =>
    cases decoded : decodeCmd s.latch.cmd with
    | ok i =>
      rw [engineStep_command phase decoded, engineStep_command (s := withCells s e b) phase decoded]
      exact h.exec fun ctrl => by simp [isCtrl_of_decodeCmd decoded] at ctrl
    | error x => exact ⟨_, _, engineStep_illegal phase decoded, engineStep_illegal phase decoded, h.raise _ _⟩
  | control =>
    have ok := cursors phase
    by_cases more : s.cur.idx < s.cur.parts
    · rw [engineStep_control phase more, engineStep_control (s := withCells s e b) phase more]
      have fetched : ctrlInstr (withCells s e b) = ctrlInstr s := by
        obtain ⟨-, -, -, first_byte, block, byte_le, limit, -⟩ := ok
        have lower : opBptr s ≤ ctrlAddress s.cur := by unfold ctrlAddress; omega
        have upper : ctrlAddress s.cur < opBlim s := by unfold ctrlAddress; omega
        exact congrArg (decodeCtrl s.cur.codec) (h.bytes _ lower upper)
      rw [fetched]
      exact h.exec fun _ => ok
    · have used_up := Nat.le_of_not_lt more
      exact ⟨_, _, engineStep_blockEnd phase used_up, engineStep_blockEnd phase used_up, h.finishBlock ok⟩

end

/-- Settles O22. -/
theorem outcomeDependsOnTheWindowsOnly : Obligations.OutcomeDependsOnTheWindowsOnly := by
  intro s s' inv host same
  obtain ⟨other, elems, bytes⟩ := same
  have h : SeesSame s s'.e s'.b := ⟨elems, bytes⟩
  obtain ⟨-, -, -, -, cursors, -⟩ := inv
  rw [other, step_of_no_move host, step_of_no_move (s := withCells s s'.e s'.b) host]
  exact h.engineStep cursors

end Sys2Proof.Machine
end

section
/-! A decode that succeeds has determined every cell (R217, R220, R242). Two runs that draw other free values differ only in
cells that the framed block in progress has still to write: from its element cursor up to its end. -/

namespace Sys2Proof.Machine

/-- Cell `x` may hold a free value: the block in progress has still to write it (R152, R219). -/
def Undecided (s : State) (x : Nat) : Prop := s.phase = .control ∧ s.cur.elem ≤ x ∧ x < s.cur.dlimit

/-- The same engine with other cells in E-space, its free values drawn from `f` on. -/
abbrev withDraws (s : State) (e : Mem 64) (f : Nat) : State := { s with e := e, fresh := f }

/-- E-space `e` holds the decided cells of `s`. -/
def SameDecided (s : State) (e : Mem 64) : Prop := ∀ x, ¬Undecided s x → readCell e x = readCell s.e x

/-- The other run follows: it is in the same state but for what is undecided. -/
def Follows (t t' : State) : Prop := ∃ e f, t' = withDraws t e f ∧ SameDecided t e

/-- The command has ended with an error. -/
def Failed (t : State) : Prop := t.phase = .idle ∧ t.err ≠ .ok

theorem failed_raise (d : Dest) {x : Err} (error : x ≠ .ok) (s : State) : Failed (raise d x s) := ⟨rfl, error⟩

section
variable {s t : State} {e : Mem 64} {f : Nat}

theorem readCell_congr_of_not_control (decided : SameDecided s e) (phase : s.phase ≠ .control) (x : Nat) :
    readCell e x = readCell s.e x := decided x fun undecided => phase undecided.1

/-! ### The turns of a decode -/

theorem beginBlock_follows (same : ∀ x, readCell e x = readCell s.e x) (f : Nat) (c : Codec) (a e0 rem : Nat) :
    Failed (beginBlock c a e0 rem s) ∨ Follows (beginBlock c a e0 rem s) (beginBlock c a e0 rem (withDraws s e f)) := by
  unfold beginBlock
  by_cases none_left : rem = 0
  · rw [if_pos none_left, if_pos none_left]
    exact .inr ⟨e, f, rfl, fun x _ => same x⟩
  rw [if_neg none_left, if_neg none_left]
  by_cases short : rem < rawThreshold
  · rw [if_pos short, if_pos short]
    by_cases inside : a + rem * elemBytes c ≤ opBlim s
    · rw [if_pos inside, if_pos (show a + rem * elemBytes c ≤ opBlim (withDraws s e f) from inside)]
      exact .inr ⟨writeCells e e0 (rawElems c s.b a rem), f, rfl, fun x _ => readCell_writeCells_congr _ _ (same x)⟩
    · rw [if_neg inside]
      exact .inl (failed_raise _ (by decide) s)
  rw [if_neg short, if_neg short]
  by_cases ok : headerError c a s = .ok
  · rw [if_pos ok, if_pos (show headerError c a (withDraws s e f) = .ok from ok)]
    exact .inr ⟨e, f, rfl, fun x _ => same x⟩
  · rw [if_neg ok]
    exact .inl (failed_raise _ ok s)

/-- The tail writes the last undecided cells. -/
theorem finishBlock_follows (decided : SameDecided s e) (f : Nat) :
    Failed (finishBlock s) ∨ Follows (finishBlock s) (finishBlock (withDraws s e f)) := by
  unfold finishBlock
  by_cases ok : tailError s = .ok
  · obtain ⟨elems_end, -⟩ := (tailError_eq_ok s).1 ok
    rw [if_pos ok, if_pos (show tailError (withDraws s e f) = .ok from ok)]
    refine beginBlock_follows (s := decodeRaw s.cur.codec overrun s.cur.byte s.cur.elem s) (fun x => ?_) f _ _ _ _
    rw [decodeRaw_e, readCell_writeCells, readCell_writeCells, length_rawElems]
    by_cases tail : s.cur.elem ≤ x ∧ x < s.cur.elem + overrun
    · rw [if_pos tail, if_pos tail]
    · rw [if_neg tail, if_neg tail]
      exact decided x fun ⟨_, undecided⟩ => tail (elems_end.symm ▸ undecided)
  · rw [if_neg ok]
    exact .inl (failed_raise _ ok s)

/-- Outside the second of two runs of cells written at once, the memories agree where they did, and on the first run. -/
theorem readCell_writeCells_append {w : Nat} {m m' : Mem w} {a x : Nat} {vs us us' : List (BitVec w)}
    (length : us'.length = us.length) (same : ¬(a ≤ x ∧ x < a + vs.length) → readCell m' x = readCell m x)
    (outside : ¬(a + vs.length ≤ x ∧ x < a + vs.length + us.length)) :
    readCell (writeCells m' a (vs ++ us')) x = readCell (writeCells m a (vs ++ us)) x := by
  rw [readCell_writeCells, readCell_writeCells, List.length_append, List.length_append, length]
  by_cases inside : a ≤ x ∧ x < a + (vs.length + us.length)
  · rw [if_pos inside, if_pos inside, List.getD_append _ _ _ _ (by omega), List.getD_append _ _ _ _ (by omega)]
  · rw [if_neg inside, if_neg inside, same (by omega)]

/-- A partition's fields are decided; its speculative cells lie behind the next element cursor (R151, R153). -/
theorem unpackPartition_follows (decided : SameDecided s e) (phase : s.phase = .control) (f w : Nat) (p : BitVec 4)
    (answered : unpackPartition w p s = .next t) :
    Failed t ∨ ∃ t', unpackPartition w p (withDraws s e f) = .next t' ∧ Follows t t' := by
  unfold unpackPartition at answered ⊢
  by_cases ok : ctrlError w p s = .ok
  · rw [if_pos ok] at answered
    rw [if_pos (show ctrlError w p (withDraws s e f) = .ok from ok)]
    obtain rfl := Host.Outcome.next.inj answered
    refine .inr ⟨_, rfl, _, f + 1, rfl, fun x undecided => readCell_writeCells_append ?_ (fun outside => ?_) ?_⟩
    · rw [length_freeElems, length_freeElems]
    · rw [length_unpackBits] at outside
      exact decided x fun ⟨_, first, last⟩ =>
        undecided ⟨phase, Nat.le_of_not_lt fun before => outside ⟨first, before⟩, last⟩
    · rw [length_unpackBits, length_freeElems]
      have clipped : specEnd w (partitionLength p) s.cur.elem s.cur.dlimit ≤ s.cur.dlimit := Nat.min_le_right _ _
      rintro ⟨first : s.cur.elem + partitionLength p ≤ x, last⟩
      have below : x < s.cur.elem + partitionLength p +
        (specEnd w (partitionLength p) s.cur.elem s.cur.dlimit - (s.cur.elem + partitionLength p)) := last
      exact undecided ⟨phase, first, show x < s.cur.dlimit by omega⟩
  · rw [if_neg ok] at answered
    obtain rfl := Host.Outcome.next.inj answered
    exact .inl (failed_raise _ ok s)

/-- R97: the one control byte without an unpacker. -/
theorem eq_ctrlInvalid {i : Instr} (ctrl : isCtrl i = true) (no_unpacker : unpackerOf i = none) :
    ∃ p, i = .ctrlInvalid p := by
  cases i <;> cases ctrl <;> cases no_unpacker
  exact ⟨_, rfl⟩

theorem exec_ctrl_follows {i : Instr} (ctrl : isCtrl i = true) (decided : SameDecided s e) (phase : s.phase = .control) (f : Nat)
    (answered : exec i s = .next t) : Failed t ∨ ∃ t', exec i (withDraws s e f) = .next t' ∧ Follows t t' := by
  cases unpacker : unpackerOf i with
  | some x =>
    obtain ⟨w, p⟩ := x
    rw [exec_of_unpackerOf unpacker] at answered ⊢
    exact unpackPartition_follows decided phase f w p answered
  | none =>
    obtain ⟨p, rfl⟩ := eq_ctrlInvalid ctrl unpacker
    obtain rfl := Host.Outcome.next.inj answered
    exact .inl (failed_raise _ (by decide) s)

/-- DECBLK and DECFRM, the commands whose runs are compared. -/
def IsDecoder (v : CmdWord) : Prop := ∃ c, decodeCmd v = .ok (.decblk c) ∨ decodeCmd v = .ok (.decfrm c)

theorem exec_decblk_follows (c : Codec) (same : ∀ x, readCell e x = readCell s.e x) (f : Nat)
    (answered : exec (.decblk c) s = .next t) :
    Failed t ∨ ∃ t', exec (.decblk c) (withDraws s e f) = .next t' ∧ Follows t t' := by
  by_cases ok : decblkError s = .ok
  · rw [exec_decblk_of_ok ok] at answered
    rw [exec_decblk_of_ok (s := withDraws s e f) ok]
    obtain rfl := Host.Outcome.next.inj answered
    exact (beginBlock_follows same f _ _ _ _).imp_right fun follows => ⟨_, rfl, follows⟩
  · rw [exec_decblk_of_error rfl ok] at answered
    obtain rfl := Host.Outcome.next.inj answered
    exact .inl (failed_raise _ ok s)

theorem exec_decfrm_follows (c : Codec) (same : ∀ x, readCell e x = readCell s.e x) (f : Nat)
    (answered : exec (.decfrm c) s = .next t) :
    Failed t ∨ ∃ t', exec (.decfrm c) (withDraws s e f) = .next t' ∧ Follows t t' := by
  by_cases ok : decfrmError c s = .ok
  · rw [exec_decfrm_of_ok ok] at answered
    rw [exec_decfrm_of_ok (s := withDraws s e f) ok]
    obtain rfl := Host.Outcome.next.inj answered
    exact (beginBlock_follows same f _ _ _ _).imp_right fun follows => ⟨_, rfl, follows⟩
  · rw [exec_decfrm_of_error rfl ok] at answered
    obtain rfl := Host.Outcome.next.inj answered
    exact .inl (failed_raise _ ok s)

theorem engineStep_follows (decoder : s.phase = .command → IsDecoder s.latch.cmd) (decided : SameDecided s e) (f : Nat)
    (answered : engineStep s = .next t) : Failed t ∨ ∃ t', engineStep (withDraws s e f) = .next t' ∧ Follows t t' := by
  cases phase : s.phase with
  | idle =>
    rw [engineStep_idle phase] at answered
    obtain rfl := Host.Outcome.next.inj answered
    exact .inr ⟨_, engineStep_idle phase, e, f, rfl, decided⟩
  | command =>
    have same := readCell_congr_of_not_control decided (by simp [phase])
    obtain ⟨c, decoded | decoded⟩ := decoder phase
    · rw [engineStep_command phase decoded] at answered
      rw [engineStep_command (s := withDraws s e f) phase decoded]
      exact exec_decblk_follows c same f answered
    · rw [engineStep_command phase decoded] at answered
      rw [engineStep_command (s := withDraws s e f) phase decoded]
      exact exec_decfrm_follows c same f answered
  | control =>
    by_cases more : s.cur.idx < s.cur.parts
    · rw [engineStep_control phase more] at answered
      rw [engineStep_control (s := withDraws s e f) phase more]
      exact exec_ctrl_follows (isCtrl_ctrlInstr s) decided phase f answered
    · have used_up := Nat.le_of_not_lt more
      rw [engineStep_blockEnd phase used_up] at answered
      rw [engineStep_blockEnd (s := withDraws s e f) phase used_up]
      obtain rfl := Host.Outcome.next.inj answered
      exact (finishBlock_follows decided f).imp_right fun follows => ⟨_, rfl, follows⟩

/-! ### Whole runs -/

theorem run_of_idle (host : s.host = []) (phase : s.phase = .idle) (k : Nat) : Host.Core.run Sys2Proof.core k s = .next s := by
  induction k with
  | zero => rfl
  | succ k ih => rw [run_succ ((step_of_no_move host).trans (engineStep_idle phase)), ih]

/-- A run that succeeds is followed to its end. -/
theorem run_follows (k : Nat) (host : s.host = []) (decoder : s.phase = .command → IsDecoder s.latch.cmd)
    (decided : SameDecided s e) (f : Nat) (run : Host.Core.run Sys2Proof.core k s = .next t) (ok : t.err = .ok) :
    ∃ t', Host.Core.run Sys2Proof.core k (withDraws s e f) = .next t' ∧ Follows t t' := by
  induction k generalizing s e f with
  | zero =>
    obtain rfl := Host.Outcome.next.inj run
    exact ⟨_, rfl, e, f, rfl, decided⟩
  | succ k ih =>
    obtain ⟨u, answered, turned⟩ := exists_turned s
    obtain ⟨-, -, -, -, -, -, -, -, -, -, host_kept, -⟩ := turned.registersKept
    rw [run_succ ((step_of_no_move host).trans answered)] at run
    obtain ⟨phase, error⟩ | ⟨u', answered', e', f', rfl, decided'⟩ := engineStep_follows decoder decided f answered
    · rw [run_of_idle (host_kept.trans host) phase] at run
      obtain rfl := Host.Outcome.next.inj run
      exact absurd ok error
    · have running : u.phase = .command → IsDecoder u.latch.cmd := fun command => by
        have control := turned.phase_control (by simp [command])
        simp [command] at control
      rw [run_succ ((step_of_no_move (s := withDraws s e f) host).trans answered')]
      exact ih (host_kept.trans host) running decided' f' run

end

/-- Settles O54: the run with other draws follows, and in phase IDLE nothing is undecided. -/
theorem decodedCellsAreDetermined : Obligations.DecodedCellsAreDetermined := by
  intro c s t k f host command cmd run idle ok
  have decoder : IsDecoder s.latch.cmd := by
    rcases cmd with cmd | cmd
    · exact ⟨c, .inl (cmd ▸ decodeCmd_decblk c)⟩
    · exact ⟨c, .inr (cmd ▸ decodeCmd_decfrm c)⟩
  obtain ⟨_, followed, e, f', rfl, decided⟩ := run_follows (e := s.e) k host (fun _ => decoder) (fun _ _ => rfl) f run ok
  exact ⟨_, followed, idle, ok, rfl, readCell_congr_of_not_control decided (by simp [idle])⟩

end Sys2Proof.Machine
end
